-- ==== Sys2Proof/Word.lean ====
section
/-! DEFINITION. The word types of DSC: one abbreviation per width the spec gives a quantity that crosses a port or is
stored in a memory (00_scope.md R9, R10, R11). All are unsigned; there is no signed quantity (R11). -/

namespace Sys2Proof

/-- A command word or a response word: 64 bits, bit 63 the most significant (30_encoding.md R80, R93). -/
abbrev Word64 := BitVec 64

/-- The value of a response, and ERRINFO: 48 bits (30_encoding.md R93, 10_state.md R39). -/
abbrev Value := BitVec 48

/-- A symbol: an opaque 32-bit code, compared only for equality (00_scope.md R9). One entry of ALPHA, SEQ or CAND. -/
abbrev Sym := BitVec 32

/-- A digit: an unsigned integer of k bits held in a 32-bit container (00_scope.md R10). -/
abbrev Digit := BitVec 32

/-- A 33-bit quantity of the datapath: the mask and the accumulator (00_scope.md R10). -/
abbrev Acc := BitVec 33

end Sys2Proof
end

