-- ==== Sys2Proof/Config.lean ====
section
/-! DEFINITION. What an instance of DSC fixes for its life: POLY_TABLE, KMAX and MMAX (00_scope.md R6, R7, R8), and the
spec's default for each (40_maskgen.md R115, R116). No command changes them (10_state.md R52); every statement is about
every instance whose parameters are well formed (notes/assumptions/4.md). -/

namespace Sys2Proof

/-- POLY_TABLE as data: one row per field exponent, the exponent and the exponents its polynomial lists
(40_maskgen.md R110). -/
abbrev PolyTable := List (Nat × List Nat)

/-- The three parameters of an instance (00_scope.md section 5). -/
structure Params where
  /-- KMAX, the largest field exponent the instance can hold an alphabet for (00_scope.md R7). -/
  kmax : Nat
  /-- MMAX, the largest payload length the instance accepts (00_scope.md R8). -/
  mmax : Nat
  /-- POLY_TABLE (00_scope.md R6). -/
  polyTable : PolyTable
deriving DecidableEq, Repr

/-- Rows 2 to 12 of the default table. Row 2 is the document's (40_maskgen.md R116); the others are the spec's default
from general knowledge (R115, notes/assumptions/5.md). -/
def defaultPolyRowsLow : PolyTable :=
  [(2, [2, 1]), (3, [3, 1]), (4, [4, 1]), (5, [5, 2]), (6, [6, 1]), (7, [7, 1]), (8, [8, 4, 3, 1]), (9, [9, 1]),
   (10, [10, 3]), (11, [11, 2]), (12, [12, 3])]

/-- Rows 13 to 22 of the default table (40_maskgen.md R115). -/
def defaultPolyRowsMid : PolyTable :=
  [(13, [13, 4, 3, 1]), (14, [14, 5]), (15, [15, 1]), (16, [16, 5, 3, 1]), (17, [17, 3]), (18, [18, 3]),
   (19, [19, 5, 2, 1]), (20, [20, 3]), (21, [21, 2]), (22, [22, 1])]

/-- Rows 23 to 32 of the default table (40_maskgen.md R115). -/
def defaultPolyRowsHigh : PolyTable :=
  [(23, [23, 5]), (24, [24, 4, 3, 1]), (25, [25, 3]), (26, [26, 4, 3, 1]), (27, [27, 5, 2, 1]), (28, [28, 1]),
   (29, [29, 2]), (30, [30, 1]), (31, [31, 3]), (32, [32, 7, 3, 2])]

/-- The default POLY_TABLE of 40_maskgen.md R115. -/
def defaultPolyTable : PolyTable :=
  defaultPolyRowsLow ++ (defaultPolyRowsMid ++ defaultPolyRowsHigh)

/-- The default instance: KMAX = 32, MMAX = 65535, the default table (00_scope.md R7, R8, 40_maskgen.md R115). -/
def defaultParams : Params :=
  { kmax := 32, mmax := 65535, polyTable := defaultPolyTable }

end Sys2Proof
end

