-- ==== Sys2Proof/Machine/State.lean ====
section
/-! DEFINITION. The state of DSC as plain data: the flags, registers and memories of 10_state.md R20, the parameters of
the instance (R52), and the model's own inputs and outputs (the host's commands, the random words, the responses). The
working registers of the datapaths (R46 to R48) are dead between commands and are no part of it (R20); the small-step
machines of Machine/Micro.lean hold them. -/

namespace Sys2Proof.Machine

/-- A memory of 32-bit entries by entry index (20_memory.md R61): the listed entries, indices strictly rising, no entry
equal to what an unlisted index reads as (Machine/Ops.lean, `Memory.wf`; notes/assumptions/6.md). -/
abbrev Memory := List (Nat × Sym)

/-- What the host does next (00_scope.md R5, 70_reset_and_hazards.md R270, R272; notes/assumptions/1.md). -/
inductive HostInput where
  /-- The host presents a command word and takes its response. -/
  | command (w : Word64)
  /-- The host asserts reset, between commands or while a GEN waits for random words (70_reset_and_hazards.md R270). -/
  | reset
  /-- The host presents a command word and asserts reset before the response (70_reset_and_hazards.md R272). `drawn` is
  how many random words the command had taken by then; only a GEN takes any (notes/assumptions/10.md). -/
  | resetDuring (w : Word64) (drawn : Nat)
deriving DecidableEq, Repr

/-- The ten error codes (60_exceptions.md R241). -/
inductive ErrorCode where
  | invalidFieldSize
  | invalidPayloadSize
  | duplicateOrWrongSizeAlphabet
  | wrongSequenceLength
  | unknownSymbol
  | alreadyValid
  | illegalCommand
  | notReady
  | locked
  | badIndex
deriving DecidableEq, Repr

/-- Where the model stops: an access to an entry that the instance does not have. The spec's accesses are always in range
(20_memory.md R63), so no run from reset reaches one; each is safe (notes/assumptions/8.md). -/
inductive Fault where
  /-- An access to ALPHA at an index of 2^KMAX or above. Raised by LDA, RDA, CSUM, VRFY, GEN and CORR in states that
  break 10_state.md R50 (b) or (c). Safe. -/
  | alphaRange
  /-- An access to SEQ at an index above MMAX. Raised by LDS, RDS, CSUM, VRFY, GEN and CORR in states that break
  10_state.md R50 (b) or (c). Safe. -/
  | seqRange
  /-- An access to CAND at a record above 2·MMAX or an entry above MMAX. Raised by CORR and RDC in states that break
  10_state.md R50 (b) or (e). Safe. -/
  | candRange
deriving DecidableEq, Repr

/-- Why the model gives an instruction no meaning. -/
inductive Refusal where
  /-- The instruction is not modelled yet. Raised by no arm of this model. Safe. -/
  | notModelled (mnemonic : String)
deriving DecidableEq, Repr

/-- The state of DSC (10_state.md R20), its parameters (R52) and the model's inputs and outputs. -/
structure State where
  /-- POLY_TABLE, KMAX and MMAX, fixed for the life of the instance (10_state.md R52, notes/assumptions/4.md). -/
  params : Params
  /-- READY, STATUS bit 0: an engine exists (10_state.md R26). -/
  ready : Bool
  /-- AOVF, STATUS bit 1: more than 2^KMAX alphabet entries were offered (10_state.md R27). -/
  aovf : Bool
  /-- SOVF, STATUS bit 2: more than MMAX + 1 sequence entries were offered (10_state.md R28). -/
  sovf : Bool
  /-- VALID, STATUS bit 3: the outcome of the last successful VRFY (10_state.md R29). -/
  valid : Bool
  /-- CVALID, STATUS bit 4: CAND holds the result of a successful CORR (10_state.md R30). -/
  cvalid : Bool
  /-- K, register 3: the field exponent of the engine (10_state.md R31). -/
  k : BitVec 6
  /-- M, register 4: the payload length of the engine (10_state.md R32). -/
  m : BitVec 16
  /-- MASK, register 5: the reduction mask of the engine (10_state.md R33). -/
  mask : BitVec 33
  /-- ALEN, register 6: alphabet entries loaded (10_state.md R34). -/
  alen : BitVec 33
  /-- SLEN, register 7: sequence entries present (10_state.md R35). -/
  slen : BitVec 17
  /-- NCAND, register 8: candidates in CAND (10_state.md R36). -/
  ncand : BitVec 18
  /-- LASTERR, register 9: code of the most recent error (10_state.md R37). -/
  lasterr : BitVec 8
  /-- ESTICKY, register 10: one bit per error code seen (10_state.md R38). -/
  esticky : BitVec 16
  /-- ERRINFO, register 11: information value of the most recent error (10_state.md R39). -/
  errinfo : BitVec 48
  /-- RDIG, register 12: digit of the most recent successful CSUM, VRFY or GEN (10_state.md R40). -/
  rdig : BitVec 32
  /-- RSYM, register 13: symbol of the most recent successful CSUM, VRFY or GEN (10_state.md R41). -/
  rsym : BitVec 32
  /-- ALPHA, 2^KMAX entries (10_state.md R42). -/
  alpha : Memory
  /-- SEQ, MMAX + 1 entries (10_state.md R43). -/
  seq : Memory
  /-- CAND, 2·MMAX + 1 records of MMAX + 1 entries; record c, entry p stands at key c·(MMAX + 1) + p
  (10_state.md R44, notes/assumptions/7.md). -/
  cand : Memory
  /-- The model's own: a GEN has been accepted and waits for random words (44_generate.md R166, notes/assumptions/3.md). -/
  busy : Bool
  /-- The model's own: what the host does, in order (notes/assumptions/1.md). -/
  host : List HostInput
  /-- The model's own: the random words the source delivers, in order (44_generate.md R166, notes/assumptions/3.md). -/
  rand : List (BitVec 32)
  /-- The model's own: the response words given, oldest first (30_encoding.md R93, notes/assumptions/2.md). -/
  responses : List Word64
deriving DecidableEq, Repr

/-- The reset state of an instance with parameters `p`: every flag and register 0, nothing listed in any memory
(10_state.md R51, 70_reset_and_hazards.md R271), no input pending and no response given (notes/assumptions/1.md, 2.md,
3.md). -/
def State.resetOf (p : Params) : State :=
  { params := p
    ready := false, aovf := false, sovf := false, valid := false, cvalid := false
    k := 0#6, m := 0#16, mask := 0#33, alen := 0#33, slen := 0#17, ncand := 0#18
    lasterr := 0#8, esticky := 0#16, errinfo := 0#48, rdig := 0#32, rsym := 0#32
    alpha := [], seq := [], cand := []
    busy := false, host := [], rand := [], responses := [] }

/-- The machine right after reset, with the default parameters (00_scope.md R7, R8, 40_maskgen.md R115;
notes/assumptions/4.md). -/
def State.reset : State := State.resetOf defaultParams

end Sys2Proof.Machine
end

