-- ==== Sys2Proof/Machine/Ops.lean ====
section
/-! DEFINITION. The named operations over the memories, the response port, the error registers and reset: every access
of a command goes through one of these. -/

namespace Sys2Proof.Machine

/-- The outcome of a command. -/
abbrev Result := Host.Outcome State Fault Refusal

/-! ### Loops -/

/-- `for i = 0 .. n − 1`: the body `f` runs for 0, 1, …, n − 1 in ascending order; nothing runs when n is 0
(00_scope.md R12). -/
def forUpTo {α : Type} (n : Nat) (f : Nat → α → α) (init : α) : α :=
  match n with
  | 0 => init
  | n + 1 => f n (forUpTo n f init)

/-! ### Memories of entries (20_memory.md R60, R61) -/

/-- What an entry that nothing has written reads as. The spec leaves it open and unobservable (10_state.md R42 to R44,
93_implementation_defined.md U7). DESIGN CHOICE, unsafe: notes/assumptions/6.md. -/
def unwrittenEntry : Sym := 0#32

/-- MemRead: the entry at an index (00_scope.md R12). -/
def Memory.read : Memory → Nat → Sym
  | [], _ => unwrittenEntry
  | (a, x) :: rest, i => if a = i then x else Memory.read rest i

/-- MemWrite: the memory with one entry replaced (00_scope.md R12), kept in canonical form. -/
def Memory.write : Memory → Nat → Sym → Memory
  | [], i, v => if v = unwrittenEntry then [] else [(i, v)]
  | (a, x) :: rest, i, v =>
    if i < a then (if v = unwrittenEntry then (a, x) :: rest else (i, v) :: (a, x) :: rest)
    else if i = a then (if v = unwrittenEntry then rest else (i, v) :: rest)
    else (a, x) :: Memory.write rest i v

/-- The canonical form: indices strictly rising, no listed entry equal to what an unlisted one reads as. -/
def Memory.wf (mem : Memory) : Bool :=
  decide (mem.Pairwise fun c d => c.1 < d.1) && mem.all fun c => c.2 != unwrittenEntry

/-- Every listed index lies below `n`, the number of entries the memory has. -/
def Memory.below (mem : Memory) (n : Nat) : Bool := mem.all fun c => decide (c.1 < n)

/-- The symbols of a list written at consecutive indices from `base`. -/
def Memory.writeList (mem : Memory) (base : Nat) : List Sym → Memory
  | [] => mem
  | x :: xs => Memory.writeList (mem.write base x) (base + 1) xs

/-- The entries at indices `base`, …, `base + n − 1`. -/
def Memory.readList (mem : Memory) (base n : Nat) : List Sym :=
  (List.range n).map fun p => mem.read (base + p)

/-! ### The extent of the memories (00_scope.md R7, R8) -/

/-- ALPHA has 2^KMAX entries (00_scope.md R7). -/
def alphaSize (p : Params) : Nat := 2 ^ p.kmax

/-- SEQ has MMAX + 1 entries (00_scope.md R8). -/
def seqSize (p : Params) : Nat := p.mmax + 1

/-- CAND has 2·MMAX + 1 records (00_scope.md R8). -/
def candRecords (p : Params) : Nat := 2 * p.mmax + 1

/-- The key of record `c`, entry `e` of CAND: each record has MMAX + 1 entries (10_state.md R44;
notes/assumptions/7.md). -/
def candKey (p : Params) (c e : Nat) : Nat := c * (p.mmax + 1) + e

/-- ALPHA[i]; outside the memory a fault (notes/assumptions/8.md). -/
def readAlpha (s : State) (i : Nat) : Except Fault Sym :=
  if i < alphaSize s.params then .ok (s.alpha.read i) else .error .alphaRange

/-- SEQ[i]; outside the memory a fault (notes/assumptions/8.md). -/
def readSeq (s : State) (i : Nat) : Except Fault Sym :=
  if i < seqSize s.params then .ok (s.seq.read i) else .error .seqRange

/-- CAND[c][e] as plain data. -/
def candEntry (s : State) (c e : Nat) : Sym := s.cand.read (candKey s.params c e)

/-- CAND[c][e]; outside the memory a fault (notes/assumptions/8.md). -/
def readCand (s : State) (c e : Nat) : Except Fault Sym :=
  if c < candRecords s.params ∧ e < seqSize s.params then .ok (candEntry s c e) else .error .candRange

/-- `ALPHA[i] <- v`; outside the memory a fault (notes/assumptions/8.md). -/
def writeAlpha (s : State) (i : Nat) (v : Sym) : Except Fault State :=
  if i < alphaSize s.params then .ok { s with alpha := s.alpha.write i v } else .error .alphaRange

/-- `SEQ[i] <- v`; outside the memory a fault (notes/assumptions/8.md). -/
def writeSeq (s : State) (i : Nat) (v : Sym) : Except Fault State :=
  if i < seqSize s.params then .ok { s with seq := s.seq.write i v } else .error .seqRange

/-- The records of a candidate list written to CAND from record `c` on (45_correct.md R179). -/
def writeRecords (p : Params) (mem : Memory) (c : Nat) : List (List Sym) → Memory
  | [] => mem
  | r :: rs => writeRecords p (mem.writeList (candKey p c 0) r) (c + 1) rs

/-! ### The response (30_encoding.md R93) -/

/-- A response word: status in bits 63 to 56, zero in bits 55 to 48, the value in bits 47 to 0 (30_encoding.md R93). -/
def responseWord (status : BitVec 8) (value : Value) : Word64 := status ++ (0#8 ++ value)

/-- `respond(v)`: the command ends with status OK and value `v` (00_scope.md R12, 60_exceptions.md R240). -/
def respond (v : Value) (s : State) : State :=
  { s with responses := s.responses ++ [responseWord 0#8 v] }

/-! ### Errors (60_exceptions.md) -/

/-- The code of an error (60_exceptions.md R241). -/
def errorCode : ErrorCode → BitVec 8
  | .invalidFieldSize => 1#8
  | .invalidPayloadSize => 2#8
  | .duplicateOrWrongSizeAlphabet => 3#8
  | .wrongSequenceLength => 4#8
  | .unknownSymbol => 5#8
  | .alreadyValid => 6#8
  | .illegalCommand => 7#8
  | .notReady => 8#8
  | .locked => 9#8
  | .badIndex => 10#8

/-- `raise E(info)`, the whole of what an error does (60_exceptions.md R253): LASTERR, ERRINFO and ESTICKY are written and
the response carries the code and the information value. Nothing is saved, no mode changes, and there is nothing to
return from: the next command executes as usual (R255), so no return operation stands beside it. -/
def raise (e : ErrorCode) (info : Value) (s : State) : State :=
  { s with
    lasterr := errorCode e
    errinfo := info
    esticky := s.esticky ||| (1#16 <<< (errorCode e).toNat)
    responses := s.responses ++ [responseWord (errorCode e) info] }

/-- Why a command stops before its effect: an error of the spec, or a fault of the model. -/
inductive Stop where
  /-- `raise E(info)`. -/
  | raised (e : ErrorCode) (info : Value)
  /-- An access outside a memory (notes/assumptions/8.md). -/
  | broken (f : Fault)
deriving DecidableEq, Repr

/-- The outcome of a command that stops: the spec's errors are next states. -/
def stopOutcome (s : State) : Stop → Result
  | .raised e info => .next (raise e info s)
  | .broken f => .fault f

/-! ### Reset (70_reset_and_hazards.md R270 to R272) -/

/-- Every flag and register 0 and nothing readable in any memory (10_state.md R51). The parameters, the host's further
inputs and the responses already given are outside the block's state and stay (R52); `rand` is what the random source
still has to deliver. -/
def hardReset (s : State) (rand : List (BitVec 32)) : State :=
  { State.resetOf s.params with host := s.host, responses := s.responses, rand := rand }

/-- The random words still to come after a reset that meets a waiting GEN: the words presented to it are lost, at most M
(44_generate.md R166; notes/assumptions/10.md). -/
def randAfterReset (s : State) : List (BitVec 32) :=
  if s.busy then s.rand.drop s.m.toNat else s.rand

/-- The random words still to come after a reset that abandons a GEN which had taken `drawn` of them
(70_reset_and_hazards.md R272; notes/assumptions/10.md). -/
def randAfterAbandonedGen (s : State) (drawn : Nat) : List (BitVec 32) :=
  s.rand.drop (min drawn s.m.toNat)

end Sys2Proof.Machine
end

