-- ==== Sys2Proof/Machine/Flags.lean ====
section
/-! DEFINITION. The five flags: the STATUS view, and every condition that sets a flag or that a check reads from one
(10_state.md R25 to R30). -/

namespace Sys2Proof.Machine

/-- STATUS, the view of the flags: bit 0 READY, bit 1 AOVF, bit 2 SOVF, bit 3 VALID, bit 4 CVALID (10_state.md R25). -/
def status (s : State) : BitVec 5 :=
  BitVec.ofBool s.cvalid ++ (BitVec.ofBool s.valid ++ (BitVec.ofBool s.sovf ++ (BitVec.ofBool s.aovf ++ BitVec.ofBool s.ready)))

/-- AOVF is set by an LDA when ALEN = 2^KMAX (10_state.md R27, 41_construct.md R121). -/
def alphaFull (s : State) : Bool := decide (s.alen.toNat = alphaSize s.params)

/-- SOVF is set by an LDS when SLEN = MMAX + 1 (10_state.md R28, 42_checksum.md R144). -/
def seqFull (s : State) : Bool := decide (s.slen.toNat = seqSize s.params)

/-- The staged alphabet has the wrong size for `k`: AOVF = 1 or ALEN ≠ 2^k (41_construct.md R122). -/
def wrongAlphabetSize (s : State) (k : Nat) : Bool := s.aovf || decide (s.alen.toNat ≠ 2 ^ k)

/-- The sequence has not exactly `n` entries: SOVF = 1 or SLEN ≠ n (42_checksum.md R142). -/
def wrongLength (s : State) (n : Nat) : Bool := s.sovf || decide (s.slen.toNat ≠ n)

/-- VALID after a VRFY, the zero test on the accumulator (43_verify.md R160, R161). -/
def zeroTest (acc : Acc) : Bool := decide (acc = 0#33)

end Sys2Proof.Machine
end

