-- ==== Sys2Proof/Machine/Operands.lean ====
section
/-! DEFINITION. The operands of the commands: the widths of 30_encoding.md R88, the digit index INDEX (10_state.md R45),
the input sequence as digits (42_checksum.md R142), a drawn word as a digit (44_generate.md R167), the numbered registers
(46_access.md R201) and the alphabet's duplicate check (41_construct.md R124). -/

namespace Sys2Proof.Machine

/-- The smallest index below `n` at which the memory holds the symbol `x`. -/
def indexBelow (mem : Memory) (x : Sym) : Nat → Option Nat
  | 0 => none
  | n + 1 =>
    match indexBelow mem x n with
    | some i => some i
    | none => if mem.read n = x then some n else none

/-- INDEX(x): the digit of a symbol of the alphabet ALPHA[0 .. 2^K − 1], or a miss (10_state.md R45, 41_construct.md R126).
In states that no run reaches, where the alphabet repeats a symbol, the smallest index (notes/assumptions/8.md). While
READY = 0 the spec leaves INDEX undefined and no command uses it; that this function then still answers from ALPHA and K is
the model's choice (DESIGN CHOICE, notes/assumptions/16.md). -/
def index (s : State) (x : Sym) : Option Digit :=
  (indexBelow s.alpha x (2 ^ s.k.toNat)).map (BitVec.ofNat 32)

/-- The symbol whose digit is `d`, ALPHA[d] (10_state.md R42). -/
def symbolOf (s : State) (d : Digit) : Sym := s.alpha.read d.toNat

/-- The smallest index below `n` whose symbol also occurs at a smaller index, if there is one (41_construct.md R124). -/
def firstDuplicate (mem : Memory) : Nat → Option Nat
  | 0 => none
  | n + 1 =>
    match firstDuplicate mem n with
    | some i => some i
    | none => if (indexBelow mem (mem.read n) n).isSome then some n else none

/-- The digits of a list of symbols that stand at positions `p`, `p + 1`, …: the symbol at the lowest position that is not
in the alphabet raises UnknownSymbol with that position (42_checksum.md R142). -/
def lookupFrom (s : State) (p : Nat) : List Sym → Except Stop (List Digit)
  | [] => .ok []
  | x :: xs =>
    match index s x with
    | none => .error (.raised .unknownSymbol (BitVec.ofNat 48 p))
    | some d =>
      match lookupFrom s (p + 1) xs with
      | .ok ds => .ok (d :: ds)
      | .error e => .error e

/-- The symbols SEQ[0 .. n − 1]. -/
def seqSymbols (s : State) (n : Nat) : List Sym := s.seq.readList 0 n

/-- `digits(n)`: the input sequence of an operation that requires length `n`, as digits. First the length, then
membership in position order (42_checksum.md R142). -/
def digits (s : State) (n : Nat) : Except Stop (List Digit) :=
  if wrongLength s n then .error (.raised .wrongSequenceLength (s.slen.setWidth 48))
  else if seqSize s.params < n then .error (.broken .seqRange)
  else if alphaSize s.params < 2 ^ s.k.toNat then .error (.broken .alphaRange)
  else lookupFrom s 0 (seqSymbols s n)

/-- `d <- r[K−1:0]`, the digit of a drawn word: its low K bits (44_generate.md R167). -/
def drawnDigit (k : Nat) (r : BitVec 32) : Digit := (r.setWidth k).setWidth 32

/-- ID, the constant of 10_state.md R23. -/
def idReg : BitVec 48 := 0x44414D4D0007#48

/-- CAPS: KMAX in bits 5 to 0, zero in bits 15 to 6, MMAX in bits 31 to 16 (10_state.md R24). -/
def caps (p : Params) : BitVec 32 := BitVec.ofNat 16 p.mmax ++ (0#10 ++ BitVec.ofNat 6 p.kmax)

/-- REG[r], the numbered registers, zero-extended to 48 bits; none above 13 (46_access.md R201, 20_memory.md R67). -/
def readReg (s : State) (r : Nat) : Option Value :=
  match r with
  | 0 => some idReg
  | 1 => some ((caps s.params).setWidth 48)
  | 2 => some ((status s).setWidth 48)
  | 3 => some (s.k.setWidth 48)
  | 4 => some (s.m.setWidth 48)
  | 5 => some (s.mask.setWidth 48)
  | 6 => some (s.alen.setWidth 48)
  | 7 => some (s.slen.setWidth 48)
  | 8 => some (s.ncand.setWidth 48)
  | 9 => some (s.lasterr.setWidth 48)
  | 10 => some (s.esticky.setWidth 48)
  | 11 => some s.errinfo
  | 12 => some (s.rdig.setWidth 48)
  | 13 => some (s.rsym.setWidth 48)
  | _ => none

end Sys2Proof.Machine
end

