-- ==== Sys2Proof/Machine/Access.lean ====
section
/-! DEFINITION. Host access and housekeeping: NOP, RDR, RDA, RDS, RDC and CLRE (46_access.md). -/

namespace Sys2Proof.Machine

/-- NOP: answers 0 and does nothing (46_access.md R200). -/
def execNop (s : State) : Result := .next (respond 0#48 s)

/-- The end of a read: the symbol, zero-extended, or the fault of an access outside the memory. -/
def answerRead (s : State) : Except Fault Sym → Result
  | .ok x => .next (respond (x.setWidth 48) s)
  | .error f => .fault f

/-- RDR r: answers a numbered register (46_access.md R201). -/
def execRdr (idx1 : BitVec 32) (s : State) : Result :=
  match readReg s idx1.toNat with
  | some v => .next (respond v s)
  | none => .next (raise .badIndex 0#48 s)

/-- RDA i: answers ALPHA[i] for i < ALEN (46_access.md R202). -/
def execRda (idx1 : BitVec 32) (s : State) : Result :=
  if s.alen.toNat ≤ idx1.toNat then .next (raise .badIndex 0#48 s)
  else answerRead s (readAlpha s idx1.toNat)

/-- RDS p: answers SEQ[p] for p < SLEN (46_access.md R203). -/
def execRds (idx1 : BitVec 32) (s : State) : Result :=
  if s.slen.toNat ≤ idx1.toNat then .next (raise .badIndex 0#48 s)
  else answerRead s (readSeq s idx1.toNat)

/-- RDC c, p: answers CAND[c][p] for CVALID = 1, c < NCAND and p ≤ M (46_access.md R204). -/
def execRdc (idx2 : BitVec 24) (idx1 : BitVec 32) (s : State) : Result :=
  if s.cvalid = false ∨ s.ncand.toNat ≤ idx2.toNat ∨ s.m.toNat < idx1.toNat then
    .next (raise .badIndex 0#48 s)
  else answerRead s (readCand s idx2.toNat idx1.toNat)

/-- CLRE: clears the three error registers (46_access.md R205). -/
def execClre (s : State) : Result :=
  .next (respond 0#48 { s with lasterr := 0#8, esticky := 0#16, errinfo := 0#48 })

end Sys2Proof.Machine
end

