-- ==== Sys2Proof/Machine/Maskgen.lean ====
section
/-! DEFINITION. MASKGEN, the reduction mask generator, and the command MKMASK (40_maskgen.md). -/

namespace Sys2Proof.Machine

/-- The mask of a table entry: `1 + Σ 2^e` over the exponents listed, a 33-bit integer (40_maskgen.md R111). -/
def maskOfExponents (es : List Nat) : Acc := BitVec.ofNat 33 (1 + (es.map fun e => 2 ^ e).sum)

/-- `supported(k)`: k is in the domain of POLY_TABLE and k ≤ KMAX (40_maskgen.md R113). -/
def supported (p : Params) (k : Nat) : Bool := (p.polyTable.lookup k).isSome && decide (k ≤ p.kmax)

/-- `buildMask(k)`: mask(k) for a supported k, nothing (the error InvalidFieldSize) otherwise (40_maskgen.md R117). -/
def buildMask (p : Params) (k : Nat) : Option Acc :=
  if supported p k then (p.polyTable.lookup k).map maskOfExponents else none

/-- MKMASK k: answers buildMask(k) and changes nothing (40_maskgen.md R114). -/
def execMkmask (k : BitVec 8) (s : State) : Result :=
  match buildMask s.params k.toNat with
  | none => .next (raise .invalidFieldSize (k.setWidth 48) s)
  | some mask => .next (respond (mask.setWidth 48) s)

end Sys2Proof.Machine
end

