-- ==== Sys2Proof/Machine/Construct.lean ====
section
/-! DEFINITION. Engine construction: the commands CLRA, LDA, INIT and FREE (41_construct.md). -/

namespace Sys2Proof.Machine

/-- CLRA: empties the alphabet staging area; Locked while an engine exists (41_construct.md R120). -/
def execClra (s : State) : Result :=
  if s.ready then .next (raise .locked 0#48 s)
  else .next (respond 0#48 { s with alen := 0#33, aovf := false })

/-- LDA sym: appends one symbol to the staged alphabet, or sets AOVF; answers ALEN after the update; Locked while an
engine exists (41_construct.md R121). -/
def execLda (sym : BitVec 32) (s : State) : Result :=
  if s.ready then .next (raise .locked 0#48 s)
  else if alphaFull s then .next (respond (s.alen.setWidth 48) { s with aovf := true })
  else
    match writeAlpha s s.alen.toNat sym with
    | .error f => .fault f
    | .ok t => .next (respond ((s.alen + 1#33).setWidth 48) { t with alen := s.alen + 1#33 })

/-- The information value of the duplicate cause of DuplicateOrWrongSizeAlphabet, 2^47 + i0 (60_exceptions.md R244). -/
def duplicateInfo (i : Nat) : Value := BitVec.ofNat 48 (2 ^ 47 + i)

/-- The effect of a successful INIT: K, M, MASK and READY; the staged alphabet becomes the engine's in place
(41_construct.md R123, R126). -/
def startEngine (k : BitVec 8) (m : BitVec 16) (mask : Acc) (s : State) : State :=
  { s with k := k.setWidth 6, m := m, mask := mask, ready := true }

/-- INIT k, m: the checks in order, Locked, field size, payload size, alphabet size, duplicates; then the engine
(41_construct.md R122 to R124). A supported k is at most KMAX, so the duplicate check reads entries of ALPHA only. -/
def execInit (k : BitVec 8) (m : BitVec 16) (s : State) : Result :=
  if s.ready then .next (raise .locked 0#48 s)
  else
    match buildMask s.params k.toNat with
    | none => .next (raise .invalidFieldSize (k.setWidth 48) s)
    | some mask =>
      if m.toNat < 1 ∨ s.params.mmax < m.toNat then .next (raise .invalidPayloadSize (m.setWidth 48) s)
      else if wrongAlphabetSize s k.toNat then
        .next (raise .duplicateOrWrongSizeAlphabet (s.alen.setWidth 48) s)
      else
        match firstDuplicate s.alpha (2 ^ k.toNat) with
        | some i => .next (raise .duplicateOrWrongSizeAlphabet (duplicateInfo i) s)
        | none => .next (respond (mask.setWidth 48) (startEngine k m mask s))

/-- What FREE zeroes: the engine, the verification and correction results (41_construct.md R125). -/
def endEngine (s : State) : State :=
  { s with
    ready := false, k := 0#6, m := 0#16, mask := 0#33
    valid := false, cvalid := false, ncand := 0#18, rdig := 0#32, rsym := 0#32 }

/-- FREE: ends the life of the engine, if there is one (41_construct.md R125). -/
def execFree (s : State) : Result := .next (respond 0#48 (endEngine s))

end Sys2Proof.Machine
end

