-- ==== Sys2Proof/Machine/Fold.lean ====
section
/-! DEFINITION. FOLD, the quasigroup-checksum datapath, and the commands CLRS, LDS and CSUM (42_checksum.md). -/

namespace Sys2Proof.Machine

/-- The fold step: XOR the digit in, shift left by one, and if bit k is set XOR the mask; the result is the low k bits
(42_checksum.md R140). The container has 33 bits, so for k ≤ 32 the shift loses nothing (00_scope.md R11). -/
def foldStep (k : Nat) (mask acc : Acc) (d : Digit) : Acc :=
  let t := acc ^^^ d.setWidth 33
  let u := t <<< 1
  let v := if u.getLsbD k then u ^^^ mask else u
  (v.setWidth k).setWidth 33

/-- The accumulator after the steps over a list of digits, from a given one (42_checksum.md R141). -/
def foldFrom (k : Nat) (mask acc : Acc) (ds : List Digit) : Acc := ds.foldl (foldStep k mask) acc

/-- `fold(D)`: the accumulator after the steps over D from the left, starting from 0 (42_checksum.md R141). -/
def fold (k : Nat) (mask : Acc) (ds : List Digit) : Acc := foldFrom k mask 0#33 ds

/-- `fold(D)` with the K and MASK of the engine. -/
def engineFold (s : State) (ds : List Digit) : Acc := fold s.k.toNat s.mask ds

/-- The symbol ALPHA[acc] that the accumulator indexes (42_checksum.md R145). -/
def symbolOfAcc (s : State) (acc : Acc) : Sym := s.alpha.read acc.toNat

/-- `RDIG <- acc; RSYM <- ALPHA[acc]` (10_state.md R40, R41). -/
def setResult (acc : Acc) (s : State) : State :=
  { s with rdig := acc.setWidth 32, rsym := symbolOfAcc s acc }

/-- CLRS: empties the sequence buffer (42_checksum.md R143). -/
def execClrs (s : State) : Result :=
  .next (respond 0#48 { s with slen := 0#17, sovf := false })

/-- LDS sym: appends one symbol to the sequence buffer, or sets SOVF; answers SLEN after the update
(42_checksum.md R144). -/
def execLds (sym : BitVec 32) (s : State) : Result :=
  if seqFull s then .next (respond (s.slen.setWidth 48) { s with sovf := true })
  else
    match writeSeq s s.slen.toNat sym with
    | .error f => .fault f
    | .ok t => .next (respond ((s.slen + 1#17).setWidth 48) { t with slen := s.slen + 1#17 })

/-- CSUM ic: folds the sequence of length M + ic and answers the check symbol (42_checksum.md R145). -/
def execCsum (ic : Bool) (s : State) : Result :=
  if s.ready then
    match digits s (s.m.toNat + ic.toNat) with
    | .error e => stopOutcome s e
    | .ok ds =>
      .next (respond ((symbolOfAcc s (engineFold s ds)).setWidth 48) (setResult (engineFold s ds) s))
  else .next (raise .notReady 0#48 s)

end Sys2Proof.Machine
end

