-- ==== Sys2Proof/Machine/Correct.lean ====
section
/-! DEFINITION. CORR, the single-error correction search engine (45_correct.md). -/

namespace Sys2Proof.Machine

/-- The phase-1 trial at `j`: the input with positions j and j + 1 exchanged (45_correct.md R176). -/
def swapTrial (ds : List Digit) (j : Nat) : List Digit :=
  (ds.set j (ds.getD (j + 1) 0#32)).set (j + 1) (ds.getD j 0#32)

/-- The phase-2 trial at `j` with digit `d`: the input with position j replaced (45_correct.md R177). -/
def substTrial (ds : List Digit) (j : Nat) (d : Digit) : List Digit := ds.set j d

/-- The record of a trial: its symbols, as they are stored in CAND (45_correct.md R179). -/
def recordOf (s : State) (trial : List Digit) : List Sym := trial.map (symbolOf s)

/-- `present(T)`: some candidate found so far equals the trial in every position (45_correct.md R178). -/
def present (s : State) (found : List (List Sym)) (trial : List Digit) : Bool :=
  found.contains (recordOf s trial)

/-- One trial: if it folds to zero and is not present it is appended (45_correct.md R175, R183). -/
def tryTrial (s : State) (trial : List Digit) (found : List (List Sym)) : List (List Sym) :=
  if engineFold s trial = 0#33 ∧ present s found trial = false then found ++ [recordOf s trial] else found

/-- One turn of phase 1: the pair (j, j + 1), if its digits differ (45_correct.md R176). -/
def transTurn (s : State) (ds : List Digit) (j : Nat) (found : List (List Sym)) : List (List Sym) :=
  if ds.getD j 0#32 ≠ ds.getD (j + 1) 0#32 then tryTrial s (swapTrial ds j) found else found

/-- Phase 1, `for j = 0 .. M − 1` (45_correct.md R176). -/
def transPhase (s : State) (ds : List Digit) (found : List (List Sym)) : List (List Sym) :=
  forUpTo s.m.toNat (transTurn s ds) found

/-- One turn of the inner loop of phase 2: digit `d` at position j, if it is not the one there (45_correct.md R177). -/
def substTurn (s : State) (ds : List Digit) (j d : Nat) (found : List (List Sym)) : List (List Sym) :=
  if BitVec.ofNat 32 d ≠ ds.getD j 0#32 then tryTrial s (substTrial ds j (BitVec.ofNat 32 d)) found else found

/-- The inner loop of phase 2, `for s = 0 .. 2^K − 1` at position j (45_correct.md R177). -/
def substPosition (s : State) (ds : List Digit) (j : Nat) (found : List (List Sym)) : List (List Sym) :=
  forUpTo (2 ^ s.k.toNat) (substTurn s ds j) found

/-- Phase 2, `for j = 0 .. M` (45_correct.md R177). -/
def substPhase (s : State) (ds : List Digit) (found : List (List Sym)) : List (List Sym) :=
  forUpTo (s.m.toNat + 1) (substPosition s ds) found

/-- The candidates in discovery order (45_correct.md R175, R180). -/
def candidates (s : State) (ds : List Digit) : List (List Sym) := substPhase s ds (transPhase s ds [])

/-- The end of a successful CORR: the records are in CAND, `NCAND <- n; CVALID <- 1; respond(n)` (45_correct.md R175,
R179). More candidates than CAND has records, in states that no run reaches, is a fault (notes/assumptions/8.md). -/
def storeCandidates (s : State) (found : List (List Sym)) : Result :=
  if candRecords s.params < found.length then .fault .candRange
  else
    .next (respond ((BitVec.ofNat 18 found.length).setWidth 48)
      { s with
        cand := writeRecords s.params s.cand 0 found
        ncand := BitVec.ofNat 18 found.length
        cvalid := true })

/-- CORR: the checks, then the two phases, then the result in CAND (45_correct.md R175). -/
def execCorr (s : State) : Result :=
  if s.ready then
    match digits s (s.m.toNat + 1) with
    | .error e => stopOutcome s e
    | .ok ds =>
      if engineFold s ds = 0#33 then .next (raise .alreadyValid 0#48 s)
      else storeCandidates s (candidates s ds)
  else .next (raise .notReady 0#48 s)

end Sys2Proof.Machine
end

