-- ==== Sys2Proof/Machine/Generate.lean ====
section
/-! DEFINITION. GEN, the generator wrapper (44_generate.md). -/

namespace Sys2Proof.Machine

/-- The payload digits of a GEN, from the first M words of the random source, in order (44_generate.md R166, R167). -/
def drawnDigits (s : State) : List Digit := (s.rand.take s.m.toNat).map (drawnDigit s.k.toNat)

/-- The checked sequence a GEN writes: the payload symbols and the check symbol (44_generate.md R165). -/
def generated (s : State) : List Sym :=
  (drawnDigits s).map (symbolOf s) ++ [symbolOfAcc s (engineFold s (drawnDigits s))]

/-- GEN: draws M words, writes the payload and its check symbol to SEQ and answers the check symbol
(44_generate.md R165). While fewer than M words are there it waits: the command is accepted, not answered, and nothing
else changes; the step after more words have come completes it (R166, 70_reset_and_hazards.md R279;
notes/assumptions/3.md). -/
def execGen (s : State) : Result :=
  if s.ready then
    if s.rand.length < s.m.toNat then .next { s with busy := true }
    else if seqSize s.params < s.m.toNat + 1 then .fault .seqRange
    else if alphaSize s.params < 2 ^ s.k.toNat then .fault .alphaRange
    else
      .next (respond ((symbolOfAcc s (engineFold s (drawnDigits s))).setWidth 48)
        { setResult (engineFold s (drawnDigits s)) s with
          seq := s.seq.writeList 0 (generated s)
          slen := BitVec.ofNat 17 (s.m.toNat + 1)
          sovf := false
          rand := s.rand.drop s.m.toNat
          busy := false })
  else .next (raise .notReady 0#48 s)

end Sys2Proof.Machine
end

