-- ==== Sys2Proof/Machine/Verify.lean ====
section
/-! DEFINITION. The verify oracle and the command VRFY (43_verify.md). -/

namespace Sys2Proof.Machine

/-- VRFY: folds the sequence of length M + 1, tests for zero, answers 1 or 0; a false result is no error
(43_verify.md R160, R161, 60_exceptions.md R256). -/
def execVrfy (s : State) : Result :=
  if s.ready then
    match digits s (s.m.toNat + 1) with
    | .error e => stopOutcome s e
    | .ok ds =>
      .next (respond (if zeroTest (engineFold s ds) then 1#48 else 0#48)
        { setResult (engineFold s ds) s with valid := zeroTest (engineFold s ds) })
  else .next (raise .notReady 0#48 s)

end Sys2Proof.Machine
end

