-- ==== Sys2Proof/Syntax.lean ====
section
/-! DEFINITION. The seventeen commands of 30_encoding.md R89, one constructor per row of spec/opcode_table.json, each
carrying the operands of its format at the width the format gives them (R81 to R88). -/

namespace Sys2Proof

/-- The commands of DSC (30_encoding.md R89, R92). -/
inductive Instr where
  /-- NOP, format N (46_access.md R200). -/
  | nop
  /-- CLRA, format N (41_construct.md R120). -/
  | clra
  /-- LDA sym, format S (41_construct.md R121). -/
  | lda (sym : BitVec 32)
  /-- INIT k, m, format C (41_construct.md R122). -/
  | init (k : BitVec 8) (m : BitVec 16)
  /-- FREE, format N (41_construct.md R125). -/
  | free
  /-- MKMASK k, format K (40_maskgen.md R114). -/
  | mkmask (k : BitVec 8)
  /-- CLRS, format N (42_checksum.md R143). -/
  | clrs
  /-- LDS sym, format S (42_checksum.md R144). -/
  | lds (sym : BitVec 32)
  /-- CSUM ic, format F: `ic` is the document's includesChecksum, 1 is true (42_checksum.md R145, 30_encoding.md R86). -/
  | csum (ic : Bool)
  /-- VRFY, format N (43_verify.md R160). -/
  | vrfy
  /-- GEN, format N (44_generate.md R165). -/
  | gen
  /-- CORR, format N (45_correct.md R175). -/
  | corr
  /-- RDR idx1, format X with idx2 reserved (46_access.md R201). -/
  | rdr (idx1 : BitVec 32)
  /-- RDA idx1, format X with idx2 reserved (46_access.md R202). -/
  | rda (idx1 : BitVec 32)
  /-- RDS idx1, format X with idx2 reserved (46_access.md R203). -/
  | rds (idx1 : BitVec 32)
  /-- RDC idx2, idx1, format X: candidate number, then position (46_access.md R204). -/
  | rdc (idx2 : BitVec 24) (idx1 : BitVec 32)
  /-- CLRE, format N (46_access.md R205). -/
  | clre
deriving DecidableEq, Repr

/-- The mnemonic of a command (30_encoding.md R89, R97). -/
def Instr.mnemonic : Instr → String
  | .nop => "NOP"
  | .clra => "CLRA"
  | .lda _ => "LDA"
  | .init _ _ => "INIT"
  | .free => "FREE"
  | .mkmask _ => "MKMASK"
  | .clrs => "CLRS"
  | .lds _ => "LDS"
  | .csum _ => "CSUM"
  | .vrfy => "VRFY"
  | .gen => "GEN"
  | .corr => "CORR"
  | .rdr _ => "RDR"
  | .rda _ => "RDA"
  | .rds _ => "RDS"
  | .rdc _ _ => "RDC"
  | .clre => "CLRE"

/-- The operands of a command as unsigned integers, in the order of the operands column of 30_encoding.md R89. -/
def Instr.operands : Instr → List Nat
  | .nop => []
  | .clra => []
  | .lda sym => [sym.toNat]
  | .init k m => [k.toNat, m.toNat]
  | .free => []
  | .mkmask k => [k.toNat]
  | .clrs => []
  | .lds sym => [sym.toNat]
  | .csum ic => [ic.toNat]
  | .vrfy => []
  | .gen => []
  | .corr => []
  | .rdr idx1 => [idx1.toNat]
  | .rda idx1 => [idx1.toNat]
  | .rds idx1 => [idx1.toNat]
  | .rdc idx2 idx1 => [idx2.toNat, idx1.toNat]
  | .clre => []

/-- The assembler line of a command, operands in decimal (30_encoding.md R97). -/
def Instr.asm (i : Instr) : String :=
  match i.operands with
  | [] => i.mnemonic
  | os => i.mnemonic ++ " " ++ String.intercalate ", " (os.map toString)

end Sys2Proof
end

