-- ==== Sys2Proof/Machine/Dispatch.lean ====
section
/-! DEFINITION. The one dispatch over the commands of 30_encoding.md R89: each arm is one call of its meaning. -/

namespace Sys2Proof.Machine

def exec (i : Instr) (s : State) : Host.Outcome State Fault Refusal :=
  match i with
  | .nop => Sys2Proof.Machine.execNop s
  | .clra => Sys2Proof.Machine.execClra s
  | .lda sym => Sys2Proof.Machine.execLda sym s
  | .init k m => Sys2Proof.Machine.execInit k m s
  | .free => Sys2Proof.Machine.execFree s
  | .mkmask k => Sys2Proof.Machine.execMkmask k s
  | .clrs => Sys2Proof.Machine.execClrs s
  | .lds sym => Sys2Proof.Machine.execLds sym s
  | .csum ic => Sys2Proof.Machine.execCsum ic s
  | .vrfy => Sys2Proof.Machine.execVrfy s
  | .gen => Sys2Proof.Machine.execGen s
  | .corr => Sys2Proof.Machine.execCorr s
  | .rdr idx1 => Sys2Proof.Machine.execRdr idx1 s
  | .rda idx1 => Sys2Proof.Machine.execRda idx1 s
  | .rds idx1 => Sys2Proof.Machine.execRds idx1 s
  | .rdc idx2 idx1 => Sys2Proof.Machine.execRdc idx2 idx1 s
  | .clre => Sys2Proof.Machine.execClre s

end Sys2Proof.Machine
end

