-- ==== Sys2Proof/Decode.lean ====
section
/-! DEFINITION. The decoder and the encoder of command words (30_encoding.md R80 to R92). The decoder looks at one word
and needs no state (R80); it is total, and a word that is no command is refused by one of the two names of R90. -/

namespace Sys2Proof

/-- The two ways in which a word is illegal (30_encoding.md R90). -/
inductive Illegal where
  /-- OP is not one of the seventeen opcodes. -/
  | unknownOpcode
  /-- OP is an opcode and a reserved bit of its format is 1. -/
  | reservedBit
deriving DecidableEq, Repr

/-- OP, bits 63 to 56 of every command word (30_encoding.md R81). -/
def opcodeField (w : Word64) : BitVec 8 := w.extractLsb' 56 8

/-- sym = cmd[31:0] (30_encoding.md R83). -/
def symField (w : Word64) : BitVec 32 := w.extractLsb' 0 32

/-- k = cmd[55:48] (30_encoding.md R84). -/
def kField (w : Word64) : BitVec 8 := w.extractLsb' 48 8

/-- m = cmd[15:0] (30_encoding.md R85). -/
def mField (w : Word64) : BitVec 16 := w.extractLsb' 0 16

/-- ic = cmd[0] (30_encoding.md R86). -/
def icField (w : Word64) : Bool := w.getLsbD 0

/-- idx1 = cmd[31:0] (30_encoding.md R87). -/
def idx1Field (w : Word64) : BitVec 32 := w.extractLsb' 0 32

/-- idx2 = cmd[55:32] (30_encoding.md R87). -/
def idx2Field (w : Word64) : BitVec 24 := w.extractLsb' 32 24

/-- The command `i` when the reserved field of `len` bits from bit `lo` is zero (30_encoding.md R81). -/
def ifReservedZero (w : Word64) (lo len : Nat) (i : Instr) : Except Illegal Instr :=
  if w.extractLsb' lo len = 0#len then .ok i else .error .reservedBit

/-- Format N: cmd[55:0] must be 0 (30_encoding.md R82). -/
def formatN (w : Word64) (i : Instr) : Except Illegal Instr := ifReservedZero w 0 56 i

/-- Formats S and X without idx2: cmd[55:32] must be 0 (30_encoding.md R83, R87). -/
def formatS (w : Word64) (i : Instr) : Except Illegal Instr := ifReservedZero w 32 24 i

/-- Format K: cmd[47:0] must be 0 (30_encoding.md R84). -/
def formatK (w : Word64) (i : Instr) : Except Illegal Instr := ifReservedZero w 0 48 i

/-- Format C: cmd[47:16] must be 0 (30_encoding.md R85). -/
def formatC (w : Word64) (i : Instr) : Except Illegal Instr := ifReservedZero w 16 32 i

/-- Format F: cmd[55:1] must be 0 (30_encoding.md R86). -/
def formatF (w : Word64) (i : Instr) : Except Illegal Instr := ifReservedZero w 1 55 i

/-- The decoder: the opcode map of 30_encoding.md R89, total on the 64-bit words (R92). -/
def decode (w : Word64) : Except Illegal Instr :=
  if opcodeField w = 0x00#8 then formatN w .nop
  else if opcodeField w = 0x01#8 then formatN w .clra
  else if opcodeField w = 0x02#8 then formatS w (.lda (symField w))
  else if opcodeField w = 0x03#8 then formatC w (.init (kField w) (mField w))
  else if opcodeField w = 0x04#8 then formatN w .free
  else if opcodeField w = 0x05#8 then formatK w (.mkmask (kField w))
  else if opcodeField w = 0x08#8 then formatN w .clrs
  else if opcodeField w = 0x09#8 then formatS w (.lds (symField w))
  else if opcodeField w = 0x0A#8 then formatF w (.csum (icField w))
  else if opcodeField w = 0x0B#8 then formatN w .vrfy
  else if opcodeField w = 0x0C#8 then formatN w .gen
  else if opcodeField w = 0x0D#8 then formatN w .corr
  else if opcodeField w = 0x10#8 then formatS w (.rdr (idx1Field w))
  else if opcodeField w = 0x11#8 then formatS w (.rda (idx1Field w))
  else if opcodeField w = 0x12#8 then formatS w (.rds (idx1Field w))
  else if opcodeField w = 0x13#8 then .ok (.rdc (idx2Field w) (idx1Field w))
  else if opcodeField w = 0x1F#8 then formatN w .clre
  else .error .unknownOpcode

/-- The encoder: OP in the top byte, the operands in their fields, zero elsewhere (30_encoding.md R81, R89). -/
def encode : Instr → Word64
  | .nop => 0x00#8 ++ 0#56
  | .clra => 0x01#8 ++ 0#56
  | .lda sym => 0x02#8 ++ (0#24 ++ sym)
  | .init k m => 0x03#8 ++ (k ++ (0#32 ++ m))
  | .free => 0x04#8 ++ 0#56
  | .mkmask k => 0x05#8 ++ (k ++ 0#48)
  | .clrs => 0x08#8 ++ 0#56
  | .lds sym => 0x09#8 ++ (0#24 ++ sym)
  | .csum ic => 0x0A#8 ++ (0#55 ++ BitVec.ofBool ic)
  | .vrfy => 0x0B#8 ++ 0#56
  | .gen => 0x0C#8 ++ 0#56
  | .corr => 0x0D#8 ++ 0#56
  | .rdr idx1 => 0x10#8 ++ (0#24 ++ idx1)
  | .rda idx1 => 0x11#8 ++ (0#24 ++ idx1)
  | .rds idx1 => 0x12#8 ++ (0#24 ++ idx1)
  | .rdc idx2 idx1 => 0x13#8 ++ (idx2 ++ idx1)
  | .clre => 0x1F#8 ++ 0#56

/-- One row of the opcode map: the mnemonic, the 64-bit mask and the 64-bit match (30_encoding.md R89). -/
structure OpcodeRow where
  mnemonic : String
  mask : Word64
  matchWord : Word64
deriving DecidableEq, Repr

/-- The opcode map of 30_encoding.md R89, row by row as the spec writes it. -/
def opcodeTable : List OpcodeRow :=
  [⟨"NOP", 0xFFFFFFFFFFFFFFFF#64, 0x0000000000000000#64⟩,
   ⟨"CLRA", 0xFFFFFFFFFFFFFFFF#64, 0x0100000000000000#64⟩,
   ⟨"LDA", 0xFFFFFFFF00000000#64, 0x0200000000000000#64⟩,
   ⟨"INIT", 0xFF00FFFFFFFF0000#64, 0x0300000000000000#64⟩,
   ⟨"FREE", 0xFFFFFFFFFFFFFFFF#64, 0x0400000000000000#64⟩,
   ⟨"MKMASK", 0xFF00FFFFFFFFFFFF#64, 0x0500000000000000#64⟩,
   ⟨"CLRS", 0xFFFFFFFFFFFFFFFF#64, 0x0800000000000000#64⟩,
   ⟨"LDS", 0xFFFFFFFF00000000#64, 0x0900000000000000#64⟩,
   ⟨"CSUM", 0xFFFFFFFFFFFFFFFE#64, 0x0A00000000000000#64⟩,
   ⟨"VRFY", 0xFFFFFFFFFFFFFFFF#64, 0x0B00000000000000#64⟩,
   ⟨"GEN", 0xFFFFFFFFFFFFFFFF#64, 0x0C00000000000000#64⟩,
   ⟨"CORR", 0xFFFFFFFFFFFFFFFF#64, 0x0D00000000000000#64⟩,
   ⟨"RDR", 0xFFFFFFFF00000000#64, 0x1000000000000000#64⟩,
   ⟨"RDA", 0xFFFFFFFF00000000#64, 0x1100000000000000#64⟩,
   ⟨"RDS", 0xFFFFFFFF00000000#64, 0x1200000000000000#64⟩,
   ⟨"RDC", 0xFF00000000000000#64, 0x1300000000000000#64⟩,
   ⟨"CLRE", 0xFFFFFFFFFFFFFFFF#64, 0x1F00000000000000#64⟩]

/-- A word is the command of a row when `w AND mask = match` (30_encoding.md R89). -/
def OpcodeRow.accepts (r : OpcodeRow) (w : Word64) : Bool := w &&& r.mask == r.matchWord

/-- The command word of the `nbits`-bit number `w` of spec/opcode_table.json: every bit above `nbits` is 0. A command word
is one 64-bit quantity and has no byte order (20_memory.md R62, notes/assumptions/11.md). -/
def tableWord (nbits w : Nat) : Word64 := BitVec.ofNat 64 (w % 2 ^ nbits)

/-- The command the decoder reads from a word of spec/opcode_table.json, none where it refuses. -/
def decodeTableWord (nbits w : Nat) : Option Instr :=
  match decode (tableWord nbits w) with
  | .ok i => some i
  | .error _ => none

end Sys2Proof
end

