-- ==== Sys2Proof/Machine/Fetch.lean ====
section
/-! DEFINITION. What the sequencer does next: it takes the host's next input from the port (00_scope.md R5, 20_memory.md
R68, 30_encoding.md R100, 70_reset_and_hazards.md R270 to R272; notes/assumptions/1.md). DSC fetches no instruction from
any memory (20_memory.md R71). -/

namespace Sys2Proof.Machine

/-- What the sequencer does next, with the state once the input is taken from the port. -/
inductive Activity where
  /-- No input is there and no command is in progress: nothing changes (20_memory.md R65). -/
  | idle
  /-- A GEN waits for random words: no command is accepted (44_generate.md R166). -/
  | waiting
  /-- A command word is accepted (20_memory.md R68). -/
  | accept (w : Word64) (t : State)
  /-- Reset: `t` is the state after it (70_reset_and_hazards.md R270, R272). -/
  | toReset (t : State)
deriving DecidableEq, Repr

/-- Whether a reset during the command word `w` abandons a GEN that has begun to draw (44_generate.md R165: NotReady is
raised before any word is drawn). -/
def drawsWords (w : Word64) (s : State) : Bool :=
  match decode w with
  | .ok .gen => s.ready
  | _ => false

/-- The random words still to come after a reset during the command word `w` (70_reset_and_hazards.md R272;
notes/assumptions/10.md). While a GEN waits, `w` is not accepted and the reset meets the waiting GEN. -/
def randAfterResetDuring (w : Word64) (drawn : Nat) (s : State) : List (BitVec 32) :=
  if s.busy then randAfterReset s
  else if drawsWords w s then randAfterAbandonedGen s drawn
  else s.rand

/-- The host's next input, taken from the port (notes/assumptions/1.md). -/
def nextActivity (s : State) : Activity :=
  match s.host with
  | [] => if s.busy then .waiting else .idle
  | .command w :: rest => if s.busy then .waiting else .accept w { s with host := rest }
  | .reset :: rest => .toReset (hardReset { s with host := rest } (randAfterReset s))
  | .resetDuring w drawn :: rest =>
    .toReset (hardReset { s with host := rest } (randAfterResetDuring w drawn s))

/-- A word that is no command: IllegalCommand, information value 0, no other effect (30_encoding.md R90, 60_exceptions.md
R248). -/
def illegalWord (s : State) : State := raise .illegalCommand 0#48 s

/-- The state in which the host presents the command word `w` next and the sequencer is free to accept it. -/
def presentWord (w : Word64) (s : State) : State :=
  { s with busy := false, host := .command w :: s.host }

end Sys2Proof.Machine
end

