-- ==== Sys2Proof/Machine/Step.lean ====
section
/-! DEFINITION. One step of DSC: one input of the host, one command executed to completion (00_scope.md R13, 20_memory.md
R68). -/

namespace Sys2Proof.Machine

/-- One step: the next command word is decoded and executed, or answered IllegalCommand; a waiting GEN goes on; a reset
takes effect; with no input nothing changes. -/
def step (s : State) : Host.Outcome State Fault Refusal :=
  match nextActivity s with
  | .idle => .next s
  | .waiting => exec .gen s
  | .accept w t =>
    match decode w with
    | .ok i => exec i t
    | .error _ => .next (illegalWord t)
  | .toReset t => .next t

/-- `s` with the command of an `nbits`-bit number `w` of spec/opcode_table.json presented next, so that the very next step
runs it (notes/assumptions/1.md). -/
def State.withFetchWord (s : State) (nbits w : Nat) : State := presentWord (tableWord nbits w) s

end Sys2Proof.Machine
end

