-- ==== Sys2Proof/Machine/Micro.lean ====
section
/-! DEFINITION. The small-step forms of the two datapaths, over the hidden working registers of 10_state.md R46 to R48:
FOLD one symbol at a time (42_checksum.md R146) and CORR one trial at a time (45_correct.md R181). The commands of
Machine/Fold.lean and Machine/Correct.lean run to completion in one step; a statement says that these machines reach the
same end (00_scope.md R13; notes/assumptions/9.md). A reset may come between any two of their steps
(70_reset_and_hazards.md R272). -/

namespace Sys2Proof.Machine

/-! ### Reset between two small steps -/

/-- What comes next in a small-step form: its next step, or a reset (70_reset_and_hazards.md R272). -/
inductive MicroInput where
  | go
  | reset
deriving DecidableEq, Repr

/-- The target of a reset that meets a fold or a CORR, always the one reset state (70_reset_and_hazards.md R272). Neither
takes random words, so all that were to come still are. -/
def microReset (s : State) : State := hardReset s s.rand

/-! ### FOLD -/

/-- ACC and P (10_state.md R46). P counts to M + 1 < 2^17 (47_laws.md R230). -/
structure FoldRegs where
  acc : Acc
  p : Nat
deriving DecidableEq, Repr

/-- Where a fold stands (42_checksum.md R146). -/
inductive FoldStatus where
  /-- Between two micro-steps. -/
  | running (r : FoldRegs)
  /-- P = n: the result digit and the result symbol. -/
  | done (acc : Acc) (x : Sym)
  /-- A miss at position `p`: UnknownSymbol(p). -/
  | unknown (p : Nat)
  /-- A reset came: no response, the reset state `t` (70_reset_and_hazards.md R272). -/
  | abandoned (t : State)
deriving DecidableEq, Repr

/-- The start of a fold: ACC <- 0, P <- 0 (10_state.md R46). -/
def foldStart : FoldRegs := { acc := 0#33, p := 0 }

/-- One micro-step of a fold over SEQ[0 .. n − 1] (42_checksum.md R146). -/
def foldMicro (s : State) (n : Nat) (r : FoldRegs) : FoldStatus :=
  if r.p < n then
    match index s (s.seq.read r.p) with
    | none => .unknown r.p
    | some d => .running { acc := foldStep s.k.toNat s.mask r.acc d, p := r.p + 1 }
  else .done r.acc (symbolOfAcc s r.acc)

/-- What one input does to a fold. -/
def foldInput (s : State) (n : Nat) (r : FoldRegs) : MicroInput → FoldStatus
  | .go => foldMicro s n r
  | .reset => .abandoned (microReset s)

/-- A fold that meets the inputs of the list, as far as it needs them. -/
def runFoldInputs (s : State) (n : Nat) : List MicroInput → FoldRegs → FoldStatus
  | [], r => .running r
  | x :: xs, r =>
    match foldInput s n r x with
    | .running r' => runFoldInputs s n xs r'
    | .done acc d => .done acc d
    | .unknown p => .unknown p
    | .abandoned t => .abandoned t

/-- At most `fuel` micro-steps of a fold, with no reset. -/
def runFold (s : State) (n fuel : Nat) (r : FoldRegs) : FoldStatus := runFoldInputs s n (List.replicate fuel .go) r

/-! ### CORR -/

/-- PHASE (10_state.md R48). -/
inductive Phase where
  | idle
  | check
  | trans
  | subst
  | done
deriving DecidableEq, Repr

/-- The iterator, the buffers and the working candidates of CORR (10_state.md R47, R48, 45_correct.md R181). J counts to
M + 1 and S to 2^K (47_laws.md R230). `found` is what stands in CAND[0 .. n − 1] so far, n its length; `folds` counts the
folds made (45_correct.md R184) and nothing reads it. -/
structure CorrRegs where
  phase : Phase
  j : Nat
  sub : Nat
  dbuf : List Digit
  trial : List Digit
  found : List (List Sym)
  folds : Nat
deriving DecidableEq, Repr

/-- The iterator outside a CORR: PHASE = IDLE. J, S, DBUF, TRIAL and the working candidates are dead there and hold
whatever `dead` says, any values at all (10_state.md R47, R48, R51, 93_implementation_defined.md U8): the model chooses none
(notes/assumptions/9.md). -/
def corrIdle (dead : CorrRegs) : CorrRegs := { dead with phase := .idle }

/-- The acceptance of a CORR, IDLE to CHECK: the dead values stay what they are, and the count of folds begins
(45_correct.md R181, R184). -/
def corrAccept (dead : CorrRegs) : CorrRegs := { dead with phase := .check, folds := 0 }

/-- Where a CORR stands. -/
inductive CorrStatus where
  /-- Between two small steps. -/
  | running (r : CorrRegs)
  /-- Back at IDLE with the outcome of the command, and the number of folds made. -/
  | ended (o : Result) (folds : Nat)
  /-- Back at IDLE by a reset: no response, the reset state `t` (70_reset_and_hazards.md R272). -/
  | abandoned (t : State)

/-- A trial in a small step: it is put in TRIAL, folded, and appended if it verifies and is not present
(45_correct.md R181). -/
def corrTrial (s : State) (trial : List Digit) (r : CorrRegs) : CorrRegs :=
  { r with trial := trial, found := tryTrial s trial r.found, folds := r.folds + 1 }

/-- The small step at CHECK (45_correct.md R181). -/
def corrCheck (s : State) (r : CorrRegs) : CorrStatus :=
  if s.ready then
    match digits s (s.m.toNat + 1) with
    | .error e => .ended (stopOutcome s e) r.folds
    | .ok ds =>
      if engineFold s ds = 0#33 then .ended (.next (raise .alreadyValid 0#48 s)) (r.folds + 1)
      else .running { r with phase := .trans, j := 0, dbuf := ds, found := [], folds := r.folds + 1 }
  else .ended (.next (raise .notReady 0#48 s)) r.folds

/-- The small step at TRANS (45_correct.md R181). -/
def corrTrans (s : State) (r : CorrRegs) : CorrRegs :=
  if r.j = s.m.toNat then { r with phase := .subst, j := 0, sub := 0 }
  else if r.dbuf.getD r.j 0#32 ≠ r.dbuf.getD (r.j + 1) 0#32 then
    { corrTrial s (swapTrial r.dbuf r.j) r with j := r.j + 1 }
  else { r with j := r.j + 1 }

/-- The small step at SUBST (45_correct.md R181). -/
def corrSubst (s : State) (r : CorrRegs) : CorrRegs :=
  if r.j = s.m.toNat + 1 then { r with phase := .done }
  else if r.sub = 2 ^ s.k.toNat then { r with j := r.j + 1, sub := 0 }
  else if BitVec.ofNat 32 r.sub ≠ r.dbuf.getD r.j 0#32 then
    { corrTrial s (substTrial r.dbuf r.j (BitVec.ofNat 32 r.sub)) r with sub := r.sub + 1 }
  else { r with sub := r.sub + 1 }

/-- One small step of CORR, at most one fold (45_correct.md R181). -/
def corrMicro (s : State) (r : CorrRegs) : CorrStatus :=
  match r.phase with
  | .idle => .running (corrAccept r)
  | .check => corrCheck s r
  | .trans => .running (corrTrans s r)
  | .subst => .running (corrSubst s r)
  | .done => .ended (storeCandidates s r.found) r.folds

/-- What one input does to a CORR. -/
def corrInput (s : State) (r : CorrRegs) : MicroInput → CorrStatus
  | .go => corrMicro s r
  | .reset => .abandoned (microReset s)

/-- A CORR that meets the inputs of the list, as far as it needs them. -/
def runCorrInputs (s : State) : List MicroInput → CorrRegs → CorrStatus
  | [], r => .running r
  | x :: xs, r =>
    match corrInput s r x with
    | .running r' => runCorrInputs s xs r'
    | .ended o n => .ended o n
    | .abandoned t => .abandoned t

/-- At most `fuel` small steps of CORR, with no reset. -/
def runCorr (s : State) (fuel : Nat) (r : CorrRegs) : CorrStatus := runCorrInputs s (List.replicate fuel .go) r

/-- T of 45_correct.md R184: the number of j in 0 .. M − 1 with DBUF[j] ≠ DBUF[j + 1]. -/
def unequalPairs (ds : List Digit) (m : Nat) : Nat :=
  ((List.range m).filter fun j => decide (ds.getD j 0#32 ≠ ds.getD (j + 1) 0#32)).length

/-- The bound of 45_correct.md R187 on the small steps from CHECK to IDLE. -/
def corrStepBound (s : State) : Nat :=
  1 + (s.m.toNat + 1) + (s.m.toNat + 2) * (2 ^ s.k.toNat + 1) + 1

end Sys2Proof.Machine
end

