-- ==== Sys2Proof/Machine/Pseudo.lean ====
section
/-! DEFINITION. The eight pseudo-instructions of 30_encoding.md R98: fixed expansions into commands, which the host
issues one by one and stops at the first error (notes/assumptions/15.md). They are no words of the machine. -/

namespace Sys2Proof.Machine

/-- The pseudo-instructions (30_encoding.md R98). -/
inductive Pseudo where
  | loadAlpha (xs : List Sym)
  | construct (k : BitVec 8) (m : BitVec 16) (xs : List Sym)
  | loadSeq (xs : List Sym)
  | checksum (xs : List Sym) (ic : Bool)
  | verify (xs : List Sym)
  | generate
  | correct (xs : List Sym)
  | buildMask (k : BitVec 8)
deriving DecidableEq, Repr

/-- LOADALPHA: CLRA, then one LDA per symbol (30_encoding.md R98). -/
def loadAlphaCommands (xs : List Sym) : List Instr := .clra :: xs.map .lda

/-- LOADSEQ: CLRS, then one LDS per symbol (30_encoding.md R98). -/
def loadSeqCommands (xs : List Sym) : List Instr := .clrs :: xs.map .lds

/-- The commands of an expansion up to and with its operation command (30_encoding.md R98). -/
def expand : Pseudo → List Instr
  | .loadAlpha xs => loadAlphaCommands xs
  | .construct k m xs => .free :: (loadAlphaCommands xs ++ [.init k m])
  | .loadSeq xs => loadSeqCommands xs
  | .checksum xs ic => loadSeqCommands xs ++ [.csum ic]
  | .verify xs => loadSeqCommands xs ++ [.vrfy]
  | .generate => [.gen]
  | .correct xs => loadSeqCommands xs ++ [.corr]
  | .buildMask k => [.mkmask k]

/-- `for p = 0 .. M: RDS p` (30_encoding.md R98). -/
def readSeqCommands (s : State) : List Instr :=
  (List.range (s.m.toNat + 1)).map fun p => .rds (BitVec.ofNat 32 p)

/-- `for c = 0 .. NCAND − 1, for p = 0 .. M: RDC c, p` (30_encoding.md R98). -/
def readCandCommands (s : State) : List Instr :=
  (List.range s.ncand.toNat).flatMap fun c =>
    (List.range (s.m.toNat + 1)).map fun p => .rdc (BitVec.ofNat 24 c) (BitVec.ofNat 32 p)

/-- The trailing reads of an expansion, from the state after its operation command (30_encoding.md R98). -/
def readBack : Pseudo → State → List Instr
  | .generate, s => readSeqCommands s
  | .correct _, s => readCandCommands s
  | .loadAlpha _, _ => []
  | .construct _ _ _, _ => []
  | .loadSeq _, _ => []
  | .checksum _ _, _ => []
  | .verify _, _ => []
  | .buildMask _, _ => []

/-- The status field of the last response, 0 when there is none (30_encoding.md R93). -/
def lastStatus (s : State) : BitVec 8 :=
  match s.responses.getLast? with
  | some w => w.extractLsb' 56 8
  | none => 0#8

/-- The commands in order; the host stops at the first error, and at a GEN that waits (30_encoding.md R98). -/
def runCommands : List Instr → State → Result
  | [], s => .next s
  | i :: is, s =>
    match exec i s with
    | .next t => if t.busy || lastStatus t != 0#8 then .next t else runCommands is t
    | .fault f => .fault f
    | .refused r => .refused r

/-- A pseudo-instruction: the expansion, and, unless it stopped, the trailing reads (30_encoding.md R98). -/
def runPseudo (p : Pseudo) (s : State) : Result :=
  match runCommands (expand p) s with
  | .next t => if t.busy || lastStatus t != 0#8 then .next t else runCommands (readBack p t) t
  | .fault f => .fault f
  | .refused r => .refused r

end Sys2Proof.Machine
end

