-- ==== Sys2Proof/WellFormed.lean ====
section
/-! DEFINITION. What is well formed before any command runs: the parameters of an instance (00_scope.md R6 to R8,
40_maskgen.md R110, R116), one named check per constraint, and an instruction. -/

namespace Sys2Proof

/-- KMAX is an integer with 2 ≤ KMAX ≤ 32 (00_scope.md R7). -/
def Params.kmaxOk (p : Params) : Bool := decide (2 ≤ p.kmax) && decide (p.kmax ≤ 32)

/-- MMAX is an integer with 1 ≤ MMAX ≤ 65535 (00_scope.md R8). -/
def Params.mmaxOk (p : Params) : Bool := decide (1 ≤ p.mmax) && decide (p.mmax ≤ 65535)

/-- The domain of POLY_TABLE is exactly the integers 2 to 32 (40_maskgen.md R110 a). The rows stand in ascending order,
each once, so that equal tables are equal data. -/
def PolyTable.domainOk (t : PolyTable) : Bool := t.map Prod.fst == (List.range 31).map (· + 2)

/-- The leading exponent k is itself listed and is the largest listed (40_maskgen.md R110 b). -/
def PolyTable.leadingOk (t : PolyTable) : Bool := t.all fun row => row.2.contains row.1 && row.2.all (· ≤ row.1)

/-- The exponent 0 is not listed: the constant term is the +1 of the mask function (40_maskgen.md R110 c). -/
def PolyTable.noConstantOk (t : PolyTable) : Bool := t.all fun row => row.2.all (1 ≤ ·)

/-- The exponents an entry lists are distinct (40_maskgen.md R110 d). -/
def PolyTable.distinctOk (t : PolyTable) : Bool := t.all fun row => decide row.2.Nodup

/-- The one entry the document gives: POLY_TABLE[2] = (2, 1) (40_maskgen.md R116). -/
def PolyTable.rowTwoOk (t : PolyTable) : Bool := t.lookup 2 == some [2, 1]

/-- The constraints of 40_maskgen.md R110 that a check can decide, (a) to (d), and R116. Constraint (e), irreducibility,
is not checked by DSC (R110); statements that need it take it as a hypothesis (notes/assumptions/12.md). -/
def PolyTable.wf (t : PolyTable) : Bool :=
  t.domainOk && t.leadingOk && t.noConstantOk && t.distinctOk && t.rowTwoOk

/-- The parameters of an instance are in their ranges (00_scope.md section 5). -/
def Params.wf (p : Params) : Bool := p.kmaxOk && p.mmaxOk && p.polyTable.wf

/-- An instruction is well formed when its operands fit its format. The constructors carry each operand at the width of
its field, and every value of every field is a legal encoding (30_encoding.md R83 sym, R84 and R85 k and m, R86 ic, R87
idx1 and idx2), so the types already say all there is to check. -/
def Instr.wf : Instr → Bool
  | .nop => true
  | .clra => true
  | .lda sym => decide (sym.toNat < 2 ^ 32)
  | .init k m => decide (k.toNat < 2 ^ 8) && decide (m.toNat < 2 ^ 16)
  | .free => true
  | .mkmask k => decide (k.toNat < 2 ^ 8)
  | .clrs => true
  | .lds sym => decide (sym.toNat < 2 ^ 32)
  | .csum ic => decide (ic.toNat < 2)
  | .vrfy => true
  | .gen => true
  | .corr => true
  | .rdr idx1 => decide (idx1.toNat < 2 ^ 32)
  | .rda idx1 => decide (idx1.toNat < 2 ^ 32)
  | .rds idx1 => decide (idx1.toNat < 2 ^ 32)
  | .rdc idx2 idx1 => decide (idx2.toNat < 2 ^ 24) && decide (idx1.toNat < 2 ^ 32)
  | .clre => true

end Sys2Proof
end

