-- ==== Sys2Proof/Safety.lean ====
section
/-! DEFINITION. The terms in which claims are made: the invariant of every reachable state (10_state.md R50), what two
states agree on when no command sequence can tell them apart (R20, R42 to R44), a symbol sequence that verifies
(43_verify.md R161), and what a law needs of the mask (40_maskgen.md R112, 47_laws.md). -/

namespace Sys2Proof.Machine

/-! ### Masks -/

/-- Bit k set, bit 0 set, bits above k clear (40_maskgen.md R112 a, b, c). -/
def MaskShape (k : Nat) (mask : Acc) : Prop :=
  mask.getLsbD k = true ∧ mask.getLsbD 0 = true ∧ ∀ i < 33, k < i → mask.getLsbD i = false

/-- popcount: the number of set bits (00_scope.md R11). -/
def popcount (v : Acc) : Nat := ((List.range 33).filter fun i => v.getLsbD i).length

/-- The mask has an odd number of set bits (40_maskgen.md R112 d). -/
def OddWeight (mask : Acc) : Prop := popcount mask % 2 = 1

/-- `p` is the polynomial over GF(2) whose coefficient of x^i is bit i of `v` (00_scope.md R11, 47_laws.md R216). -/
def IsPolyOf (v : Acc) (p : Polynomial (ZMod 2)) : Prop :=
  ∀ i, p.coeff i = if v.getLsbD i then 1 else 0

/-- The mask is that of an irreducible polynomial over GF(2) (40_maskgen.md R110 e). -/
def IrreducibleMask (mask : Acc) : Prop := ∃ p, IsPolyOf mask p ∧ Irreducible p

/-- Multiplication by x modulo the mask, the step with digit 0 (47_laws.md R216). -/
def timesX (k : Nat) (mask v : Acc) : Acc := foldStep k mask v 0#32

/-- Multiplication by x^n modulo the mask. -/
def timesXPow (k : Nat) (mask : Acc) : Nat → Acc → Acc
  | 0, v => v
  | n + 1, v => timesX k mask (timesXPow k mask n v)

/-! ### Sequences -/

/-- Every digit of a list is one of 0 .. 2^k − 1. -/
def AreDigits (k : Nat) (ds : List Digit) : Prop := ∀ d ∈ ds, d.toNat < 2 ^ k

/-- `ds` are the digits of the symbols `xs` in the alphabet of the engine. -/
def Spells (s : State) (ds : List Digit) (xs : List Sym) : Prop :=
  AreDigits s.k.toNat ds ∧ ds.map (symbolOf s) = xs

/-- The symbols are all in the alphabet and their digits fold to zero (43_verify.md R161). -/
def verifies (s : State) (xs : List Sym) : Bool :=
  match lookupFrom s 0 xs with
  | .ok ds => zeroTest (engineFold s ds)
  | .error _ => false

/-- Record `c` of the candidate store, entries 0 .. M (10_state.md R44). -/
def candRecord (s : State) (c : Nat) : List Sym :=
  (List.range (s.m.toNat + 1)).map fun p => candEntry s c p

/-- The responses of reads that answer these symbols, one each (30_encoding.md R93, R94). -/
def symbolResponses (xs : List Sym) : List Word64 := xs.map fun x => responseWord 0#8 (x.setWidth 48)

/-- The responses of loading `n` symbols into an empty memory of `size` entries: 0 for the clearing command, then the length
after each load (41_construct.md R120, R121, 42_checksum.md R143, R144). -/
def loadResponses (n size : Nat) : List Word64 :=
  responseWord 0#8 0#48 :: (List.range n).map fun i => responseWord 0#8 (BitVec.ofNat 48 (min (i + 1) size))

/-- The buffer holds a checked sequence over the alphabet, with these digits: SOVF = 0, SLEN = M + 1. -/
def HoldsChecked (s : State) (ds : List Digit) : Prop :=
  s.ready = true ∧ s.sovf = false ∧ s.slen.toNat = s.m.toNat + 1 ∧ Spells s ds (seqSymbols s (s.m.toNat + 1))

/-! ### The invariant -/

/-- What holds in every reachable state: 10_state.md R50 (a) to (g), with the well-formed parameters, the canonical form
of the memories and their extent, and a waiting GEN only while an engine exists. R50 (f) is stated without the history:
RDIG and RSYM are both zero, or RSYM is ALPHA[RDIG] (notes/assumptions/14.md). -/
structure State.Inv (s : State) : Prop where
  paramsWf : s.params.wf = true
  alphaForm : s.alpha.wf = true ∧ s.alpha.below (alphaSize s.params) = true
  seqForm : s.seq.wf = true ∧ s.seq.below (seqSize s.params) = true
  candForm : s.cand.wf = true ∧ s.cand.below (candRecords s.params * seqSize s.params) = true
  /-- R50 (a). -/
  noEngine : s.ready = false →
    s.k = 0#6 ∧ s.m = 0#16 ∧ s.mask = 0#33 ∧ s.valid = false ∧ s.cvalid = false ∧ s.ncand = 0#18 ∧
      s.rdig = 0#32 ∧ s.rsym = 0#32
  /-- R50 (b), the registers: supported(K) and MASK = mask(K), 1 ≤ M ≤ MMAX, ALEN = 2^K, AOVF = 0. -/
  engine : s.ready = true →
    buildMask s.params s.k.toNat = some s.mask ∧ 1 ≤ s.m.toNat ∧ s.m.toNat ≤ s.params.mmax ∧
      s.alen.toNat = 2 ^ s.k.toNat ∧ s.aovf = false
  /-- R50 (b), the alphabet: pairwise distinct. -/
  distinct : s.ready = true → ∀ i < 2 ^ s.k.toNat, ∀ j < i, s.alpha.read j ≠ s.alpha.read i
  /-- R50 (c). -/
  lengths : s.alen.toNat ≤ alphaSize s.params ∧ s.slen.toNat ≤ seqSize s.params
  /-- R50 (d). -/
  noCandidates : s.cvalid = false → s.ncand = 0#18
  /-- R50 (e), the counts. -/
  candidateCount : s.cvalid = true →
    s.ready = true ∧ s.m.toNat + 1 ≤ s.ncand.toNat ∧ s.ncand.toNat ≤ 2 * s.m.toNat + 1
  /-- R50 (e), the records: alphabet symbols with syndrome 0. -/
  candidatesVerify : s.cvalid = true → ∀ c < s.ncand.toNat, verifies s (candRecord s c) = true
  /-- R50 (e), the records are pairwise distinct. -/
  candidatesDistinct : s.cvalid = true → ∀ c < s.ncand.toNat, ∀ d < c, candRecord s d ≠ candRecord s c
  /-- R50 (f). -/
  result : s.ready = true → s.rdig.toNat < 2 ^ s.k.toNat ∧
    ((s.rdig = 0#32 ∧ s.rsym = 0#32) ∨ s.rsym = symbolOf s s.rdig)
  /-- R50 (g). -/
  errors : s.lasterr.toNat ≤ 10 ∧ (s.lasterr = 0#8 → s.errinfo = 0#48) ∧ s.esticky.getLsbD 0 = false ∧
    (∀ i < 16, 10 < i → s.esticky.getLsbD i = false) ∧
      (s.lasterr ≠ 0#8 → s.esticky.getLsbD s.lasterr.toNat = true)
  /-- Only an engine's GEN waits (44_generate.md R165, R166). -/
  waiting : s.busy = true → s.ready = true

/-! ### What no command sequence can tell apart -/

/-- Two states agree on the parameters, every flag and register, the inputs and outputs, and every entry that some command
can read: ALPHA below ALEN, SEQ below SLEN, CAND in records below NCAND at entries up to M (10_state.md R20, R42, R43,
R44). -/
structure State.Agree (s t : State) : Prop where
  params : s.params = t.params
  flags : s.ready = t.ready ∧ s.aovf = t.aovf ∧ s.sovf = t.sovf ∧ s.valid = t.valid ∧ s.cvalid = t.cvalid
  engine : s.k = t.k ∧ s.m = t.m ∧ s.mask = t.mask
  lengths : s.alen = t.alen ∧ s.slen = t.slen ∧ s.ncand = t.ncand
  errors : s.lasterr = t.lasterr ∧ s.esticky = t.esticky ∧ s.errinfo = t.errinfo
  result : s.rdig = t.rdig ∧ s.rsym = t.rsym
  ports : s.busy = t.busy ∧ s.host = t.host ∧ s.rand = t.rand ∧ s.responses = t.responses
  alpha : ∀ i < s.alen.toNat, s.alpha.read i = t.alpha.read i
  seq : ∀ i < s.slen.toNat, s.seq.read i = t.seq.read i
  cand : s.cvalid = true → ∀ c < s.ncand.toNat, ∀ p ≤ s.m.toNat, candEntry s c p = candEntry t c p

/-! ### Runs -/

/-- The state `t` is `s` but for the three error registers and the response (60_exceptions.md R254). -/
def OnlyErrorsChanged (s t : State) : Prop :=
  t = { s with lasterr := t.lasterr, esticky := t.esticky, errinfo := t.errinfo, responses := t.responses }

/-- The commands of the list one after another, each of which answers a next state; what the last one leaves. -/
def runOk : List Instr → State → Option State
  | [], s => some s
  | i :: is, s =>
    match exec i s with
    | .next t => runOk is t
    | .fault _ => none
    | .refused _ => none

end Sys2Proof.Machine
end

