-- ==== Sys2Proof/Certificates/Slice0/Obligations.lean ====
section
/-! DEFINITION. The statements for the provers, made from the numbered rules of spec/. Equations of the form
`exec i s = .next …` give the whole next state, so that they say what the command leaves unchanged as well. -/

open Sys2Proof Sys2Proof.Machine

/-! ### Encoding -/

/-- 30_encoding.md R92, an inference the spec marks as its own: "Encoding then decoding is the identity on commands, and
decoding then encoding is the identity on legal words". -/
def Obligations.DecodeAndEncodeAgree : Prop :=
  (∀ i : Instr, i.wf = true → decode (encode i) = .ok i) ∧
  (∀ (w : Word64) (i : Instr), decode w = .ok i → encode i = w)

/-- 30_encoding.md R89: a word is a command exactly when it matches a row of the opcode map, the row is the command's, and
no word matches two rows. -/
def Obligations.OpcodeMapDecidesEveryWord : Prop :=
  (∀ w : Word64, (∃ i, decode w = .ok i) ↔ ∃ r ∈ opcodeTable, w &&& r.mask = r.matchWord) ∧
  (∀ (w : Word64) (i : Instr), decode w = .ok i →
    ∀ r ∈ opcodeTable, w &&& r.mask = r.matchWord ↔ r.mnemonic = i.mnemonic) ∧
  (∀ (w : Word64), ∀ r ∈ opcodeTable, ∀ r' ∈ opcodeTable,
    w &&& r.mask = r.matchWord → w &&& r'.mask = r'.matchWord → r = r')

/-- 30_encoding.md R90: the two ways of being illegal, and what an illegal word does in every state in which the sequencer
accepts a command. -/
def Obligations.IllegalWordsRaiseIllegalCommand : Prop :=
  (∀ w : Word64, decode w = .error .unknownOpcode ↔
    (w.extractLsb' 56 8).toNat ∉
      [0x00, 0x01, 0x02, 0x03, 0x04, 0x05, 0x08, 0x09, 0x0A, 0x0B, 0x0C, 0x0D, 0x10, 0x11, 0x12, 0x13, 0x1F]) ∧
  (∀ w : Word64, decode w = .error .reservedBit ↔
    (w.extractLsb' 56 8).toNat ∈
      [0x00, 0x01, 0x02, 0x03, 0x04, 0x05, 0x08, 0x09, 0x0A, 0x0B, 0x0C, 0x0D, 0x10, 0x11, 0x12, 0x13, 0x1F] ∧
    ∀ r ∈ opcodeTable, w &&& r.mask ≠ r.matchWord) ∧
  (∀ (w : Word64) (e : Illegal) (s : State) (rest : List HostInput), decode w = .error e → s.busy = false →
    s.host = .command w :: rest → step s = .next (raise .illegalCommand 0#48 { s with host := rest }))

/-- Words written out from the formats of 30_encoding.md R81 and the opcodes of R89. -/
def Obligations.SpecWordsDecodeAsWritten : Prop :=
  decode 0x0000000000000000#64 = .ok .nop ∧
  decode 0x02000000FFFFFFFF#64 = .ok (.lda 0xFFFFFFFF#32) ∧
  decode 0x03FF00000000FFFF#64 = .ok (.init 255#8 65535#16) ∧
  decode 0x0502000000000000#64 = .ok (.mkmask 2#8) ∧
  decode 0x0A00000000000001#64 = .ok (.csum true) ∧
  decode 0x1300000100000002#64 = .ok (.rdc 1#24 2#32) ∧
  decode 0x0B00000000000001#64 = .error .reservedBit ∧
  decode 0xFFFFFFFFFFFFFFFF#64 = .error .unknownOpcode

/-! ### Steps, responses, errors -/

/-- A step runs the decoded command: when the host presents a word that decodes to `i` and no GEN waits, the word is taken
from the port and the step is exec of `i`. With no input and no GEN waiting nothing changes (20_memory.md R65 "No location
changes spontaneously"). How inputs are held is the model's choice (notes/assumptions/1.md). -/
def Obligations.StepRunsTheDecodedCommand : Prop :=
  (∀ (s : State) (w : Word64) (i : Instr) (rest : List HostInput), s.busy = false → s.host = .command w :: rest →
    decode w = .ok i → step s = exec i { s with host := rest }) ∧
  (∀ s : State, s.busy = false → s.host = [] → step s = .next s)

/-- 30_encoding.md R93 and 60_exceptions.md R253: the response word, `respond`, and all that `raise` does. -/
def Obligations.RaiseWritesTheErrorRegistersAndAnswers : Prop :=
  (∀ (status : BitVec 8) (v : Value),
    (responseWord status v).extractLsb' 56 8 = status ∧ (responseWord status v).extractLsb' 48 8 = 0#8 ∧
      (responseWord status v).extractLsb' 0 48 = v) ∧
  (∀ (e : ErrorCode) (info : Value) (s : State),
    raise e info s =
      { s with
        lasterr := errorCode e
        errinfo := info
        esticky := s.esticky ||| BitVec.ofNat 16 (2 ^ (errorCode e).toNat)
        responses := s.responses ++ [errorCode e ++ (0#8 ++ info)] }) ∧
  (∀ (v : Value) (s : State), respond v s = { s with responses := s.responses ++ [0#8 ++ (0#8 ++ v)] })

/-- 60_exceptions.md R241: the ten codes. -/
def Obligations.ErrorCodesAreOneToTen : Prop :=
  errorCode .invalidFieldSize = 1#8 ∧ errorCode .invalidPayloadSize = 2#8 ∧
  errorCode .duplicateOrWrongSizeAlphabet = 3#8 ∧ errorCode .wrongSequenceLength = 4#8 ∧
  errorCode .unknownSymbol = 5#8 ∧ errorCode .alreadyValid = 6#8 ∧ errorCode .illegalCommand = 7#8 ∧
  errorCode .notReady = 8#8 ∧ errorCode .locked = 9#8 ∧ errorCode .badIndex = 10#8

/-- 60_exceptions.md R240 and R254 (an inference the spec marks as its own: "a command that ends in an error leaves all
flags, registers and memories other than LASTERR, ERRINFO and ESTICKY exactly as they were"): every command gives exactly
one response, of status 0 with the error registers as they were (CLRE's zeroed), or ends in exactly the effect of one
`raise`, which changes nothing else. The model's third way, a GEN that waits, gives none (notes/assumptions/3.md). -/
def Obligations.EveryCommandAnswersOnceOrRaises : Prop :=
  ∀ (i : Instr) (s t : State), exec i s = .next t →
    (∃ v, t.responses = s.responses ++ [responseWord 0#8 v] ∧
      (i ≠ .clre → t.lasterr = s.lasterr ∧ t.esticky = s.esticky ∧ t.errinfo = s.errinfo)) ∨
    (∃ e info, t = raise e info s ∧ errorCode e ≠ 0#8) ∨
    (i = .gen ∧ s.rand.length < s.m.toNat ∧ t = { s with busy := true })

/-- 10_state.md R38: ESTICKY only accumulates, and R37: a command that succeeds does not change LASTERR, an error of code
c leaves LASTERR = c with its bit of ESTICKY set. -/
def Obligations.EstickyOnlyAccumulates : Prop :=
  ∀ (i : Instr) (s t : State), exec i s = .next t → i ≠ .clre →
    (∀ b, s.esticky.getLsbD b = true → t.esticky.getLsbD b = true) ∧
    (∀ v, t.responses = s.responses ++ [responseWord 0#8 v] → t.lasterr = s.lasterr ∧ t.esticky = s.esticky) ∧
    (∀ c v, c ≠ 0#8 → t.responses = s.responses ++ [responseWord c v] →
      t.lasterr = c ∧ t.errinfo = v ∧ t.esticky.getLsbD c.toNat = true)

/-! ### The reset -/

/-- 10_state.md R51 and 70_reset_and_hazards.md R271: the reset state of every instance, and what the commands answer in
it. -/
def Obligations.ResetStateAsTheSpecSays : Prop :=
  ∀ p : Params, p.wf = true →
    (∀ s, s = State.resetOf p →
      s.ready = false ∧ s.aovf = false ∧ s.sovf = false ∧ s.valid = false ∧ s.cvalid = false ∧ s.k = 0#6 ∧ s.m = 0#16 ∧
      s.mask = 0#33 ∧ s.alen = 0#33 ∧ s.slen = 0#17 ∧ s.ncand = 0#18 ∧ s.lasterr = 0#8 ∧ s.esticky = 0#16 ∧
      s.errinfo = 0#48 ∧ s.rdig = 0#32 ∧ s.rsym = 0#32 ∧
      exec (.rdr 0#32) s = .next (respond 0x44414D4D0007#48 s) ∧
      exec (.rdr 1#32) s = .next (respond (BitVec.ofNat 48 (p.mmax * 65536 + p.kmax)) s) ∧
      (∀ r : BitVec 32, 2 ≤ r.toNat → r.toNat ≤ 13 → exec (.rdr r) s = .next (respond 0#48 s)) ∧
      (∀ i, exec (.rda i) s = .next (raise .badIndex 0#48 s)) ∧
      (∀ i, exec (.rds i) s = .next (raise .badIndex 0#48 s)) ∧
      (∀ c i, exec (.rdc c i) s = .next (raise .badIndex 0#48 s)) ∧
      (∀ i ∈ [Instr.csum false, .csum true, .vrfy, .gen, .corr], exec i s = .next (raise .notReady 0#48 s)) ∧
      (∀ k mask, buildMask p k.toNat = some mask → exec (.mkmask k) s = .next (respond (mask.setWidth 48) s))) ∧
    State.reset = State.resetOf defaultParams

/-- 70_reset_and_hazards.md R270 and R272: a reset, between commands, while a GEN waits or in the middle of any command,
gives no response and leaves the one reset state, not a mixture; also from every intermediate state of the small-step forms
of CORR and of the fold, whatever steps came before, and nothing but a reset abandons them. A command other than GEN takes
no random words, so none are lost; how many an abandoned GEN loses is the model's choice (notes/assumptions/10.md). -/
def Obligations.ResetFromEveryStateGivesTheResetState : Prop :=
  (∀ (s : State) (rest : List HostInput),
    (s.host = .reset :: rest ∨ ∃ w drawn, s.host = .resetDuring w drawn :: rest) →
    ∃ ws, ws.IsSuffix s.rand ∧
      step s = .next { State.resetOf s.params with host := rest, responses := s.responses, rand := ws }) ∧
  (∀ (s : State) (w : Word64) (drawn : Nat) (rest : List HostInput), s.busy = false →
    s.host = .resetDuring w drawn :: rest → decode w ≠ .ok .gen →
    step s = .next { State.resetOf s.params with host := rest, responses := s.responses, rand := s.rand }) ∧
  (∀ (s : State) (xs : List MicroInput) (r : CorrRegs),
    (∀ r', runCorrInputs s xs r = .running r' → runCorrInputs s (xs ++ [.reset]) r =
      .abandoned { State.resetOf s.params with host := s.host, responses := s.responses, rand := s.rand }) ∧
    ∀ t, runCorrInputs s xs r = .abandoned t → .reset ∈ xs ∧
      t = { State.resetOf s.params with host := s.host, responses := s.responses, rand := s.rand }) ∧
  (∀ (s : State) (n : Nat) (xs : List MicroInput) (r : FoldRegs),
    (∀ r', runFoldInputs s n xs r = .running r' → runFoldInputs s n (xs ++ [.reset]) r =
      .abandoned { State.resetOf s.params with host := s.host, responses := s.responses, rand := s.rand }) ∧
    ∀ t, runFoldInputs s n xs r = .abandoned t → .reset ∈ xs ∧
      t = { State.resetOf s.params with host := s.host, responses := s.responses, rand := s.rand })

/-- 70_reset_and_hazards.md R270: "the nearest thing to a soft reset is `FREE; CLRA; CLRS; CLRE`, which brings every
readable register except the constants to 0". -/
def Obligations.SoftResetZeroesEveryReadableRegister : Prop :=
  ∀ s : State, ∃ t, runOk [.free, .clra, .clrs, .clre] s = some t ∧
    ∀ r, 2 ≤ r → r ≤ 13 → readReg t r = some 0#48

/-! ### MASKGEN -/

/-- 40_maskgen.md R111: for every k of the table the mask is 1 + Σ 2^e, a 33-bit integer, the bitwise OR of bit 0 and the
bits listed; and R112 (a), (b), (c). -/
def Obligations.MaskIsTheOrOfTheListedBits : Prop :=
  ∀ (p : Params) (k : Nat), p.wf = true → 2 ≤ k → k ≤ 32 →
    ∃ es, p.polyTable.lookup k = some es ∧
      (maskOfExponents es).toNat = 1 + (es.map fun e => 2 ^ e).sum ∧
      (∀ i, (maskOfExponents es).getLsbD i = true ↔ i = 0 ∨ i ∈ es) ∧
      MaskShape k (maskOfExponents es) ∧
      2 ^ k < (maskOfExponents es).toNat ∧ (maskOfExponents es).toNat < 2 ^ (k + 1)

/-- 40_maskgen.md R112 (d), an inference the spec marks as its own: "an irreducible polynomial of degree at least 2 over
GF(2) is not divisible by `x + 1`, so `p_k(1) = 1`, and `p_k(1)` is the parity of the number of terms". -/
def Obligations.IrreducibleMasksHaveOddWeight : Prop :=
  ∀ (k : Nat) (mask : Acc), 2 ≤ k → k ≤ 32 → MaskShape k mask → IrreducibleMask mask → OddWeight mask

/-- 40_maskgen.md R113 and R116: the supported set, and mask(2) = 7, on every instance. -/
def Obligations.SupportedSetIsTwoToKmax : Prop :=
  ∀ p : Params, p.wf = true →
    (∀ k, supported p k = true ↔ 2 ≤ k ∧ k ≤ 32 ∧ k ≤ p.kmax) ∧
    (∀ k, (buildMask p k).isSome = supported p k) ∧ buildMask p 2 = some 7#33

/-- 40_maskgen.md R114 and R117: MKMASK answers mask(k), computed without overflow, or InvalidFieldSize(k), and changes
nothing else, with and without an engine. -/
def Obligations.MkmaskAnswersTheMask : Prop :=
  ∀ (k : BitVec 8) (s : State), s.params.wf = true →
    decode (0x05#8 ++ (k ++ 0#48)) = .ok (.mkmask k) ∧
    (2 ≤ k.toNat → k.toNat ≤ s.params.kmax → ∃ es, s.params.polyTable.lookup k.toNat = some es ∧
      exec (.mkmask k) s = .next (respond (BitVec.ofNat 48 (1 + (es.map fun e => 2 ^ e).sum)) s) ∧
      1 + (es.map fun e => 2 ^ e).sum < 2 ^ 33) ∧
    (k.toNat < 2 ∨ s.params.kmax < k.toNat →
      exec (.mkmask k) s = .next (raise .invalidFieldSize (k.setWidth 48) s))

/-! ### Engine construction -/

/-- 41_construct.md R120. -/
def Obligations.ClraEmptiesTheStagingArea : Prop :=
  ∀ s : State,
    decode 0x0100000000000000#64 = .ok .clra ∧
    (s.ready = true → exec .clra s = .next (raise .locked 0#48 s)) ∧
    (s.ready = false → exec .clra s = .next (respond 0#48 { s with alen := 0#33, aovf := false }))

/-- 41_construct.md R121: LDA appends at ALEN and answers the new ALEN; at ALEN = 2^KMAX it drops the symbol and sets AOVF;
with an engine it is Locked. Every other entry of ALPHA reads as before. -/
def Obligations.LdaAppendsOneSymbol : Prop :=
  ∀ (sym : Sym) (s : State), s.Inv →
    decode (0x02#8 ++ (0#24 ++ sym)) = .ok (.lda sym) ∧
    (s.ready = true → exec (.lda sym) s = .next (raise .locked 0#48 s)) ∧
    (s.ready = false → s.alen.toNat = 2 ^ s.params.kmax →
      exec (.lda sym) s = .next (respond (s.alen.setWidth 48) { s with aovf := true })) ∧
    (s.ready = false → s.alen.toNat ≠ 2 ^ s.params.kmax →
      ∃ t, exec (.lda sym) s = .next t ∧
        t = respond (t.alen.setWidth 48) { s with alpha := t.alpha, alen := t.alen } ∧
        t.alen.toNat = s.alen.toNat + 1 ∧ t.alpha.read s.alen.toNat = sym ∧
        ∀ i, i ≠ s.alen.toNat → t.alpha.read i = s.alpha.read i)

/-- 41_construct.md R122, R123 and R124: the checks of INIT in their order, each with its information value, and the
effect when all pass. -/
def Obligations.InitChecksThenStartsTheEngine : Prop :=
  ∀ (k : BitVec 8) (m : BitVec 16) (s : State), s.Inv →
    decode (0x03#8 ++ (k ++ (0#32 ++ m))) = .ok (.init k m) ∧
    (s.ready = true → exec (.init k m) s = .next (raise .locked 0#48 s)) ∧
    (s.ready = false → supported s.params k.toNat = false →
      exec (.init k m) s = .next (raise .invalidFieldSize (k.setWidth 48) s)) ∧
    (s.ready = false → supported s.params k.toNat = true → (m.toNat < 1 ∨ s.params.mmax < m.toNat) →
      exec (.init k m) s = .next (raise .invalidPayloadSize (m.setWidth 48) s)) ∧
    (s.ready = false → supported s.params k.toNat = true → 1 ≤ m.toNat → m.toNat ≤ s.params.mmax →
      (s.aovf = true ∨ s.alen.toNat ≠ 2 ^ k.toNat) →
      exec (.init k m) s = .next (raise .duplicateOrWrongSizeAlphabet (s.alen.setWidth 48) s)) ∧
    (s.ready = false → supported s.params k.toNat = true → 1 ≤ m.toNat → m.toNat ≤ s.params.mmax →
      s.aovf = false → s.alen.toNat = 2 ^ k.toNat →
      (∀ i0 < 2 ^ k.toNat, (∃ j < i0, s.alpha.read j = s.alpha.read i0) →
        (∀ i < i0, ∀ j < i, s.alpha.read j ≠ s.alpha.read i) →
        exec (.init k m) s = .next (raise .duplicateOrWrongSizeAlphabet (BitVec.ofNat 48 (2 ^ 47 + i0)) s)) ∧
      ((∀ i < 2 ^ k.toNat, ∀ j < i, s.alpha.read j ≠ s.alpha.read i) →
        ∃ mask, buildMask s.params k.toNat = some mask ∧ (k.setWidth 6).toNat = k.toNat ∧
          exec (.init k m) s =
            .next (respond (mask.setWidth 48)
              { s with k := k.setWidth 6, m := m, mask := mask, ready := true })))

/-- 41_construct.md R125: FREE zeroes the engine and its results in every state, and changes nothing when there is no
engine. -/
def Obligations.FreeEndsTheEngine : Prop :=
  ∀ s : State,
    decode 0x0400000000000000#64 = .ok .free ∧
    exec .free s =
      .next (respond 0#48
        { s with
          ready := false, k := 0#6, m := 0#16, mask := 0#33, valid := false, cvalid := false, ncand := 0#18,
          rdig := 0#32, rsym := 0#32 }) ∧
    (s.Inv → s.ready = false → exec .free s = .next (respond 0#48 s))

/-- 41_construct.md R127, and 10_state.md R53, an inference the spec marks as its own: "From a successful INIT to the next
FREE or reset, none of K, M, MASK, ALEN, ALPHA[0 .. 2^K − 1] and DIDX changes, whatever commands are issued". FREE is the
one command that ends the engine (notes/assumptions/13.md). -/
def Obligations.EngineIsLockedUntilFree : Prop :=
  (∀ (s : State) (k : BitVec 8) (m : BitVec 16) (x : Sym), s.ready = true →
    ∀ i ∈ [Instr.clra, .lda x, .init k m], exec i s = .next (raise .locked 0#48 s)) ∧
  (∀ (s t : State) (i : Instr), s.ready = true → i ≠ .free → exec i s = .next t →
    t.ready = true ∧ t.k = s.k ∧ t.m = s.m ∧ t.mask = s.mask ∧ t.alen = s.alen ∧ t.alpha = s.alpha ∧
      ∀ x, index t x = index s x) ∧
  (∀ (s t : State) (w : Word64) (rest : List HostInput), s.ready = true → s.host = .command w :: rest →
    decode w ≠ .ok .free → step s = .next t →
    t.ready = true ∧ t.k = s.k ∧ t.m = s.m ∧ t.mask = s.mask ∧ t.alen = s.alen ∧ t.alpha = s.alpha)

/-- 10_state.md R45 and 41_construct.md R126: while an engine exists INDEX is the inverse of ALPHA[0 .. 2^K − 1]. -/
def Obligations.IndexIsTheInverseOfTheAlphabet : Prop :=
  ∀ s : State, s.Inv → s.ready = true →
    (∀ i < 2 ^ s.k.toNat, index s (s.alpha.read i) = some (BitVec.ofNat 32 i)) ∧
    (∀ (x : Sym) (d : Digit), index s x = some d ↔ d.toNat < 2 ^ s.k.toNat ∧ symbolOf s d = x) ∧
    (∀ x : Sym, index s x = none ↔ ∀ i < 2 ^ s.k.toNat, s.alpha.read i ≠ x)

/-! ### FOLD -/

/-- 42_checksum.md R140: the fold step on k-bit values, with its corner cases. -/
def Obligations.FoldStepShiftsAndReduces : Prop :=
  ∀ (k : Nat) (mask acc : Acc) (d : Digit), 2 ≤ k → k ≤ 32 → MaskShape k mask → acc.toNat < 2 ^ k → d.toNat < 2 ^ k →
    (foldStep k mask acc d).toNat < 2 ^ k ∧
    (foldStep k mask acc d).toNat =
      (if (acc.toNat ^^^ d.toNat).testBit (k - 1) then (2 * (acc.toNat ^^^ d.toNat)) ^^^ mask.toNat
       else 2 * (acc.toNat ^^^ d.toNat)) ∧
    (acc.toNat = d.toNat → foldStep k mask acc d = 0#33) ∧
    (acc.toNat ^^^ d.toNat = 2 ^ (k - 1) → (foldStep k mask acc d).toNat = mask.toNat - 2 ^ k)

/-- 42_checksum.md R141: the fold from the left, starting from 0, with a result in 0 .. 2^k − 1. -/
def Obligations.FoldRunsFromTheLeftInRange : Prop :=
  ∀ (k : Nat) (mask : Acc), k ≤ 32 →
    fold k mask [] = 0#33 ∧
    (∀ ds d, fold k mask (ds ++ [d]) = foldStep k mask (fold k mask ds) d) ∧
    (∀ ds, (fold k mask ds).toNat < 2 ^ k)

/-- 47_laws.md R218, an inference the spec marks as its own: "For fixed `a`, `d ↦ step(a, d)` is a bijection of
0 .. q − 1; for fixed `d`, so is `a ↦ step(a, d)`; and `step(a, d) = 0` exactly when `a = d`". -/
def Obligations.FoldStepIsABijectionInEachArgument : Prop :=
  ∀ (k : Nat) (mask : Acc), 2 ≤ k → k ≤ 32 → MaskShape k mask →
    (∀ (a : Acc) (y : Acc), a.toNat < 2 ^ k → y.toNat < 2 ^ k →
      ∃ d : Digit, d.toNat < 2 ^ k ∧ foldStep k mask a d = y ∧
        ∀ d' : Digit, d'.toNat < 2 ^ k → foldStep k mask a d' = y → d' = d) ∧
    (∀ (d : Digit) (y : Acc), d.toNat < 2 ^ k → y.toNat < 2 ^ k →
      ∃ a : Acc, a.toNat < 2 ^ k ∧ foldStep k mask a d = y ∧
        ∀ a' : Acc, a'.toNat < 2 ^ k → foldStep k mask a' d = y → a' = a) ∧
    (∀ (a : Acc) (d : Digit), a.toNat < 2 ^ k → d.toNat < 2 ^ k →
      (foldStep k mask a d = 0#33 ↔ a.toNat = d.toNat))

/-- 47_laws.md R219, an inference the spec marks as its own: "For a list `D = [d_0, ..., d_(n−1)]`:
`fold(D) = Σ d_i · x^(n−i) mod p`, the sum being XOR", with its consequences for the XOR of two lists, a changed digit and
an exchanged pair. -/
def Obligations.FoldIsLinear : Prop :=
  ∀ (k : Nat) (mask : Acc), 2 ≤ k → k ≤ 32 → MaskShape k mask →
    (∀ ds : List Digit, AreDigits k ds →
      fold k mask ds =
        ((List.range ds.length).map fun i => timesXPow k mask (ds.length - i) ((ds.getD i 0#32).setWidth 33)).foldl
          (· ^^^ ·) 0#33) ∧
    (∀ ds es : List Digit, ds.length = es.length → AreDigits k ds → AreDigits k es →
      fold k mask (List.zipWith (· ^^^ ·) ds es) = fold k mask ds ^^^ fold k mask es) ∧
    (∀ (ds : List Digit) (j : Nat) (d : Digit), AreDigits k ds → j < ds.length → d.toNat < 2 ^ k →
      fold k mask (ds.set j d) =
        fold k mask ds ^^^ timesXPow k mask (ds.length - j) ((ds.getD j 0#32 ^^^ d).setWidth 33)) ∧
    (∀ (ds : List Digit) (j : Nat), AreDigits k ds → j + 1 < ds.length →
      fold k mask (swapTrial ds j) =
        fold k mask ds ^^^
          timesXPow k mask (ds.length - j - 1)
            (timesX k mask ((ds.getD j 0#32 ^^^ ds.getD (j + 1) 0#32).setWidth 33) ^^^
              (ds.getD j 0#32 ^^^ ds.getD (j + 1) 0#32).setWidth 33))

/-- 47_laws.md R216, an inference the spec marks as its own: "XOR is polynomial addition, and
`step(a, d) = x · (a + d) mod p`". -/
def Obligations.FoldStepMultipliesByXModuloTheMask : Prop :=
  ∀ (k : Nat) (mask acc : Acc) (d : Digit) (pm pa pd ps : Polynomial (ZMod 2)), 2 ≤ k → k ≤ 32 → MaskShape k mask →
    acc.toNat < 2 ^ k → d.toNat < 2 ^ k → IsPolyOf mask pm → IsPolyOf acc pa → IsPolyOf (d.setWidth 33) pd →
    IsPolyOf (foldStep k mask acc d) ps →
    pm.natDegree = k ∧ IsPolyOf (acc ^^^ d.setWidth 33) (pa + pd) ∧ ps = (Polynomial.X * (pa + pd)) %ₘ pm

/-- 42_checksum.md R147 and 47_laws.md R223, whose core the spec marks as its own inference:
"`step(step(c, a), b) = step(step(c, b), a)` implies `a = b`"; it needs odd weight. The operation is commutative. -/
def Obligations.FoldStepSeesEveryExchange : Prop :=
  ∀ (k : Nat) (mask c : Acc) (a b : Digit), 2 ≤ k → k ≤ 32 → MaskShape k mask → OddWeight mask → c.toNat < 2 ^ k →
    a.toNat < 2 ^ k → b.toNat < 2 ^ k →
    foldStep k mask (a.setWidth 33) b = foldStep k mask (b.setWidth 33) a ∧
    (foldStep k mask (foldStep k mask c a) b = foldStep k mask (foldStep k mask c b) a → a = b)

/-- 42_checksum.md R143. -/
def Obligations.ClrsEmptiesTheSequenceBuffer : Prop :=
  ∀ s : State,
    decode 0x0800000000000000#64 = .ok .clrs ∧
    exec .clrs s = .next (respond 0#48 { s with slen := 0#17, sovf := false })

/-- 42_checksum.md R144: LDS appends at SLEN and answers the new SLEN; at SLEN = MMAX + 1 it drops the symbol and sets
SOVF. Every other entry of SEQ reads as before. -/
def Obligations.LdsAppendsOneSymbol : Prop :=
  ∀ (sym : Sym) (s : State), s.Inv →
    decode (0x09#8 ++ (0#24 ++ sym)) = .ok (.lds sym) ∧
    (s.slen.toNat = s.params.mmax + 1 →
      exec (.lds sym) s = .next (respond (s.slen.setWidth 48) { s with sovf := true })) ∧
    (s.slen.toNat ≠ s.params.mmax + 1 →
      ∃ t, exec (.lds sym) s = .next t ∧
        t = respond (t.slen.setWidth 48) { s with seq := t.seq, slen := t.slen } ∧
        t.slen.toNat = s.slen.toNat + 1 ∧ t.seq.read s.slen.toNat = sym ∧
        ∀ i, i ≠ s.slen.toNat → t.seq.read i = s.seq.read i)

/-- 42_checksum.md R145 with R142: the checks of CSUM in their order, and the check symbol of the sequence that the
digits `ds` spell. -/
def Obligations.CsumAnswersTheCheckSymbol : Prop :=
  ∀ (ic : Bool) (s : State), s.Inv →
    decode (0x0A#8 ++ (0#55 ++ BitVec.ofBool ic)) = .ok (.csum ic) ∧
    (s.ready = false → exec (.csum ic) s = .next (raise .notReady 0#48 s)) ∧
    (s.ready = true → (s.sovf = true ∨ s.slen.toNat ≠ s.m.toNat + ic.toNat) →
      exec (.csum ic) s = .next (raise .wrongSequenceLength (s.slen.setWidth 48) s)) ∧
    (s.ready = true → s.sovf = false → s.slen.toNat = s.m.toNat + ic.toNat →
      (∀ p < s.m.toNat + ic.toNat, (∀ i < 2 ^ s.k.toNat, s.alpha.read i ≠ s.seq.read p) →
        (∀ q < p, ∃ i < 2 ^ s.k.toNat, s.alpha.read i = s.seq.read q) →
        exec (.csum ic) s = .next (raise .unknownSymbol (BitVec.ofNat 48 p) s)) ∧
      (∀ ds : List Digit, AreDigits s.k.toNat ds → ds.length = s.m.toNat + ic.toNat →
        (∀ p < ds.length, s.alpha.read (ds.getD p 0#32).toNat = s.seq.read p) →
        exec (.csum ic) s =
          .next (respond ((s.alpha.read (fold s.k.toNat s.mask ds).toNat).setWidth 48)
            { s with
              rdig := (fold s.k.toNat s.mask ds).setWidth 32
              rsym := s.alpha.read (fold s.k.toNat s.mask ds).toNat })))

/-! ### The verify oracle -/

/-- 43_verify.md R160 with 42_checksum.md R142: the checks of VRFY in their order, and the zero test of the sequence that
the digits `ds` spell. -/
def Obligations.VrfyAnswersTheZeroTest : Prop :=
  ∀ s : State, s.Inv →
    decode 0x0B00000000000000#64 = .ok .vrfy ∧
    (s.ready = false → exec .vrfy s = .next (raise .notReady 0#48 s)) ∧
    (s.ready = true → (s.sovf = true ∨ s.slen.toNat ≠ s.m.toNat + 1) →
      exec .vrfy s = .next (raise .wrongSequenceLength (s.slen.setWidth 48) s)) ∧
    (s.ready = true → s.sovf = false → s.slen.toNat = s.m.toNat + 1 →
      (∀ p < s.m.toNat + 1, (∀ i < 2 ^ s.k.toNat, s.alpha.read i ≠ s.seq.read p) →
        (∀ q < p, ∃ i < 2 ^ s.k.toNat, s.alpha.read i = s.seq.read q) →
        exec .vrfy s = .next (raise .unknownSymbol (BitVec.ofNat 48 p) s)) ∧
      (∀ ds : List Digit, AreDigits s.k.toNat ds → ds.length = s.m.toNat + 1 →
        (∀ p < ds.length, s.alpha.read (ds.getD p 0#32).toNat = s.seq.read p) →
        exec .vrfy s =
          .next (respond (if fold s.k.toNat s.mask ds = 0#33 then 1#48 else 0#48)
            { s with
              rdig := (fold s.k.toNat s.mask ds).setWidth 32
              rsym := s.alpha.read (fold s.k.toNat s.mask ds).toNat
              valid := decide (fold s.k.toNat s.mask ds = 0#33) })))

/-- 60_exceptions.md R256: a false verification is not an error, and the status field alone tells it from a VRFY that
could not be evaluated. -/
def Obligations.FalseVerificationIsNotAnError : Prop :=
  ∀ (s : State) (ds : List Digit), s.Inv → HoldsChecked s ds → engineFold s ds ≠ 0#33 →
    (∃ t, exec .vrfy s = .next t ∧ t.responses = s.responses ++ [0x0000000000000000#64] ∧ t.valid = false ∧
      t.lasterr = s.lasterr ∧ t.esticky = s.esticky ∧ t.errinfo = s.errinfo) ∧
    (∀ (u t : State) (c : BitVec 8) (v : Value), u.Inv → exec .vrfy u = .next t →
      t.responses = u.responses ++ [responseWord c v] →
      (c = 0#8 ∧ (v = 0#48 ∨ v = 1#48)) ∨ (c = 4#8 ∨ c = 5#8 ∨ c = 8#8) ∧ t.valid = u.valid)

/-! ### GEN -/

/-- 44_generate.md R165 and R167: GEN with M random words there. Payload position p gets the symbol whose digit is the low
K bits of word p; position M the check symbol; every other entry of SEQ reads as before; exactly M words are taken. -/
def Obligations.GenWritesACheckedSequence : Prop :=
  ∀ s : State, s.Inv →
    decode 0x0C00000000000000#64 = .ok .gen ∧
    (s.ready = false → exec .gen s = .next (raise .notReady 0#48 s)) ∧
    (s.ready = true → s.m.toNat ≤ s.rand.length →
      ∃ (t : State) (ds : List Digit) (c : Acc), exec .gen s = .next t ∧
        ds.length = s.m.toNat ∧
        (∀ p < s.m.toNat, (ds.getD p 0#32).toNat = (s.rand.getD p 0#32).toNat % 2 ^ s.k.toNat) ∧
        c = fold s.k.toNat s.mask ds ∧
        t = respond ((s.alpha.read c.toNat).setWidth 48)
          { s with
            seq := t.seq, slen := t.slen, sovf := false, rdig := c.setWidth 32, rsym := s.alpha.read c.toNat,
            rand := s.rand.drop s.m.toNat, busy := false } ∧
        t.slen.toNat = s.m.toNat + 1 ∧
        (∀ p < s.m.toNat, t.seq.read p = s.alpha.read ((s.rand.getD p 0#32).toNat % 2 ^ s.k.toNat)) ∧
        t.seq.read s.m.toNat = s.alpha.read c.toNat ∧
        (∀ p, s.m.toNat < p → t.seq.read p = s.seq.read p))

/-- The model's form (notes/assumptions/3.md) of 44_generate.md R166 "If the random source never presents a word, GEN
never completes and DSC accepts no further command" and 70_reset_and_hazards.md R279: a GEN with too few words waits
without a response; while it waits no command is taken from the port; once the words are there it ends as a GEN that found
them at once. -/
def Obligations.GenWaitsForRandomWords : Prop :=
  (∀ s : State, s.ready = true → s.rand.length < s.m.toNat → exec .gen s = .next { s with busy := true }) ∧
  (∀ s : State, s.busy = true → s.ready = true → s.rand.length < s.m.toNat →
    (s.host = [] ∨ ∃ w rest, s.host = .command w :: rest) → step s = .next s) ∧
  (∀ (s : State) (ws : List (BitVec 32)), s.Inv → s.busy = true → s.m.toNat ≤ (s.rand ++ ws).length →
    (s.host = [] ∨ ∃ w rest, s.host = .command w :: rest) →
    ∃ t, step { s with rand := s.rand ++ ws } = .next t ∧ t.busy = false ∧ t.host = s.host ∧
      exec .gen { s with busy := false, rand := s.rand ++ ws } = .next t)

/-- 44_generate.md R169, an inference the spec marks as its own: after a GEN that succeeds "an immediately following VRFY
answers 1", for every list of random words. -/
def Obligations.GeneratedSequenceVerifies : Prop :=
  ∀ s : State, s.Inv → s.ready = true → s.m.toNat ≤ s.rand.length →
    ∃ t u, exec .gen s = .next t ∧ exec .vrfy t = .next u ∧
      u.responses = t.responses ++ [0x0000000000000001#64] ∧ u.valid = true ∧ u.rdig = 0#32

/-- 44_generate.md R170, an inference the spec marks as its own: "GEN with draws `r_0, ..., r_(M−1)` leaves the same SEQ,
SLEN, SOVF, RDIG and RSYM, and gives the same response, as the command sequence `CLRS; LDS ALPHA[r_0 mod 2^K]; ...;
LDS ALPHA[r_(M−1) mod 2^K]; CSUM 0; LDS c`", but for the response of the final LDS. -/
def Obligations.GenEqualsLoadChecksumAppend : Prop :=
  ∀ s : State, s.Inv → s.ready = true → s.m.toNat ≤ s.rand.length →
    ∃ t a b, exec .gen s = .next t ∧
      runOk (loadSeqCommands ((s.rand.take s.m.toNat).map fun r => s.alpha.read (r.toNat % 2 ^ s.k.toNat)) ++
        [.csum false]) s = some a ∧
      a.responses.getLast? = t.responses.getLast? ∧
      exec (.lds a.rsym) a = .next b ∧
      b.seq = t.seq ∧ b.slen = t.slen ∧ b.sovf = t.sovf ∧ b.rdig = t.rdig ∧ b.rsym = t.rsym ∧
      b.responses.getLast? = some (responseWord 0#8 (BitVec.ofNat 48 (s.m.toNat + 1)))

/-! ### CORR -/

/-- 45_correct.md R175: the checks of CORR in their order, each before anything is written. -/
def Obligations.CorrChecksInOrder : Prop :=
  ∀ s : State, s.Inv →
    decode 0x0D00000000000000#64 = .ok .corr ∧
    (s.ready = false → exec .corr s = .next (raise .notReady 0#48 s)) ∧
    (s.ready = true → (s.sovf = true ∨ s.slen.toNat ≠ s.m.toNat + 1) →
      exec .corr s = .next (raise .wrongSequenceLength (s.slen.setWidth 48) s)) ∧
    (s.ready = true → s.sovf = false → s.slen.toNat = s.m.toNat + 1 →
      ∀ p < s.m.toNat + 1, (∀ i < 2 ^ s.k.toNat, s.alpha.read i ≠ s.seq.read p) →
        (∀ q < p, ∃ i < 2 ^ s.k.toNat, s.alpha.read i = s.seq.read q) →
        exec .corr s = .next (raise .unknownSymbol (BitVec.ofNat 48 p) s)) ∧
    (∀ ds : List Digit, HoldsChecked s ds → engineFold s ds = 0#33 →
      exec .corr s = .next (raise .alreadyValid 0#48 s))

/-- 45_correct.md R175, R176, R177, R179, R180: what a successful CORR leaves. The records are, in this order, the
verifying exchanges of adjacent unequal symbols in ascending position, then for each position in ascending order its one
verifying substitution; they stand in CAND[0 .. NCAND − 1], entry p of record c the symbol of its digit p; the entries of
every other record read as before, and nothing else changes. -/
def Obligations.CorrStoresTheCandidatesInOrder : Prop :=
  ∀ (s : State) (ds : List Digit), s.Inv → HoldsChecked s ds → engineFold s ds ≠ 0#33 →
    ∃ (t : State) (f : Nat → Digit) (records : List (List Digit)), exec .corr s = .next t ∧
      (∀ j ≤ s.m.toNat, (f j).toNat < 2 ^ s.k.toNat ∧ f j ≠ ds.getD j 0#32 ∧ engineFold s (ds.set j (f j)) = 0#33 ∧
        ∀ d : Digit, d.toNat < 2 ^ s.k.toNat → engineFold s (ds.set j d) = 0#33 → d = f j) ∧
      records =
        (((List.range s.m.toNat).filter fun j =>
            decide (ds.getD j 0#32 ≠ ds.getD (j + 1) 0#32 ∧ engineFold s (swapTrial ds j) = 0#33)).map (swapTrial ds)) ++
          (List.range (s.m.toNat + 1)).map (fun j => ds.set j (f j)) ∧
      t = respond (BitVec.ofNat 48 records.length) { s with cand := t.cand, ncand := t.ncand, cvalid := true } ∧
      t.ncand.toNat = records.length ∧
      (∀ c < records.length, candRecord t c = (records.getD c []).map (symbolOf s)) ∧
      (∀ c e, records.length ≤ c → e ≤ s.params.mmax → candEntry t c e = candEntry s c e)

/-- 45_correct.md R185 and 47_laws.md R226, R228, inferences the spec marks as its own: "`CVALID = 1`; `NCAND = n` with
`M + 1 ≤ n ≤ 2·M + 1`"; the records are pairwise different, each verifies, none is the input; and R182: the input is not
touched, a VRFY of the same buffer still answers 0. -/
def Obligations.CorrResultIsDistinctAndVerifies : Prop :=
  ∀ (s t : State) (ds : List Digit), s.Inv → HoldsChecked s ds → engineFold s ds ≠ 0#33 → exec .corr s = .next t →
    t.cvalid = true ∧ s.m.toNat + 1 ≤ t.ncand.toNat ∧ t.ncand.toNat ≤ 2 * s.m.toNat + 1 ∧
    (∀ c < t.ncand.toNat, (candRecord t c).length = s.m.toNat + 1 ∧ verifies s (candRecord t c) = true ∧
      candRecord t c ≠ seqSymbols s (s.m.toNat + 1) ∧ ∀ d < c, candRecord t d ≠ candRecord t c) ∧
    t.seq = s.seq ∧ t.slen = s.slen ∧ t.sovf = s.sovf ∧ t.valid = s.valid ∧ t.rdig = s.rdig ∧ t.rsym = s.rsym ∧
    ∃ u, exec .vrfy t = .next u ∧ u.responses = t.responses ++ [0x0000000000000000#64]

/-- 47_laws.md R225, an inference the spec marks as its own, of the document's "if `s` is valid and `s'` is obtained from
`s` by exactly one substitution or one adjacent transposition (and `s' ≠ s`), then `s ∈ correct(s')`". The transposition
needs odd weight. -/
def Obligations.CorrectionRecallsTheOriginal : Prop :=
  ∀ (s : State) (orig ds : List Digit), s.Inv → HoldsChecked s ds → AreDigits s.k.toNat orig →
    orig.length = s.m.toNat + 1 → engineFold s orig = 0#33 → ds ≠ orig →
    ((∃ j ≤ s.m.toNat, ∃ d : Digit, ds = orig.set j d) ∨
      (OddWeight s.mask ∧ ∃ j < s.m.toNat, ds = swapTrial orig j)) →
    ∃ t, exec .corr s = .next t ∧ t.cvalid = true ∧
      ∃ c < t.ncand.toNat, candRecord t c = orig.map (symbolOf s)

/-- 47_laws.md R228, an inference the spec marks as its own: "For every record `c < NCAND`, loading `CAND[c][0 .. M]` into
the sequence buffer and issuing VRFY answers 1", and "CORR on a candidate raises AlreadyValid". -/
def Obligations.CandidatesVerifyWhenLoaded : Prop :=
  ∀ (s : State) (c : Nat), s.Inv → s.cvalid = true → c < s.ncand.toNat →
    ∃ t u, runOk (loadSeqCommands (candRecord s c)) s = some t ∧ exec .vrfy t = .next u ∧
      u.responses = t.responses ++ [0x0000000000000001#64] ∧ u.valid = true ∧
      exec .corr t = .next (raise .alreadyValid 0#48 t)

/-- 47_laws.md R227, an inference the spec marks as its own: "no verifying trial is equal to an earlier one, and `present`
of 45_correct.md rule R178 is always false when it is evaluated", at every point of the small-step CORR, whatever the dead
registers held when the CORR was accepted. -/
def Obligations.DeduplicationNeverSucceeds : Prop :=
  ∀ (s : State) (ds : List Digit) (fuel : Nat) (dead r : CorrRegs), s.Inv → HoldsChecked s ds →
    engineFold s ds ≠ 0#33 → runCorr s fuel (corrAccept dead) = .running r →
    (r.phase = .trans → r.j < s.m.toNat → r.dbuf.getD r.j 0#32 ≠ r.dbuf.getD (r.j + 1) 0#32 →
      engineFold s (swapTrial r.dbuf r.j) = 0#33 → present s r.found (swapTrial r.dbuf r.j) = false) ∧
    (r.phase = .subst → r.j ≤ s.m.toNat → r.sub < 2 ^ s.k.toNat → BitVec.ofNat 32 r.sub ≠ r.dbuf.getD r.j 0#32 →
      engineFold s (substTrial r.dbuf r.j (BitVec.ofNat 32 r.sub)) = 0#33 →
      present s r.found (substTrial r.dbuf r.j (BitVec.ofNat 32 r.sub)) = false)

/-- 45_correct.md R181, an inference the spec marks as its own: "its run from CHECK to IDLE is the execution of one CORR
command and gives the same CAND, NCAND, CVALID and response as the loops of rule R175", with R187: it ends within the
bound, from every state and from all values of the registers that are dead at IDLE (10_state.md R47, R48). -/
def Obligations.SmallStepCorrReachesTheCommand : Prop :=
  ∀ (s : State) (dead : CorrRegs), corrMicro s (corrIdle dead) = .running (corrAccept dead) ∧
    ∃ folds, runCorr s (corrStepBound s) (corrAccept dead) = .ended (exec .corr s) folds

/-- 45_correct.md R184, an inference the spec marks as its own: "A CORR that succeeds performs exactly
`1 + T + (M + 1)·(2^K − 1)` folds", T the number of adjacent unequal pairs; and 47_laws.md R230: J, S and the candidate
count stay within M + 1, 2^K and 2·M + 1 on the way, from where the spec first writes each: J and the count at CHECK, S at
the end of TRANS. Before that they are dead and hold anything (10_state.md R48). -/
def Obligations.SmallStepCorrCountsItsFolds : Prop :=
  ∀ (s : State) (ds : List Digit) (dead : CorrRegs), s.Inv → HoldsChecked s ds → engineFold s ds ≠ 0#33 →
    runCorr s (corrStepBound s) (corrAccept dead) =
      .ended (exec .corr s) (1 + unequalPairs ds s.m.toNat + (s.m.toNat + 1) * (2 ^ s.k.toNat - 1)) ∧
    ∀ (fuel : Nat) (r : CorrRegs), runCorr s fuel (corrAccept dead) = .running r → r.phase ≠ .check →
      r.j ≤ s.m.toNat + 1 ∧ r.found.length ≤ 2 * s.m.toNat + 1 ∧ (r.phase ≠ .trans → r.sub ≤ 2 ^ s.k.toNat)

/-- 42_checksum.md R146, an inference the spec marks as its own: one fold over n symbols is "`n` micro-steps plus a final
lookup"; it ends with the digit and symbol that CSUM and VRFY write, or at the first symbol that is not in the alphabet;
between micro-steps ACC is the fold of the symbols before P. -/
def Obligations.SmallStepFoldReachesTheFold : Prop :=
  ∀ (s : State) (n : Nat), s.Inv → s.ready = true →
    (∀ ds, lookupFrom s 0 (seqSymbols s n) = .ok ds →
      runFold s n (n + 1) foldStart = .done (engineFold s ds) (symbolOfAcc s (engineFold s ds)) ∧
      ∀ p ≤ n, runFold s n p foldStart = .running { acc := engineFold s (ds.take p), p := p } ∧
        (engineFold s (ds.take p)).toNat < 2 ^ s.k.toNat) ∧
    (∀ e, lookupFrom s 0 (seqSymbols s n) = .error e →
      ∃ p < n, e = .raised .unknownSymbol (BitVec.ofNat 48 p) ∧ runFold s n (n + 1) foldStart = .unknown p)

/-! ### Host access -/

/-- 46_access.md R200. -/
def Obligations.NopAnswersAndDoesNothing : Prop :=
  decode 0x0000000000000000#64 = .ok .nop ∧
  ∀ s : State, exec .nop s = .next { s with responses := s.responses ++ [0x0000000000000000#64] }

/-- 46_access.md R201 with 10_state.md R23, R24, R25 and 20_memory.md R67: the value of every numbered register, BadIndex
above 13, and no other change. -/
def Obligations.RdrAnswersTheNumberedRegister : Prop :=
  ∀ (r : BitVec 32) (s : State), s.params.wf = true →
    decode (0x10#8 ++ (0#24 ++ r)) = .ok (.rdr r) ∧
    (r.toNat ≤ 13 → ∃ v : Value, exec (.rdr r) s = .next (respond v s) ∧
      v.toNat =
        [0x44414D4D0007, s.params.mmax * 2 ^ 16 + s.params.kmax,
          s.ready.toNat + 2 * s.aovf.toNat + 4 * s.sovf.toNat + 8 * s.valid.toNat + 16 * s.cvalid.toNat,
          s.k.toNat, s.m.toNat, s.mask.toNat, s.alen.toNat, s.slen.toNat, s.ncand.toNat, s.lasterr.toNat,
          s.esticky.toNat, s.errinfo.toNat, s.rdig.toNat, s.rsym.toNat].getD r.toNat 0) ∧
    (13 < r.toNat → exec (.rdr r) s = .next (raise .badIndex 0#48 s))

/-- 46_access.md R202, R203 and R204: the three reads of the memories, BadIndex outside the readable range, and no other
change. -/
def Obligations.ReadsAnswerTheEntryOrBadIndex : Prop :=
  ∀ (c : BitVec 24) (i : BitVec 32) (s : State), s.Inv →
    (decode (0x11#8 ++ (0#24 ++ i)) = .ok (.rda i) ∧
      (i.toNat < s.alen.toNat → exec (.rda i) s = .next (respond ((s.alpha.read i.toNat).setWidth 48) s)) ∧
      (s.alen.toNat ≤ i.toNat → exec (.rda i) s = .next (raise .badIndex 0#48 s))) ∧
    (decode (0x12#8 ++ (0#24 ++ i)) = .ok (.rds i) ∧
      (i.toNat < s.slen.toNat → exec (.rds i) s = .next (respond ((s.seq.read i.toNat).setWidth 48) s)) ∧
      (s.slen.toNat ≤ i.toNat → exec (.rds i) s = .next (raise .badIndex 0#48 s))) ∧
    (decode (0x13#8 ++ (c ++ i)) = .ok (.rdc c i) ∧
      (s.cvalid = true → c.toNat < s.ncand.toNat → i.toNat ≤ s.m.toNat →
        exec (.rdc c i) s = .next (respond ((candEntry s c.toNat i.toNat).setWidth 48) s)) ∧
      (s.cvalid = false ∨ s.ncand.toNat ≤ c.toNat ∨ s.m.toNat < i.toNat →
        exec (.rdc c i) s = .next (raise .badIndex 0#48 s)))

/-- 46_access.md R205. -/
def Obligations.ClreClearsTheErrorRegisters : Prop :=
  decode 0x1F00000000000000#64 = .ok .clre ∧
  ∀ s : State, exec .clre s = .next (respond 0#48 { s with lasterr := 0#8, esticky := 0#16, errinfo := 0#48 })

/-- 20_memory.md R65: a read that succeeds changes no state but the response given, and the same read again gives the same
response. -/
def Obligations.ReadsAreIdempotent : Prop :=
  ∀ (i : Instr) (s t : State) (v : Value), i.mnemonic ∈ ["RDR", "RDA", "RDS", "RDC"] → exec i s = .next t →
    t.responses = s.responses ++ [responseWord 0#8 v] →
    t = respond v s ∧ exec i t = .next (respond v t)

/-! ### The document's properties -/

/-- 47_laws.md R220, an inference the spec marks as its own, of the document's "for all payloads `p` of length `m` over the
alphabet, `verify(p + [checksum(p, false)]) == true`"; "Moreover `c` is the only symbol with this property". -/
def Obligations.ChecksumRoundTrip : Prop :=
  ∀ (s : State) (ds : List Digit), s.Inv → s.ready = true → s.sovf = false → s.slen.toNat = s.m.toNat →
    Spells s ds (seqSymbols s s.m.toNat) →
    ∃ a b u, exec (.csum false) s = .next a ∧
      a.responses = s.responses ++ [responseWord 0#8 (a.rsym.setWidth 48)] ∧
      exec (.lds a.rsym) a = .next b ∧ exec .vrfy b = .next u ∧
      u.responses = b.responses ++ [0x0000000000000001#64] ∧ u.valid = true ∧
      ∀ x : Sym, x ≠ a.rsym → ∀ b' u', exec (.lds x) a = .next b' → exec .vrfy b' = .next u' →
        u'.responses ≠ b'.responses ++ [0x0000000000000001#64]

/-- 47_laws.md R222, an inference the spec marks as its own, of the document's "for all valid checked sequences `s` and all
positions `j`, replacing `s[j]` with any other alphabet symbol makes `verify` false". -/
def Obligations.SingleSubstitutionIsDetected : Prop :=
  ∀ (s : State) (orig : List Digit) (j : Nat) (d : Digit), s.Inv → AreDigits s.k.toNat orig →
    orig.length = s.m.toNat + 1 → engineFold s orig = 0#33 → j ≤ s.m.toNat → d.toNat < 2 ^ s.k.toNat →
    d ≠ orig.getD j 0#32 → HoldsChecked s (orig.set j d) →
    ∃ t, exec .vrfy s = .next t ∧ t.responses = s.responses ++ [0x0000000000000000#64] ∧ t.valid = false

/-- 47_laws.md R223, an inference the spec marks as its own, of the document's "for all valid checked sequences `s` and all
adjacent positions `(j, j+1)` with `s[j] ≠ s[j+1]`, swapping them makes `verify` false". It needs odd weight. -/
def Obligations.AdjacentTranspositionIsDetected : Prop :=
  ∀ (s : State) (orig : List Digit) (j : Nat), s.Inv → OddWeight s.mask → AreDigits s.k.toNat orig →
    orig.length = s.m.toNat + 1 → engineFold s orig = 0#33 → j < s.m.toNat →
    orig.getD j 0#32 ≠ orig.getD (j + 1) 0#32 → HoldsChecked s (swapTrial orig j) →
    ∃ t, exec .vrfy s = .next t ∧ t.responses = s.responses ++ [0x0000000000000000#64] ∧ t.valid = false

/-! ### Whole-machine properties -/

/-- 10_state.md R50, an inference the spec marks as its own ("The following hold in every reachable state"): every step
keeps the invariant, from every state that meets it. -/
def Obligations.EveryStepKeepsTheInvariant : Prop :=
  ∀ s t : State, s.Inv → step s = .next t → t.Inv

/-- The invariant holds after reset, on every instance. -/
def Obligations.ResetMeetsTheInvariant : Prop :=
  (∀ p : Params, p.wf = true → (State.resetOf p).Inv) ∧ State.reset.Inv

/-- From every state that meets the invariant the step is a next state: the step function is total (60_exceptions.md R240)
and the datapath's own accesses are always in range (20_memory.md R63). -/
def Obligations.NoStepFaultsUnderTheInvariant : Prop :=
  ∀ s : State, s.Inv → ∃ t, step s = .next t

/-- 10_state.md R20, R42, R43, R44: what an entry outside the readable ranges holds, and so what memory holds after reset,
cannot be observed: two states that agree on everything readable step to states that agree, responses included. It makes
the model's choice of what an unwritten entry reads as harmless (notes/assumptions/6.md). -/
def Obligations.UnreadableEntriesAreUnobservable : Prop :=
  ∀ s t s' : State, s.Inv → t.Inv → s.Agree t → step s = .next s' → ∃ t', step t = .next t' ∧ s'.Agree t'

/-- 10_state.md R20, the column "written by", and R52: which commands may write each flag, register and memory; LASTERR,
ESTICKY and ERRINFO are written by a `raise`, then with all that it does (60_exceptions.md R253, R254), and by CLRE alone.
No command writes the parameters or the host's inputs, and only GEN takes random words (44_generate.md R166). -/
def Obligations.OnlyTheNamedCommandsWrite : Prop :=
  ∀ (i : Instr) (s t : State), exec i s = .next t →
    t.params = s.params ∧ t.host = s.host ∧
    (i.mnemonic ∉ ["INIT", "FREE"] → t.ready = s.ready ∧ t.k = s.k ∧ t.m = s.m ∧ t.mask = s.mask) ∧
    (i.mnemonic ∉ ["LDA", "CLRA"] → t.aovf = s.aovf ∧ t.alen = s.alen) ∧
    (i.mnemonic ∉ ["LDS", "CLRS", "GEN"] → t.sovf = s.sovf ∧ t.slen = s.slen) ∧
    (i.mnemonic ∉ ["VRFY", "FREE"] → t.valid = s.valid) ∧
    (i.mnemonic ∉ ["CORR", "FREE"] → t.cvalid = s.cvalid ∧ t.ncand = s.ncand) ∧
    (i.mnemonic ∉ ["CSUM", "VRFY", "GEN", "FREE"] → t.rdig = s.rdig ∧ t.rsym = s.rsym) ∧
    (i.mnemonic ≠ "CLRE" →
      (t.lasterr = s.lasterr ∧ t.esticky = s.esticky ∧ t.errinfo = s.errinfo) ∨ ∃ e info, t = raise e info s) ∧
    (i.mnemonic ≠ "LDA" → ∀ a, t.alpha.read a = s.alpha.read a) ∧
    (i.mnemonic ∉ ["LDS", "GEN"] → ∀ a, t.seq.read a = s.seq.read a) ∧
    (i.mnemonic ≠ "CORR" → ∀ a, t.cand.read a = s.cand.read a) ∧
    (i.mnemonic ≠ "GEN" → t.rand = s.rand ∧ t.busy = s.busy)

/-- 30_encoding.md R98 with 70_reset_and_hazards.md R273: CONSTRUCT k, m on a list of exactly 2^k distinct symbols ends with
an engine whose alphabet is the list, from every state that meets the invariant. Beside it the other seven: LOADALPHA is
turned away while an engine exists, and else, as LOADSEQ, leaves the list in its memory as far as it fits; CHECKSUM and
VERIFY end as CSUM and VRFY after LOADSEQ; CORRECT and GENERATE end as CORR and GEN, and when those succeed the trailing
reads answer the candidates and the sequence; BUILDMASK is MKMASK. The form of `runPseudo`, with its stop at a GEN that
waits, is the model's choice (notes/assumptions/15.md). -/
def Obligations.ConstructBuildsTheEngine : Prop :=
  ∀ s : State, s.Inv → s.busy = false →
    (∀ (k : BitVec 8) (m : BitVec 16) (xs : List Sym) (mask : Acc),
      buildMask s.params k.toNat = some mask → 1 ≤ m.toNat → m.toNat ≤ s.params.mmax → xs.length = 2 ^ k.toNat →
      xs.Nodup →
      ∃ t, runPseudo (.construct k m xs) s = .next t ∧ t.ready = true ∧ t.k.toNat = k.toNat ∧ t.m = m ∧ t.mask = mask ∧
        (∀ i < 2 ^ k.toNat, t.alpha.read i = xs.getD i 0#32) ∧ t.seq = s.seq ∧ t.slen = s.slen ∧
        t.responses.getLast? = some (responseWord 0#8 (mask.setWidth 48))) ∧
    (∀ xs : List Sym, s.ready = true → runPseudo (.loadAlpha xs) s = .next (raise .locked 0#48 s)) ∧
    (∀ xs : List Sym, s.ready = false →
      ∃ t, runPseudo (.loadAlpha xs) s = .next t ∧ t.alen.toNat = min xs.length (alphaSize s.params) ∧
        t.aovf = decide (alphaSize s.params < xs.length) ∧
        (∀ i < min xs.length (alphaSize s.params), t.alpha.read i = xs.getD i 0#32) ∧
        t = { s with
          alpha := t.alpha, alen := t.alen, aovf := t.aovf
          responses := s.responses ++ loadResponses xs.length (alphaSize s.params) }) ∧
    (∀ xs : List Sym, ∃ t, runPseudo (.loadSeq xs) s = .next t ∧ t.slen.toNat = min xs.length (seqSize s.params) ∧
      t.sovf = decide (seqSize s.params < xs.length) ∧
      (∀ p < min xs.length (seqSize s.params), t.seq.read p = xs.getD p 0#32) ∧
      t = { s with
        seq := t.seq, slen := t.slen, sovf := t.sovf
        responses := s.responses ++ loadResponses xs.length (seqSize s.params) } ∧
      (∀ ic, runPseudo (.checksum xs ic) s = exec (.csum ic) t) ∧
      runPseudo (.verify xs) s = exec .vrfy t ∧
      ∀ u, exec .corr t = .next u →
        runPseudo (.correct xs) s =
          .next (if lastStatus u = 0#8 then
            { u with
              responses := u.responses ++ symbolResponses ((List.range u.ncand.toNat).flatMap (candRecord u)) }
            else u)) ∧
    (∀ u, exec .gen s = .next u →
      runPseudo .generate s =
        .next (if u.busy = true ∨ lastStatus u ≠ 0#8 then u
          else { u with responses := u.responses ++ symbolResponses (seqSymbols u (u.m.toNat + 1)) })) ∧
    ∀ k : BitVec 8, runPseudo (.buildMask k) s = exec (.mkmask k) s
end

