-- ==== Sys2Proof/Laws/Decode.lean ====
section
/-! SUPPORT. The decoder opcode by opcode, so that no later proof unfolds the whole opcode map (30_encoding.md R89). -/

namespace Sys2Proof

theorem ifReservedZero_ok {w : Word64} {lo len : Nat} {i j : Instr} :
    ifReservedZero w lo len i = .ok j ↔ w.extractLsb' lo len = 0#len ∧ j = i := by
  unfold ifReservedZero
  split <;> simp_all [eq_comm]

theorem ifReservedZero_error {w : Word64} {lo len : Nat} {i : Instr} {e : Illegal} :
    ifReservedZero w lo len i = .error e ↔ w.extractLsb' lo len ≠ 0#len ∧ e = .reservedBit := by
  unfold ifReservedZero
  split <;> simp_all [eq_comm]

theorem decode_nop {w : Word64} (h : opcodeField w = 0x00#8) : decode w = formatN w .nop := by
  unfold decode
  rw [h]
  rfl

theorem decode_clra {w : Word64} (h : opcodeField w = 0x01#8) : decode w = formatN w .clra := by
  unfold decode
  rw [h]
  rfl

theorem decode_lda {w : Word64} (h : opcodeField w = 0x02#8) : decode w = formatS w (.lda (symField w)) := by
  unfold decode
  rw [h]
  rfl

theorem decode_init {w : Word64} (h : opcodeField w = 0x03#8) : decode w = formatC w (.init (kField w) (mField w)) := by
  unfold decode
  rw [h]
  rfl

theorem decode_free {w : Word64} (h : opcodeField w = 0x04#8) : decode w = formatN w .free := by
  unfold decode
  rw [h]
  rfl

theorem decode_mkmask {w : Word64} (h : opcodeField w = 0x05#8) : decode w = formatK w (.mkmask (kField w)) := by
  unfold decode
  rw [h]
  rfl

theorem decode_clrs {w : Word64} (h : opcodeField w = 0x08#8) : decode w = formatN w .clrs := by
  unfold decode
  rw [h]
  rfl

theorem decode_lds {w : Word64} (h : opcodeField w = 0x09#8) : decode w = formatS w (.lds (symField w)) := by
  unfold decode
  rw [h]
  rfl

theorem decode_csum {w : Word64} (h : opcodeField w = 0x0A#8) : decode w = formatF w (.csum (icField w)) := by
  unfold decode
  rw [h]
  rfl

theorem decode_vrfy {w : Word64} (h : opcodeField w = 0x0B#8) : decode w = formatN w .vrfy := by
  unfold decode
  rw [h]
  rfl

theorem decode_gen {w : Word64} (h : opcodeField w = 0x0C#8) : decode w = formatN w .gen := by
  unfold decode
  rw [h]
  rfl

theorem decode_corr {w : Word64} (h : opcodeField w = 0x0D#8) : decode w = formatN w .corr := by
  unfold decode
  rw [h]
  rfl

theorem decode_rdr {w : Word64} (h : opcodeField w = 0x10#8) : decode w = formatS w (.rdr (idx1Field w)) := by
  unfold decode
  rw [h]
  rfl

theorem decode_rda {w : Word64} (h : opcodeField w = 0x11#8) : decode w = formatS w (.rda (idx1Field w)) := by
  unfold decode
  rw [h]
  rfl

theorem decode_rds {w : Word64} (h : opcodeField w = 0x12#8) : decode w = formatS w (.rds (idx1Field w)) := by
  unfold decode
  rw [h]
  rfl

theorem decode_rdc {w : Word64} (h : opcodeField w = 0x13#8) : decode w = (.ok (.rdc (idx2Field w) (idx1Field w)) : Except Illegal Instr) := by
  unfold decode
  rw [h]
  rfl

theorem decode_clre {w : Word64} (h : opcodeField w = 0x1F#8) : decode w = formatN w .clre := by
  unfold decode
  rw [h]
  rfl

/-- The seventeen opcodes (30_encoding.md R89). -/
def opcodes : List (BitVec 8) :=
  [0x00#8, 0x01#8, 0x02#8, 0x03#8, 0x04#8, 0x05#8, 0x08#8, 0x09#8, 0x0A#8,
   0x0B#8, 0x0C#8, 0x0D#8, 0x10#8, 0x11#8, 0x12#8, 0x13#8, 0x1F#8]

theorem decode_unknown {w : Word64} (h : opcodeField w ∉ opcodes) : decode w = .error .unknownOpcode := by
  simp only [opcodes, List.mem_cons, List.not_mem_nil, or_false, not_or] at h
  unfold decode
  simp only [if_neg h.1, h.2]
  rfl

end Sys2Proof
end

