-- ==== Sys2Proof/Laws/Memory.lean ====
section
/-! SUPPORT. The laws of a memory of entries: a read after a write, the canonical form that every write keeps, and the
extent of the memory. -/

namespace Sys2Proof.Machine

theorem Memory.wf_iff (mem : Memory) :
    mem.wf = true ↔ mem.Pairwise (fun c d => c.1 < d.1) ∧ ∀ c ∈ mem, c.2 ≠ unwrittenEntry := by
  simp [Memory.wf]

theorem Memory.below_iff (mem : Memory) (n : Nat) : mem.below n = true ↔ ∀ c ∈ mem, c.1 < n := by
  simp [Memory.below]

@[simp] theorem Memory.wf_nil : Memory.wf [] = true := rfl

@[simp] theorem Memory.below_nil (n : Nat) : Memory.below [] n = true := rfl

@[simp] theorem Memory.read_nil (i : Nat) : Memory.read [] i = unwrittenEntry := rfl

/-- An index below every listed one is not listed. -/
theorem Memory.read_of_lt {mem : Memory} {i : Nat} (h : ∀ c ∈ mem, i < c.1) : mem.read i = unwrittenEntry := by
  induction mem with
  | nil => rfl
  | cons c rest ih =>
    obtain ⟨a, x⟩ := c
    have ha : i < a := h (a, x) (by simp)
    rw [Memory.read, if_neg (by omega)]
    exact ih fun c hc => h c (by simp [hc])

theorem Memory.mem_write {mem : Memory} {i : Nat} {v : Sym} {c : Nat × Sym} (h : c ∈ mem.write i v) :
    c ∈ mem ∨ (c = (i, v) ∧ v ≠ unwrittenEntry) := by
  induction mem with
  | nil =>
    rw [Memory.write] at h
    split at h
    · exact absurd h (by simp)
    · exact .inr ⟨by simpa using h, by assumption⟩
  | cons d rest ih =>
    obtain ⟨a, x⟩ := d
    rw [Memory.write] at h
    split at h
    · split at h
      · exact .inl h
      · rcases List.mem_cons.mp h with rfl | h
        · exact .inr ⟨rfl, by assumption⟩
        · exact .inl h
    · split at h
      · split at h
        · exact .inl (by simp [h])
        · rcases List.mem_cons.mp h with rfl | h
          · exact .inr ⟨rfl, by assumption⟩
          · exact .inl (by simp [h])
      · rcases List.mem_cons.mp h with rfl | h
        · exact .inl (by simp)
        · rcases ih h with h | h
          · exact .inl (by simp [h])
          · exact .inr h

/-- Every write keeps the canonical form. -/
theorem Memory.wf_write {mem : Memory} (h : mem.wf = true) (i : Nat) (v : Sym) : (mem.write i v).wf = true := by
  rw [Memory.wf_iff] at h ⊢
  obtain ⟨hs, hz⟩ := h
  refine ⟨?_, fun c hc => ?_⟩
  · clear hz
    induction mem with
    | nil => rw [Memory.write]; split <;> simp
    | cons d rest ih =>
      obtain ⟨a, x⟩ := d
      have hr := (List.pairwise_cons.mp hs).2
      have ha := (List.pairwise_cons.mp hs).1
      rw [Memory.write]
      split
      · split
        · exact hs
        · refine List.pairwise_cons.mpr ⟨fun c hc => ?_, hs⟩
          rcases List.mem_cons.mp hc with rfl | hc
          · assumption
          · have := ha c hc; simp only at this ⊢; omega
      · split
        · split
          · exact hr
          · refine List.pairwise_cons.mpr ⟨fun c hc => ?_, hr⟩
            have := ha c hc; simp only at this ⊢; omega
        · refine List.pairwise_cons.mpr ⟨fun c hc => ?_, ih hr⟩
          rcases Memory.mem_write hc with hc | ⟨rfl, -⟩
          · exact ha c hc
          · simp only; omega
  · rcases Memory.mem_write hc with hc | ⟨rfl, hv⟩
    · exact hz c hc
    · exact hv

/-- A write inside the memory keeps every listed index inside it. -/
theorem Memory.below_write {mem : Memory} {n : Nat} (h : mem.below n = true) {i : Nat} (hi : i < n) (v : Sym) :
    (mem.write i v).below n = true := by
  rw [Memory.below_iff] at h ⊢
  intro c hc
  rcases Memory.mem_write hc with hc | ⟨rfl, -⟩
  · exact h c hc
  · exact hi

/-- A read after a write: the value written at that index, the old value elsewhere. -/
theorem Memory.read_write {mem : Memory} (h : mem.wf = true) (i j : Nat) (v : Sym) :
    (mem.write i v).read j = if j = i then v else mem.read j := by
  have hs := ((Memory.wf_iff mem).mp h).1
  clear h
  induction mem with
  | nil =>
    rw [Memory.write]
    split
    · rename_i hv; subst hv; simp
    · by_cases hij : i = j
      · subst hij; simp [Memory.read]
      · simp [Memory.read, hij, Ne.symm hij]
  | cons d rest ih =>
    obtain ⟨a, x⟩ := d
    have hr := (List.pairwise_cons.mp hs).2
    have ha := (List.pairwise_cons.mp hs).1
    have hlow : ∀ k, k < a → Memory.read ((a, x) :: rest) k = unwrittenEntry := fun k hk =>
      Memory.read_of_lt fun c hc => by
        rcases List.mem_cons.mp hc with rfl | hc
        · exact hk
        · have := ha c hc; simp only at this; omega
    rw [Memory.write]
    split
    · rename_i hia
      split
      · rename_i hv
        split
        · rename_i hji; subst hji; rw [hlow j hia, hv]
        · rfl
      · rw [Memory.read]
        by_cases hij : i = j
        · subst hij; simp
        · rw [if_neg hij, if_neg (Ne.symm hij)]
    · split
      · rename_i hia
        subst hia
        split
        · rename_i hv
          split
          · rename_i hji
            subst hji
            rw [hv]
            exact Memory.read_of_lt fun c hc => by have := ha c hc; simpa using this
          · rename_i hji
            rw [Memory.read, if_neg (Ne.symm hji)]
        · simp only [Memory.read]
          by_cases hij : i = j
          · subst hij; simp
          · rw [if_neg hij, if_neg (Ne.symm hij), if_neg hij]
      · simp only [Memory.read]
        by_cases haj : a = j
        · subst haj; rw [if_pos rfl, if_pos rfl, if_neg (by omega)]
        · rw [if_neg haj, if_neg haj, ih hr]

theorem Memory.wf_writeList {mem : Memory} (h : mem.wf = true) (base : Nat) (xs : List Sym) :
    (mem.writeList base xs).wf = true := by
  induction xs generalizing mem base with
  | nil => exact h
  | cons x xs ih => exact ih (Memory.wf_write h base x) (base + 1)

theorem Memory.below_writeList {mem : Memory} {n : Nat} (h : mem.below n = true) {base : Nat} {xs : List Sym}
    (hn : base + xs.length ≤ n) : (mem.writeList base xs).below n = true := by
  induction xs generalizing mem base with
  | nil => exact h
  | cons x xs ih =>
    simp only [List.length_cons] at hn
    exact ih (Memory.below_write h (by omega) x) (by omega)

/-- A read after a list of writes at consecutive indices. -/
theorem Memory.read_writeList {mem : Memory} (h : mem.wf = true) (base : Nat) (xs : List Sym) (j : Nat) :
    (mem.writeList base xs).read j =
      if base ≤ j ∧ j < base + xs.length then xs.getD (j - base) 0#32 else mem.read j := by
  induction xs generalizing mem base with
  | nil => rw [if_neg (by simp only [List.length_nil]; omega)]; rfl
  | cons x xs ih =>
    rw [Memory.writeList, ih (Memory.wf_write h base x), Memory.read_write h]
    simp only [List.length_cons]
    by_cases hj : j = base
    · subst hj
      rw [if_neg (by omega), if_pos rfl, if_pos (by omega)]
      simp
    · by_cases hin : base + 1 ≤ j ∧ j < base + 1 + xs.length
      · rw [if_pos hin, if_pos (by omega)]
        have : j - base = (j - (base + 1)) + 1 := by omega
        rw [this, List.getD_cons_succ]
      · rw [if_neg hin, if_neg hj, if_neg (by omega)]

@[simp] theorem Memory.length_readList (mem : Memory) (base n : Nat) : (mem.readList base n).length = n := by
  simp [Memory.readList]

theorem Memory.getD_readList (mem : Memory) (base n p : Nat) (hp : p < n) :
    (mem.readList base n).getD p 0#32 = mem.read (base + p) := by
  simp [Memory.readList, List.getD, hp]

/-- The records of a list, each of MMAX + 1 entries at most, inside CAND. -/
theorem wf_writeRecords {p : Params} {mem : Memory} (h : mem.wf = true) (c : Nat) (rs : List (List Sym)) :
    (writeRecords p mem c rs).wf = true := by
  induction rs generalizing mem c with
  | nil => exact h
  | cons r rs ih => exact ih (Memory.wf_writeList h _ r) (c + 1)

theorem below_writeRecords {p : Params} {mem : Memory} {n : Nat}
    (h : mem.below (n * seqSize p) = true) (c : Nat) (rs : List (List Sym))
    (hr : ∀ r ∈ rs, r.length ≤ seqSize p) (hc : c + rs.length ≤ n) :
    (writeRecords p mem c rs).below (n * seqSize p) = true := by
  induction rs generalizing mem c with
  | nil => exact h
  | cons r rs ih =>
    simp only [List.length_cons] at hc
    refine ih (Memory.below_writeList h ?_) (c + 1) (fun r hr' => hr r (by simp [hr'])) (by omega)
    have h1 := hr r (by simp)
    have h2 : (c + 1) * seqSize p ≤ n * seqSize p := Nat.mul_le_mul_right _ (by omega)
    have h3 : candKey p c 0 = c * seqSize p := rfl
    rw [Nat.succ_mul] at h2
    rw [h3]
    omega

/-- A read of CAND after the records of a list are written from record `c` on. -/
theorem read_writeRecords {p : Params} {mem : Memory} (h : mem.wf = true) (c : Nat) (rs : List (List Sym))
    (hr : ∀ r ∈ rs, r.length ≤ seqSize p) (c' e : Nat) (he : e < seqSize p) :
    (writeRecords p mem c rs).read (candKey p c' e) =
      if c ≤ c' ∧ c' < c + rs.length ∧ e < (rs.getD (c' - c) []).length then
        (rs.getD (c' - c) []).getD e 0#32
      else mem.read (candKey p c' e) := by
  have key : ∀ a b e f, e < seqSize p → f < seqSize p → a < b → candKey p a e < candKey p b f := by
    intro a b e f he hf hab
    have h1 : (a + 1) * seqSize p ≤ b * seqSize p := Nat.mul_le_mul_right _ hab
    rw [Nat.succ_mul] at h1
    simp only [candKey, seqSize] at *
    omega
  induction rs generalizing mem c with
  | nil => rw [if_neg (by simp only [List.length_nil]; omega)]; rfl
  | cons r rs ih =>
    have hlr := hr r (by simp)
    have hwf := Memory.wf_writeList h (candKey p c 0) r
    rw [writeRecords, ih hwf (c + 1) (fun r hr' => hr r (by simp [hr'])), Memory.read_writeList h]
    simp only [List.length_cons]
    have k0 : candKey p c 0 + r.length ≤ candKey p c 0 + seqSize p := by omega
    rcases Nat.lt_trichotomy c' c with hlt | heq | hgt
    · have := key c' c e 0 he (by simp [seqSize]) hlt
      rw [if_neg (by omega), if_neg (by omega), if_neg (by omega)]
    · subst heq
      have hk : candKey p c' e = candKey p c' 0 + e := by simp [candKey]
      rw [if_neg (by omega)]
      simp only [Nat.sub_self, List.getD_cons_zero]
      by_cases hel : e < r.length
      · rw [if_pos (by omega), if_pos (by omega), hk, Nat.add_sub_cancel_left]
      · rw [if_neg (by omega), if_neg (by omega)]
    · have h1 : candKey p c 0 + seqSize p ≤ candKey p c' e := by
        have h1 : (c + 1) * seqSize p ≤ c' * seqSize p := Nat.mul_le_mul_right _ hgt
        rw [Nat.succ_mul] at h1
        simp only [candKey, seqSize] at *
        omega
      have h2 : c' - c = (c' - (c + 1)) + 1 := by omega
      rw [h2, List.getD_cons_succ]
      by_cases hin : c + 1 ≤ c' ∧ c' < c + 1 + rs.length ∧ e < (rs.getD (c' - (c + 1)) []).length
      · rw [if_pos hin, if_pos (by omega)]
      · rw [if_neg hin, if_neg (by omega), if_neg (by omega)]

end Sys2Proof.Machine
end

