-- ==== Sys2Proof/Laws/State.lean ====
section
/-! SUPPORT. The small lemmas of State: one per field per update, true by rfl, so that no later proof unfolds a record
update. -/

namespace Sys2Proof.Machine

/-! ### respond -/

@[simp] theorem respond_params (v : Value) (s : State) : (respond v s).params = s.params := rfl
@[simp] theorem respond_ready (v : Value) (s : State) : (respond v s).ready = s.ready := rfl
@[simp] theorem respond_aovf (v : Value) (s : State) : (respond v s).aovf = s.aovf := rfl
@[simp] theorem respond_sovf (v : Value) (s : State) : (respond v s).sovf = s.sovf := rfl
@[simp] theorem respond_valid (v : Value) (s : State) : (respond v s).valid = s.valid := rfl
@[simp] theorem respond_cvalid (v : Value) (s : State) : (respond v s).cvalid = s.cvalid := rfl
@[simp] theorem respond_k (v : Value) (s : State) : (respond v s).k = s.k := rfl
@[simp] theorem respond_m (v : Value) (s : State) : (respond v s).m = s.m := rfl
@[simp] theorem respond_mask (v : Value) (s : State) : (respond v s).mask = s.mask := rfl
@[simp] theorem respond_alen (v : Value) (s : State) : (respond v s).alen = s.alen := rfl
@[simp] theorem respond_slen (v : Value) (s : State) : (respond v s).slen = s.slen := rfl
@[simp] theorem respond_ncand (v : Value) (s : State) : (respond v s).ncand = s.ncand := rfl
@[simp] theorem respond_lasterr (v : Value) (s : State) : (respond v s).lasterr = s.lasterr := rfl
@[simp] theorem respond_esticky (v : Value) (s : State) : (respond v s).esticky = s.esticky := rfl
@[simp] theorem respond_errinfo (v : Value) (s : State) : (respond v s).errinfo = s.errinfo := rfl
@[simp] theorem respond_rdig (v : Value) (s : State) : (respond v s).rdig = s.rdig := rfl
@[simp] theorem respond_rsym (v : Value) (s : State) : (respond v s).rsym = s.rsym := rfl
@[simp] theorem respond_alpha (v : Value) (s : State) : (respond v s).alpha = s.alpha := rfl
@[simp] theorem respond_seq (v : Value) (s : State) : (respond v s).seq = s.seq := rfl
@[simp] theorem respond_cand (v : Value) (s : State) : (respond v s).cand = s.cand := rfl
@[simp] theorem respond_busy (v : Value) (s : State) : (respond v s).busy = s.busy := rfl
@[simp] theorem respond_host (v : Value) (s : State) : (respond v s).host = s.host := rfl
@[simp] theorem respond_rand (v : Value) (s : State) : (respond v s).rand = s.rand := rfl
@[simp] theorem respond_responses (v : Value) (s : State) : (respond v s).responses = s.responses ++ [responseWord 0#8 v] := rfl

/-! ### raise -/

@[simp] theorem raise_params (e : ErrorCode) (info : Value) (s : State) : (raise e info s).params = s.params := rfl
@[simp] theorem raise_ready (e : ErrorCode) (info : Value) (s : State) : (raise e info s).ready = s.ready := rfl
@[simp] theorem raise_aovf (e : ErrorCode) (info : Value) (s : State) : (raise e info s).aovf = s.aovf := rfl
@[simp] theorem raise_sovf (e : ErrorCode) (info : Value) (s : State) : (raise e info s).sovf = s.sovf := rfl
@[simp] theorem raise_valid (e : ErrorCode) (info : Value) (s : State) : (raise e info s).valid = s.valid := rfl
@[simp] theorem raise_cvalid (e : ErrorCode) (info : Value) (s : State) : (raise e info s).cvalid = s.cvalid := rfl
@[simp] theorem raise_k (e : ErrorCode) (info : Value) (s : State) : (raise e info s).k = s.k := rfl
@[simp] theorem raise_m (e : ErrorCode) (info : Value) (s : State) : (raise e info s).m = s.m := rfl
@[simp] theorem raise_mask (e : ErrorCode) (info : Value) (s : State) : (raise e info s).mask = s.mask := rfl
@[simp] theorem raise_alen (e : ErrorCode) (info : Value) (s : State) : (raise e info s).alen = s.alen := rfl
@[simp] theorem raise_slen (e : ErrorCode) (info : Value) (s : State) : (raise e info s).slen = s.slen := rfl
@[simp] theorem raise_ncand (e : ErrorCode) (info : Value) (s : State) : (raise e info s).ncand = s.ncand := rfl
@[simp] theorem raise_lasterr (e : ErrorCode) (info : Value) (s : State) : (raise e info s).lasterr = errorCode e := rfl
@[simp] theorem raise_esticky (e : ErrorCode) (info : Value) (s : State) : (raise e info s).esticky = s.esticky ||| (1#16 <<< (errorCode e).toNat) := rfl
@[simp] theorem raise_errinfo (e : ErrorCode) (info : Value) (s : State) : (raise e info s).errinfo = info := rfl
@[simp] theorem raise_rdig (e : ErrorCode) (info : Value) (s : State) : (raise e info s).rdig = s.rdig := rfl
@[simp] theorem raise_rsym (e : ErrorCode) (info : Value) (s : State) : (raise e info s).rsym = s.rsym := rfl
@[simp] theorem raise_alpha (e : ErrorCode) (info : Value) (s : State) : (raise e info s).alpha = s.alpha := rfl
@[simp] theorem raise_seq (e : ErrorCode) (info : Value) (s : State) : (raise e info s).seq = s.seq := rfl
@[simp] theorem raise_cand (e : ErrorCode) (info : Value) (s : State) : (raise e info s).cand = s.cand := rfl
@[simp] theorem raise_busy (e : ErrorCode) (info : Value) (s : State) : (raise e info s).busy = s.busy := rfl
@[simp] theorem raise_host (e : ErrorCode) (info : Value) (s : State) : (raise e info s).host = s.host := rfl
@[simp] theorem raise_rand (e : ErrorCode) (info : Value) (s : State) : (raise e info s).rand = s.rand := rfl
@[simp] theorem raise_responses (e : ErrorCode) (info : Value) (s : State) : (raise e info s).responses = s.responses ++ [responseWord (errorCode e) info] := rfl

/-! ### setResult -/

@[simp] theorem setResult_params (acc : Acc) (s : State) : (setResult acc s).params = s.params := rfl
@[simp] theorem setResult_ready (acc : Acc) (s : State) : (setResult acc s).ready = s.ready := rfl
@[simp] theorem setResult_aovf (acc : Acc) (s : State) : (setResult acc s).aovf = s.aovf := rfl
@[simp] theorem setResult_sovf (acc : Acc) (s : State) : (setResult acc s).sovf = s.sovf := rfl
@[simp] theorem setResult_valid (acc : Acc) (s : State) : (setResult acc s).valid = s.valid := rfl
@[simp] theorem setResult_cvalid (acc : Acc) (s : State) : (setResult acc s).cvalid = s.cvalid := rfl
@[simp] theorem setResult_k (acc : Acc) (s : State) : (setResult acc s).k = s.k := rfl
@[simp] theorem setResult_m (acc : Acc) (s : State) : (setResult acc s).m = s.m := rfl
@[simp] theorem setResult_mask (acc : Acc) (s : State) : (setResult acc s).mask = s.mask := rfl
@[simp] theorem setResult_alen (acc : Acc) (s : State) : (setResult acc s).alen = s.alen := rfl
@[simp] theorem setResult_slen (acc : Acc) (s : State) : (setResult acc s).slen = s.slen := rfl
@[simp] theorem setResult_ncand (acc : Acc) (s : State) : (setResult acc s).ncand = s.ncand := rfl
@[simp] theorem setResult_lasterr (acc : Acc) (s : State) : (setResult acc s).lasterr = s.lasterr := rfl
@[simp] theorem setResult_esticky (acc : Acc) (s : State) : (setResult acc s).esticky = s.esticky := rfl
@[simp] theorem setResult_errinfo (acc : Acc) (s : State) : (setResult acc s).errinfo = s.errinfo := rfl
@[simp] theorem setResult_rdig (acc : Acc) (s : State) : (setResult acc s).rdig = acc.setWidth 32 := rfl
@[simp] theorem setResult_rsym (acc : Acc) (s : State) : (setResult acc s).rsym = symbolOfAcc s acc := rfl
@[simp] theorem setResult_alpha (acc : Acc) (s : State) : (setResult acc s).alpha = s.alpha := rfl
@[simp] theorem setResult_seq (acc : Acc) (s : State) : (setResult acc s).seq = s.seq := rfl
@[simp] theorem setResult_cand (acc : Acc) (s : State) : (setResult acc s).cand = s.cand := rfl
@[simp] theorem setResult_busy (acc : Acc) (s : State) : (setResult acc s).busy = s.busy := rfl
@[simp] theorem setResult_host (acc : Acc) (s : State) : (setResult acc s).host = s.host := rfl
@[simp] theorem setResult_rand (acc : Acc) (s : State) : (setResult acc s).rand = s.rand := rfl
@[simp] theorem setResult_responses (acc : Acc) (s : State) : (setResult acc s).responses = s.responses := rfl

/-! ### startEngine -/

@[simp] theorem startEngine_params (kk : BitVec 8) (mm : BitVec 16) (mask : Acc) (s : State) : (startEngine kk mm mask s).params = s.params := rfl
@[simp] theorem startEngine_ready (kk : BitVec 8) (mm : BitVec 16) (mask : Acc) (s : State) : (startEngine kk mm mask s).ready = true := rfl
@[simp] theorem startEngine_aovf (kk : BitVec 8) (mm : BitVec 16) (mask : Acc) (s : State) : (startEngine kk mm mask s).aovf = s.aovf := rfl
@[simp] theorem startEngine_sovf (kk : BitVec 8) (mm : BitVec 16) (mask : Acc) (s : State) : (startEngine kk mm mask s).sovf = s.sovf := rfl
@[simp] theorem startEngine_valid (kk : BitVec 8) (mm : BitVec 16) (mask : Acc) (s : State) : (startEngine kk mm mask s).valid = s.valid := rfl
@[simp] theorem startEngine_cvalid (kk : BitVec 8) (mm : BitVec 16) (mask : Acc) (s : State) : (startEngine kk mm mask s).cvalid = s.cvalid := rfl
@[simp] theorem startEngine_k (kk : BitVec 8) (mm : BitVec 16) (mask : Acc) (s : State) : (startEngine kk mm mask s).k = kk.setWidth 6 := rfl
@[simp] theorem startEngine_m (kk : BitVec 8) (mm : BitVec 16) (mask : Acc) (s : State) : (startEngine kk mm mask s).m = mm := rfl
@[simp] theorem startEngine_mask (kk : BitVec 8) (mm : BitVec 16) (mask : Acc) (s : State) : (startEngine kk mm mask s).mask = mask := rfl
@[simp] theorem startEngine_alen (kk : BitVec 8) (mm : BitVec 16) (mask : Acc) (s : State) : (startEngine kk mm mask s).alen = s.alen := rfl
@[simp] theorem startEngine_slen (kk : BitVec 8) (mm : BitVec 16) (mask : Acc) (s : State) : (startEngine kk mm mask s).slen = s.slen := rfl
@[simp] theorem startEngine_ncand (kk : BitVec 8) (mm : BitVec 16) (mask : Acc) (s : State) : (startEngine kk mm mask s).ncand = s.ncand := rfl
@[simp] theorem startEngine_lasterr (kk : BitVec 8) (mm : BitVec 16) (mask : Acc) (s : State) : (startEngine kk mm mask s).lasterr = s.lasterr := rfl
@[simp] theorem startEngine_esticky (kk : BitVec 8) (mm : BitVec 16) (mask : Acc) (s : State) : (startEngine kk mm mask s).esticky = s.esticky := rfl
@[simp] theorem startEngine_errinfo (kk : BitVec 8) (mm : BitVec 16) (mask : Acc) (s : State) : (startEngine kk mm mask s).errinfo = s.errinfo := rfl
@[simp] theorem startEngine_rdig (kk : BitVec 8) (mm : BitVec 16) (mask : Acc) (s : State) : (startEngine kk mm mask s).rdig = s.rdig := rfl
@[simp] theorem startEngine_rsym (kk : BitVec 8) (mm : BitVec 16) (mask : Acc) (s : State) : (startEngine kk mm mask s).rsym = s.rsym := rfl
@[simp] theorem startEngine_alpha (kk : BitVec 8) (mm : BitVec 16) (mask : Acc) (s : State) : (startEngine kk mm mask s).alpha = s.alpha := rfl
@[simp] theorem startEngine_seq (kk : BitVec 8) (mm : BitVec 16) (mask : Acc) (s : State) : (startEngine kk mm mask s).seq = s.seq := rfl
@[simp] theorem startEngine_cand (kk : BitVec 8) (mm : BitVec 16) (mask : Acc) (s : State) : (startEngine kk mm mask s).cand = s.cand := rfl
@[simp] theorem startEngine_busy (kk : BitVec 8) (mm : BitVec 16) (mask : Acc) (s : State) : (startEngine kk mm mask s).busy = s.busy := rfl
@[simp] theorem startEngine_host (kk : BitVec 8) (mm : BitVec 16) (mask : Acc) (s : State) : (startEngine kk mm mask s).host = s.host := rfl
@[simp] theorem startEngine_rand (kk : BitVec 8) (mm : BitVec 16) (mask : Acc) (s : State) : (startEngine kk mm mask s).rand = s.rand := rfl
@[simp] theorem startEngine_responses (kk : BitVec 8) (mm : BitVec 16) (mask : Acc) (s : State) : (startEngine kk mm mask s).responses = s.responses := rfl

/-! ### endEngine -/

@[simp] theorem endEngine_params (s : State) : (endEngine s).params = s.params := rfl
@[simp] theorem endEngine_ready (s : State) : (endEngine s).ready = false := rfl
@[simp] theorem endEngine_aovf (s : State) : (endEngine s).aovf = s.aovf := rfl
@[simp] theorem endEngine_sovf (s : State) : (endEngine s).sovf = s.sovf := rfl
@[simp] theorem endEngine_valid (s : State) : (endEngine s).valid = false := rfl
@[simp] theorem endEngine_cvalid (s : State) : (endEngine s).cvalid = false := rfl
@[simp] theorem endEngine_k (s : State) : (endEngine s).k = 0#6 := rfl
@[simp] theorem endEngine_m (s : State) : (endEngine s).m = 0#16 := rfl
@[simp] theorem endEngine_mask (s : State) : (endEngine s).mask = 0#33 := rfl
@[simp] theorem endEngine_alen (s : State) : (endEngine s).alen = s.alen := rfl
@[simp] theorem endEngine_slen (s : State) : (endEngine s).slen = s.slen := rfl
@[simp] theorem endEngine_ncand (s : State) : (endEngine s).ncand = 0#18 := rfl
@[simp] theorem endEngine_lasterr (s : State) : (endEngine s).lasterr = s.lasterr := rfl
@[simp] theorem endEngine_esticky (s : State) : (endEngine s).esticky = s.esticky := rfl
@[simp] theorem endEngine_errinfo (s : State) : (endEngine s).errinfo = s.errinfo := rfl
@[simp] theorem endEngine_rdig (s : State) : (endEngine s).rdig = 0#32 := rfl
@[simp] theorem endEngine_rsym (s : State) : (endEngine s).rsym = 0#32 := rfl
@[simp] theorem endEngine_alpha (s : State) : (endEngine s).alpha = s.alpha := rfl
@[simp] theorem endEngine_seq (s : State) : (endEngine s).seq = s.seq := rfl
@[simp] theorem endEngine_cand (s : State) : (endEngine s).cand = s.cand := rfl
@[simp] theorem endEngine_busy (s : State) : (endEngine s).busy = s.busy := rfl
@[simp] theorem endEngine_host (s : State) : (endEngine s).host = s.host := rfl
@[simp] theorem endEngine_rand (s : State) : (endEngine s).rand = s.rand := rfl
@[simp] theorem endEngine_responses (s : State) : (endEngine s).responses = s.responses := rfl

/-! ### hardReset -/

@[simp] theorem hardReset_params (s : State) (ws : List (BitVec 32)) : (hardReset s ws).params = s.params := rfl
@[simp] theorem hardReset_ready (s : State) (ws : List (BitVec 32)) : (hardReset s ws).ready = false := rfl
@[simp] theorem hardReset_aovf (s : State) (ws : List (BitVec 32)) : (hardReset s ws).aovf = false := rfl
@[simp] theorem hardReset_sovf (s : State) (ws : List (BitVec 32)) : (hardReset s ws).sovf = false := rfl
@[simp] theorem hardReset_valid (s : State) (ws : List (BitVec 32)) : (hardReset s ws).valid = false := rfl
@[simp] theorem hardReset_cvalid (s : State) (ws : List (BitVec 32)) : (hardReset s ws).cvalid = false := rfl
@[simp] theorem hardReset_k (s : State) (ws : List (BitVec 32)) : (hardReset s ws).k = 0#6 := rfl
@[simp] theorem hardReset_m (s : State) (ws : List (BitVec 32)) : (hardReset s ws).m = 0#16 := rfl
@[simp] theorem hardReset_mask (s : State) (ws : List (BitVec 32)) : (hardReset s ws).mask = 0#33 := rfl
@[simp] theorem hardReset_alen (s : State) (ws : List (BitVec 32)) : (hardReset s ws).alen = 0#33 := rfl
@[simp] theorem hardReset_slen (s : State) (ws : List (BitVec 32)) : (hardReset s ws).slen = 0#17 := rfl
@[simp] theorem hardReset_ncand (s : State) (ws : List (BitVec 32)) : (hardReset s ws).ncand = 0#18 := rfl
@[simp] theorem hardReset_lasterr (s : State) (ws : List (BitVec 32)) : (hardReset s ws).lasterr = 0#8 := rfl
@[simp] theorem hardReset_esticky (s : State) (ws : List (BitVec 32)) : (hardReset s ws).esticky = 0#16 := rfl
@[simp] theorem hardReset_errinfo (s : State) (ws : List (BitVec 32)) : (hardReset s ws).errinfo = 0#48 := rfl
@[simp] theorem hardReset_rdig (s : State) (ws : List (BitVec 32)) : (hardReset s ws).rdig = 0#32 := rfl
@[simp] theorem hardReset_rsym (s : State) (ws : List (BitVec 32)) : (hardReset s ws).rsym = 0#32 := rfl
@[simp] theorem hardReset_alpha (s : State) (ws : List (BitVec 32)) : (hardReset s ws).alpha = [] := rfl
@[simp] theorem hardReset_seq (s : State) (ws : List (BitVec 32)) : (hardReset s ws).seq = [] := rfl
@[simp] theorem hardReset_cand (s : State) (ws : List (BitVec 32)) : (hardReset s ws).cand = [] := rfl
@[simp] theorem hardReset_busy (s : State) (ws : List (BitVec 32)) : (hardReset s ws).busy = false := rfl
@[simp] theorem hardReset_host (s : State) (ws : List (BitVec 32)) : (hardReset s ws).host = s.host := rfl
@[simp] theorem hardReset_rand (s : State) (ws : List (BitVec 32)) : (hardReset s ws).rand = ws := rfl
@[simp] theorem hardReset_responses (s : State) (ws : List (BitVec 32)) : (hardReset s ws).responses = s.responses := rfl

/-! ### presentWord -/

@[simp] theorem presentWord_params (w : Word64) (s : State) : (presentWord w s).params = s.params := rfl
@[simp] theorem presentWord_ready (w : Word64) (s : State) : (presentWord w s).ready = s.ready := rfl
@[simp] theorem presentWord_aovf (w : Word64) (s : State) : (presentWord w s).aovf = s.aovf := rfl
@[simp] theorem presentWord_sovf (w : Word64) (s : State) : (presentWord w s).sovf = s.sovf := rfl
@[simp] theorem presentWord_valid (w : Word64) (s : State) : (presentWord w s).valid = s.valid := rfl
@[simp] theorem presentWord_cvalid (w : Word64) (s : State) : (presentWord w s).cvalid = s.cvalid := rfl
@[simp] theorem presentWord_k (w : Word64) (s : State) : (presentWord w s).k = s.k := rfl
@[simp] theorem presentWord_m (w : Word64) (s : State) : (presentWord w s).m = s.m := rfl
@[simp] theorem presentWord_mask (w : Word64) (s : State) : (presentWord w s).mask = s.mask := rfl
@[simp] theorem presentWord_alen (w : Word64) (s : State) : (presentWord w s).alen = s.alen := rfl
@[simp] theorem presentWord_slen (w : Word64) (s : State) : (presentWord w s).slen = s.slen := rfl
@[simp] theorem presentWord_ncand (w : Word64) (s : State) : (presentWord w s).ncand = s.ncand := rfl
@[simp] theorem presentWord_lasterr (w : Word64) (s : State) : (presentWord w s).lasterr = s.lasterr := rfl
@[simp] theorem presentWord_esticky (w : Word64) (s : State) : (presentWord w s).esticky = s.esticky := rfl
@[simp] theorem presentWord_errinfo (w : Word64) (s : State) : (presentWord w s).errinfo = s.errinfo := rfl
@[simp] theorem presentWord_rdig (w : Word64) (s : State) : (presentWord w s).rdig = s.rdig := rfl
@[simp] theorem presentWord_rsym (w : Word64) (s : State) : (presentWord w s).rsym = s.rsym := rfl
@[simp] theorem presentWord_alpha (w : Word64) (s : State) : (presentWord w s).alpha = s.alpha := rfl
@[simp] theorem presentWord_seq (w : Word64) (s : State) : (presentWord w s).seq = s.seq := rfl
@[simp] theorem presentWord_cand (w : Word64) (s : State) : (presentWord w s).cand = s.cand := rfl
@[simp] theorem presentWord_busy (w : Word64) (s : State) : (presentWord w s).busy = false := rfl
@[simp] theorem presentWord_host (w : Word64) (s : State) : (presentWord w s).host = .command w :: s.host := rfl
@[simp] theorem presentWord_rand (w : Word64) (s : State) : (presentWord w s).rand = s.rand := rfl
@[simp] theorem presentWord_responses (w : Word64) (s : State) : (presentWord w s).responses = s.responses := rfl

end Sys2Proof.Machine
end

