-- ==== Sys2Proof/Laws/Ops.lean ====
section
/-! SUPPORT. One lemma per shared operation that says once everything the operation can do, for the provers to cite
instead of unfolding it. -/

namespace Sys2Proof.Machine

/-! ### Loops -/

@[simp] theorem forUpTo_zero {α : Type} (f : Nat → α → α) (init : α) : forUpTo 0 f init = init := rfl

theorem forUpTo_succ {α : Type} (n : Nat) (f : Nat → α → α) (init : α) :
    forUpTo (n + 1) f init = f n (forUpTo n f init) := rfl

/-- What holds before turn 0 and is carried by every turn holds after the last. -/
theorem forUpTo_invariant {α : Type} {n : Nat} {f : Nat → α → α} {init : α} (P : Nat → α → Prop) (h0 : P 0 init)
    (hs : ∀ i < n, ∀ a, P i a → P (i + 1) (f i a)) : P n (forUpTo n f init) := by
  induction n with
  | zero => exact h0
  | succ n ih =>
    exact hs n (Nat.lt_succ_self n) _ (ih fun i hi a ha => hs i (Nat.lt_succ_of_lt hi) a ha)

theorem forUpTo_congr {α : Type} {n : Nat} {f g : Nat → α → α} (init : α) (h : ∀ i < n, ∀ a, f i a = g i a) :
    forUpTo n f init = forUpTo n g init := by
  induction n with
  | zero => rfl
  | succ n ih =>
    rw [forUpTo_succ, forUpTo_succ, ih fun i hi a => h i (Nat.lt_succ_of_lt hi) a, h n (Nat.lt_succ_self n)]

/-! ### Memories: what the accesses answer -/

theorem readAlpha_of_lt {s : State} {i : Nat} (h : i < alphaSize s.params) : readAlpha s i = .ok (s.alpha.read i) :=
  if_pos h

theorem readSeq_of_lt {s : State} {i : Nat} (h : i < seqSize s.params) : readSeq s i = .ok (s.seq.read i) := if_pos h

theorem readCand_of_lt {s : State} {c e : Nat} (hc : c < candRecords s.params) (he : e < seqSize s.params) :
    readCand s c e = .ok (candEntry s c e) := if_pos ⟨hc, he⟩

theorem writeAlpha_ok {s t : State} {i : Nat} {v : Sym} :
    writeAlpha s i v = .ok t ↔ i < alphaSize s.params ∧ t = { s with alpha := s.alpha.write i v } := by
  unfold writeAlpha
  split <;> simp_all [eq_comm]

theorem writeSeq_ok {s t : State} {i : Nat} {v : Sym} :
    writeSeq s i v = .ok t ↔ i < seqSize s.params ∧ t = { s with seq := s.seq.write i v } := by
  unfold writeSeq
  split <;> simp_all [eq_comm]

/-- A read of a memory ends in a response or in the fault of the access. -/
theorem answerRead_next {s t : State} {r : Except Fault Sym} :
    answerRead s r = .next t ↔ ∃ x, r = .ok x ∧ t = respond (x.setWidth 48) s := by
  cases r <;> simp [answerRead, eq_comm]

/-- Two keys of CAND are the same only for the same record and entry. -/
theorem candKey_inj {p : Params} {c d e f : Nat} (he : e ≤ p.mmax) (hf : f ≤ p.mmax)
    (h : candKey p c e = candKey p d f) : c = d ∧ e = f := by
  unfold candKey at h
  have hc : c = d := by
    have h1 : (c * (p.mmax + 1) + e) / (p.mmax + 1) = c := by
      rw [Nat.mul_comm, Nat.mul_add_div (Nat.succ_pos _), Nat.div_eq_of_lt (by omega), Nat.add_zero]
    have h2 : (d * (p.mmax + 1) + f) / (p.mmax + 1) = d := by
      rw [Nat.mul_comm, Nat.mul_add_div (Nat.succ_pos _), Nat.div_eq_of_lt (by omega), Nat.add_zero]
    rw [← h1, ← h2, h]
  subst hc
  exact ⟨rfl, by omega⟩

/-! ### Responses and stops -/

theorem responseWord_inj {a b : BitVec 8} {v w : Value} (h : responseWord a v = responseWord b w) : a = b ∧ v = w := by
  have ha : (responseWord a v).extractLsb' 56 8 = (responseWord b w).extractLsb' 56 8 := by rw [h]
  have hv : (responseWord a v).extractLsb' 0 48 = (responseWord b w).extractLsb' 0 48 := by rw [h]
  have l (c : BitVec 8) (x : Value) : (responseWord c x).extractLsb' 56 8 = c := by
    simp only [responseWord, BitVec.extractLsb'_append_eq_ite]; simp
  have r (c : BitVec 8) (x : Value) : (responseWord c x).extractLsb' 0 48 = x := by
    simp only [responseWord, BitVec.extractLsb'_append_eq_ite]; simp
  rw [l, l] at ha
  rw [r, r] at hv
  exact ⟨ha, hv⟩

theorem errorCode_ne_zero (e : ErrorCode) : errorCode e ≠ 0#8 := by cases e <;> decide

theorem errorCode_le_ten (e : ErrorCode) : 1 ≤ (errorCode e).toNat ∧ (errorCode e).toNat ≤ 10 := by
  cases e <;> decide

/-- A command that stops and goes on has raised an error. -/
theorem stopOutcome_next {s t : State} {e : Stop} :
    stopOutcome s e = .next t ↔ ∃ c info, e = .raised c info ∧ t = raise c info s := by
  cases e <;> simp [stopOutcome, eq_comm]

/-! ### The digit index -/

theorem indexBelow_eq_some {mem : Memory} {x : Sym} {n i : Nat} :
    indexBelow mem x n = some i ↔ i < n ∧ mem.read i = x ∧ ∀ j < i, mem.read j ≠ x := by
  induction n generalizing i with
  | zero => simp [indexBelow]
  | succ n ih =>
    rw [indexBelow]
    cases h : indexBelow mem x n with
    | some a =>
      obtain ⟨ha, hx, hl⟩ := ih.mp h
      constructor
      · rintro ⟨⟩
        exact ⟨by omega, hx, hl⟩
      · rintro ⟨hi, hxi, hli⟩
        rcases Nat.lt_trichotomy a i with hai | rfl | hai
        · exact absurd hx (hli a hai)
        · rfl
        · exact absurd hxi (hl i hai)
    | none =>
      have hn : ∀ j < n, mem.read j ≠ x := by
        intro j
        induction j using Nat.strong_induction_on with
        | _ j ihj =>
          intro hj hx
          rw [ih.mpr ⟨hj, hx, fun a ha => ihj a ha (by omega)⟩] at h
          cases h
      by_cases hx : mem.read n = x
      · rw [if_pos hx]
        constructor
        · rintro ⟨⟩
          exact ⟨by omega, hx, hn⟩
        · rintro ⟨hi, hxi, hli⟩
          rcases Nat.lt_or_ge i n with hin | hin
          · exact absurd hxi (hn i hin)
          · rw [show i = n by omega]
      · rw [if_neg hx]
        constructor
        · rintro ⟨⟩
        · rintro ⟨hi, hxi, -⟩
          rcases Nat.lt_or_ge i n with hin | hin
          · exact absurd hxi (hn i hin)
          · rw [show i = n by omega] at hxi; exact absurd hxi hx

theorem indexBelow_eq_none {mem : Memory} {x : Sym} {n : Nat} :
    indexBelow mem x n = none ↔ ∀ i < n, mem.read i ≠ x := by
  constructor
  · intro h i
    induction i using Nat.strong_induction_on with
    | _ i ih =>
      intro hi hx
      rw [indexBelow_eq_some.mpr ⟨hi, hx, fun j hj => ih j hj (by omega)⟩] at h
      cases h
  · intro h
    cases hb : indexBelow mem x n with
    | none => rfl
    | some i =>
      obtain ⟨hi, hx, -⟩ := indexBelow_eq_some.mp hb
      exact absurd hx (h i hi)

theorem firstDuplicate_eq_some {mem : Memory} {n i : Nat} :
    firstDuplicate mem n = some i ↔
      i < n ∧ (∃ j < i, mem.read j = mem.read i) ∧ ∀ a < i, ∀ j < a, mem.read j ≠ mem.read a := by
  induction n generalizing i with
  | zero => simp [firstDuplicate]
  | succ n ih =>
    have hdup : (indexBelow mem (mem.read n) n).isSome = true ↔ ∃ j < n, mem.read j = mem.read n := by
      constructor
      · intro h
        obtain ⟨j, hj⟩ := Option.isSome_iff_exists.mp h
        obtain ⟨hjn, hx, -⟩ := indexBelow_eq_some.mp hj
        exact ⟨j, hjn, hx⟩
      · rintro ⟨j, hj, hx⟩
        cases h : indexBelow mem (mem.read n) n with
        | some _ => rfl
        | none => exact absurd hx (indexBelow_eq_none.mp h j hj)
    rw [firstDuplicate]
    cases h : firstDuplicate mem n with
    | some a =>
      obtain ⟨ha, hd, hl⟩ := ih.mp h
      constructor
      · rintro ⟨⟩
        exact ⟨by omega, hd, hl⟩
      · rintro ⟨hi, ⟨j, hj, hx⟩, hli⟩
        rcases Nat.lt_trichotomy a i with hai | rfl | hai
        · obtain ⟨b, hb, hbx⟩ := hd
          exact absurd hbx (hli a hai b hb)
        · rfl
        · exact absurd hx (hl i hai j hj)
    | none =>
      have hn : ∀ a < n, ∀ j < a, mem.read j ≠ mem.read a := by
        intro a
        induction a using Nat.strong_induction_on with
        | _ a iha =>
          intro ha j hj hx
          rw [ih.mpr ⟨ha, ⟨j, hj, hx⟩, fun b hb => iha b hb (by omega)⟩] at h
          cases h
      by_cases hx : (indexBelow mem (mem.read n) n).isSome = true
      · rw [if_pos hx]
        constructor
        · rintro ⟨⟩
          exact ⟨by omega, hdup.mp hx, hn⟩
        · rintro ⟨hi, ⟨j, hj, hjx⟩, -⟩
          rcases Nat.lt_or_ge i n with hin | hin
          · exact absurd hjx (hn i hin j hj)
          · rw [show i = n by omega]
      · rw [if_neg hx]
        constructor
        · rintro ⟨⟩
        · rintro ⟨hi, ⟨j, hj, hjx⟩, -⟩
          rcases Nat.lt_or_ge i n with hin | hin
          · exact absurd hjx (hn i hin j hj)
          · obtain rfl : i = n := by omega
            exact absurd (hdup.mpr ⟨j, hj, hjx⟩) hx

theorem firstDuplicate_eq_none {mem : Memory} {n : Nat} :
    firstDuplicate mem n = none ↔ ∀ a < n, ∀ j < a, mem.read j ≠ mem.read a := by
  constructor
  · intro h a
    induction a using Nat.strong_induction_on with
    | _ a ih =>
      intro ha j hj hx
      rw [firstDuplicate_eq_some.mpr ⟨ha, ⟨j, hj, hx⟩, fun b hb => ih b hb (by omega)⟩] at h
      cases h
  · intro h
    cases hb : firstDuplicate mem n with
    | none => rfl
    | some i =>
      obtain ⟨hi, ⟨j, hj, hx⟩, -⟩ := firstDuplicate_eq_some.mp hb
      exact absurd hx (h i hi j hj)

/-! ### The input sequence as digits -/

/-- The look-up succeeds exactly with the digit of every symbol. -/
theorem lookupFrom_ok {s : State} {p : Nat} {xs : List Sym} {ds : List Digit} :
    lookupFrom s p xs = .ok ds ↔ xs.map (index s) = ds.map some := by
  induction xs generalizing p ds with
  | nil => cases ds <;> simp [lookupFrom]
  | cons x xs ih =>
    rw [lookupFrom]
    cases h : index s x with
    | none => cases ds <;> simp [h]
    | some d =>
      cases hr : lookupFrom s (p + 1) xs with
      | error e =>
        cases ds with
        | nil => simp
        | cons d' ds =>
          have hne : xs.map (index s) ≠ ds.map some := fun he => by rw [ih.mpr he] at hr; cases hr
          simp [hne]
      | ok es =>
        cases ds with
        | nil => simp
        | cons d' ds =>
          have he := ih.mp hr
          simp only [Except.ok.injEq, List.map_cons, List.cons.injEq, h, Option.some.injEq, he]
          constructor
          · rintro ⟨rfl, rfl⟩; exact ⟨rfl, rfl⟩
          · rintro ⟨rfl, hm⟩
            exact ⟨rfl, List.map_injective_iff.mpr (Option.some_injective _) hm⟩

/-- The look-up fails at the lowest position whose symbol is not in the alphabet. -/
theorem lookupFrom_error {s : State} {p : Nat} {xs : List Sym} {e : Stop} :
    lookupFrom s p xs = .error e ↔
      ∃ q < xs.length, e = .raised .unknownSymbol (BitVec.ofNat 48 (p + q)) ∧ index s (xs.getD q 0#32) = none ∧
        ∀ r < q, index s (xs.getD r 0#32) ≠ none := by
  induction xs generalizing p e with
  | nil => simp [lookupFrom]
  | cons x xs ih =>
    rw [lookupFrom]
    cases h : index s x with
    | none =>
      constructor
      · rintro ⟨⟩
        exact ⟨0, by simp, rfl, by simpa using h, by simp⟩
      · rintro ⟨q, hq, rfl, hi, hl⟩
        cases q with
        | zero => rfl
        | succ q => exact absurd (by simpa using h) (hl 0 (by omega))
    | some d =>
      cases hr : lookupFrom s (p + 1) xs with
      | ok es =>
        constructor
        · rintro ⟨⟩
        · rintro ⟨q, hq, rfl, hi, hl⟩
          cases q with
          | zero => simp [h] at hi
          | succ q =>
            have : lookupFrom s (p + 1) xs = .error (.raised .unknownSymbol (BitVec.ofNat 48 (p + 1 + q))) :=
              ih.mpr ⟨q, by simpa using hq, rfl, by rwa [List.getD_cons_succ] at hi,
                fun r hrq => by simpa using hl (r + 1) (by omega)⟩
            rw [this] at hr
            cases hr
      | error e' =>
        constructor
        · rintro ⟨⟩
          obtain ⟨q, hq, rfl, hi, hl⟩ := ih.mp hr
          refine ⟨q + 1, by simpa using hq, by rw [Nat.add_right_comm p 1 q]; rfl, by simpa using hi, fun r hrq => ?_⟩
          cases r with
          | zero => simp [h]
          | succ r => simpa using hl r (by omega)
        · rintro ⟨q, hq, rfl, hi, hl⟩
          cases q with
          | zero => simp [h] at hi
          | succ q =>
            have : lookupFrom s (p + 1) xs = .error (.raised .unknownSymbol (BitVec.ofNat 48 (p + 1 + q))) :=
              ih.mpr ⟨q, by simpa using hq, rfl, by rwa [List.getD_cons_succ] at hi,
                fun r hrq => by simpa using hl (r + 1) (by omega)⟩
            rw [← hr, this, Nat.add_right_comm p 1 q, Nat.add_assoc]

/-- The look-up reads only the digit index of the state. -/
theorem lookupFrom_congr {s t : State} {xs : List Sym} (h : ∀ x ∈ xs, index s x = index t x) (p : Nat) :
    lookupFrom s p xs = lookupFrom t p xs := by
  induction xs generalizing p with
  | nil => rfl
  | cons x xs ih =>
    rw [lookupFrom, lookupFrom, h x (by simp), ih (fun y hy => h y (by simp [hy])) (p + 1)]

@[simp] theorem seqSymbols_length (s : State) (n : Nat) : (seqSymbols s n).length = n := by
  simp [seqSymbols, Memory.readList]

theorem seqSymbols_getD {s : State} {n p : Nat} (h : p < n) : (seqSymbols s n).getD p 0#32 = s.seq.read p := by
  rw [seqSymbols, Memory.getD_readList _ _ _ _ h, Nat.zero_add]

/-- The sequence has the wrong length exactly when SOVF = 1 or SLEN ≠ n. -/
theorem wrongLength_iff (s : State) (n : Nat) : wrongLength s n = true ↔ s.sovf = true ∨ s.slen.toNat ≠ n := by
  simp [wrongLength]

theorem wrongAlphabetSize_iff (s : State) (k : Nat) :
    wrongAlphabetSize s k = true ↔ s.aovf = true ∨ s.alen.toNat ≠ 2 ^ k := by
  simp [wrongAlphabetSize]

/-- `digits` succeeds exactly with the digits of SEQ[0 .. n − 1] when the length is right and the memories are large
enough. -/
theorem digits_ok {s : State} {n : Nat} {ds : List Digit} :
    digits s n = .ok ds ↔
      wrongLength s n = false ∧ n ≤ seqSize s.params ∧ 2 ^ s.k.toNat ≤ alphaSize s.params ∧
        lookupFrom s 0 (seqSymbols s n) = .ok ds := by
  unfold digits
  generalize wrongLength s n = w
  generalize 2 ^ s.k.toNat = q
  rcases w with _ | _
  · by_cases h1 : seqSize s.params < n
    · simp [h1]
    · by_cases h2 : alphaSize s.params < q
      · simp [h1, h2]
      · simp [h1, h2, Nat.le_of_not_lt h1, Nat.le_of_not_lt h2]
  · simp

/-- `digits` stops with WrongSequenceLength, or UnknownSymbol, or outside a memory. -/
theorem digits_error {s : State} {n : Nat} {e : Stop} :
    digits s n = .error e ↔
      (wrongLength s n = true ∧ e = .raised .wrongSequenceLength (s.slen.setWidth 48)) ∨
      (wrongLength s n = false ∧ seqSize s.params < n ∧ e = .broken .seqRange) ∨
      (wrongLength s n = false ∧ n ≤ seqSize s.params ∧ alphaSize s.params < 2 ^ s.k.toNat ∧
        e = .broken .alphaRange) ∨
      (wrongLength s n = false ∧ n ≤ seqSize s.params ∧ 2 ^ s.k.toNat ≤ alphaSize s.params ∧
        lookupFrom s 0 (seqSymbols s n) = .error e) := by
  unfold digits
  generalize wrongLength s n = w
  generalize 2 ^ s.k.toNat = q
  rcases w with _ | _
  · by_cases h1 : seqSize s.params < n
    · simp [h1, eq_comm]
    · by_cases h2 : alphaSize s.params < q
      · simp [h1, h2, Nat.le_of_not_lt h1, eq_comm]
      · simp [h1, h2, Nat.le_of_not_lt h1, Nat.le_of_not_lt h2]
  · simp [eq_comm]

theorem drawnDigit_toNat {k : Nat} (hk : k ≤ 32) (r : BitVec 32) : (drawnDigit k r).toNat = r.toNat % 2 ^ k := by
  have h : r.toNat % 2 ^ k < 2 ^ 32 :=
    lt_of_lt_of_le (Nat.mod_lt _ (by positivity)) (Nat.pow_le_pow_right (by omega) hk)
  rw [drawnDigit, BitVec.toNat_setWidth, BitVec.toNat_setWidth, Nat.mod_eq_of_lt h]

/-- The numbered registers are those up to 13. -/
theorem readReg_eq_none (s : State) (r : Nat) : readReg s r = none ↔ 13 < r := by
  unfold readReg
  split <;> simp_all
  omega

/-! ### The mask -/

theorem supported_iff (p : Params) (k : Nat) :
    supported p k = true ↔ (∃ es, p.polyTable.lookup k = some es) ∧ k ≤ p.kmax := by
  simp [supported, Option.isSome_iff_exists]

theorem buildMask_eq_some {p : Params} {k : Nat} {mask : Acc} :
    buildMask p k = some mask ↔
      k ≤ p.kmax ∧ ∃ es, p.polyTable.lookup k = some es ∧ mask = maskOfExponents es := by
  unfold buildMask
  split
  · rename_i h
    obtain ⟨⟨es, hes⟩, hk⟩ := (supported_iff p k).mp h
    simp [hes, hk, eq_comm]
  · rename_i h
    simp only [reduceCtorEq, false_iff, not_and, not_exists]
    rintro hk es hes -
    exact h ((supported_iff p k).mpr ⟨⟨es, hes⟩, hk⟩)

theorem buildMask_eq_none {p : Params} {k : Nat} : buildMask p k = none ↔ supported p k = false := by
  rw [← Bool.not_eq_true, ← not_iff_not, not_not]
  cases h : buildMask p k with
  | none =>
    simp only [not_true_eq_false, false_iff]
    intro hs
    obtain ⟨⟨es, hes⟩, hk⟩ := (supported_iff p k).mp hs
    rw [buildMask_eq_some.mpr ⟨hk, es, hes, rfl⟩] at h
    cases h
  | some mask =>
    obtain ⟨hk, es, hes, -⟩ := buildMask_eq_some.mp h
    simpa using (supported_iff p k).mpr ⟨⟨es, hes⟩, hk⟩

/-! ### The fold -/

@[simp] theorem foldFrom_nil (k : Nat) (mask acc : Acc) : foldFrom k mask acc [] = acc := rfl

@[simp] theorem foldFrom_cons (k : Nat) (mask acc : Acc) (d : Digit) (ds : List Digit) :
    foldFrom k mask acc (d :: ds) = foldFrom k mask (foldStep k mask acc d) ds := rfl

theorem foldFrom_append (k : Nat) (mask acc : Acc) (ds es : List Digit) :
    foldFrom k mask acc (ds ++ es) = foldFrom k mask (foldFrom k mask acc ds) es := List.foldl_append

/-! ### The correction search -/

/-- A trial is appended, or the candidates stay as they are. -/
theorem tryTrial_cases (s : State) (trial : List Digit) (found : List (List Sym)) :
    (engineFold s trial = 0#33 ∧ recordOf s trial ∉ found ∧ tryTrial s trial found = found ++ [recordOf s trial]) ∨
    ((engineFold s trial ≠ 0#33 ∨ recordOf s trial ∈ found) ∧ tryTrial s trial found = found) := by
  unfold tryTrial present
  by_cases h : engineFold s trial = 0#33 <;> by_cases hm : recordOf s trial ∈ found <;> simp [h, hm]

/-- CORR keeps the candidates found so far at the front. -/
theorem prefix_tryTrial (s : State) (trial : List Digit) (found : List (List Sym)) :
    found <+: tryTrial s trial found := by
  rcases tryTrial_cases s trial found with ⟨-, -, h⟩ | ⟨-, h⟩
  · exact h ▸ List.prefix_append _ _
  · rw [h]

@[simp] theorem swapTrial_length (ds : List Digit) (j : Nat) : (swapTrial ds j).length = ds.length := by
  simp [swapTrial]

@[simp] theorem substTrial_length (ds : List Digit) (j : Nat) (d : Digit) :
    (substTrial ds j d).length = ds.length := by simp [substTrial]

theorem swapTrial_getD {ds : List Digit} {j : Nat} (h : j + 1 < ds.length) (i : Nat) :
    (swapTrial ds j).getD i 0#32 =
      if i = j then ds.getD (j + 1) 0#32 else if i = j + 1 then ds.getD j 0#32 else ds.getD i 0#32 := by
  unfold swapTrial
  by_cases hi : i < ds.length
  · simp only [List.getD_eq_getElem?_getD, List.getElem?_set, List.length_set]
    by_cases h1 : j + 1 = i
    · subst h1; simp [hi]
    · by_cases h2 : j = i
      · subst h2; simp [hi]
      · have h3 : ¬ i = j := fun e => h2 e.symm
        have h4 : ¬ i = j + 1 := fun e => h1 e.symm
        simp [h1, h2, h3, h4]
  · simp only [List.getD_eq_getElem?_getD, List.getElem?_set, List.length_set]
    have h1 : ¬ j + 1 = i := by omega
    have h2 : ¬ j = i := by omega
    have h3 : ¬ i = j := by omega
    have h4 : ¬ i = j + 1 := by omega
    simp [h1, h2, h3, h4]

/-- The end of a CORR: the records in CAND, or a fault. -/
theorem storeCandidates_next {s t : State} {found : List (List Sym)} :
    storeCandidates s found = .next t ↔
      found.length ≤ candRecords s.params ∧
        t = respond ((BitVec.ofNat 18 found.length).setWidth 48)
          { s with
            cand := writeRecords s.params s.cand 0 found
            ncand := BitVec.ofNat 18 found.length
            cvalid := true } := by
  unfold storeCandidates
  split
  · simp; omega
  · simp [eq_comm]; omega

/-! ### The step -/

/-- The sequencer waits or idles, accepts a word, or resets. -/
theorem nextActivity_cases (s : State) :
    (nextActivity s = .idle ∧ s.busy = false ∧ s.host = []) ∨
    (nextActivity s = .waiting ∧ s.busy = true ∧ (s.host = [] ∨ ∃ w rest, s.host = .command w :: rest)) ∨
    (∃ w rest, nextActivity s = .accept w { s with host := rest } ∧ s.busy = false ∧ s.host = .command w :: rest) ∨
    (∃ ws rest, nextActivity s = .toReset (hardReset { s with host := rest } ws) ∧ ws <:+ s.rand ∧
      (s.host = .reset :: rest ∨ ∃ w drawn, s.host = .resetDuring w drawn :: rest)) := by
  unfold nextActivity
  cases hh : s.host with
  | nil => cases hb : s.busy <;> simp
  | cons x rest =>
    cases x with
    | command w => cases hb : s.busy <;> simp
    | reset =>
      refine .inr (.inr (.inr ⟨_, rest, rfl, ?_, .inl rfl⟩))
      unfold randAfterReset
      split
      · exact List.drop_suffix _ _
      · exact List.suffix_rfl
    | resetDuring w drawn =>
      refine .inr (.inr (.inr ⟨_, rest, rfl, ?_, .inr ⟨w, drawn, rfl⟩⟩))
      unfold randAfterResetDuring randAfterReset randAfterAbandonedGen
      split
      · exact List.drop_suffix _ _
      · split
        · exact List.drop_suffix _ _
        · exact List.suffix_rfl

/-- Everything a step can be. -/
theorem step_cases (s : State) :
    (s.busy = false ∧ s.host = [] ∧ step s = .next s) ∨
    (s.busy = true ∧ (s.host = [] ∨ ∃ w rest, s.host = .command w :: rest) ∧ step s = exec .gen s) ∨
    (∃ w rest, s.busy = false ∧ s.host = .command w :: rest ∧
      ((∃ i, decode w = .ok i ∧ step s = exec i { s with host := rest }) ∨
        (∃ e, decode w = .error e ∧ step s = .next (illegalWord { s with host := rest })))) ∨
    (∃ ws rest, ws <:+ s.rand ∧ (s.host = .reset :: rest ∨ ∃ w drawn, s.host = .resetDuring w drawn :: rest) ∧
      step s = .next (hardReset { s with host := rest } ws)) := by
  unfold step
  rcases nextActivity_cases s with ⟨h, hb, hh⟩ | ⟨h, hb, hh⟩ | ⟨w, rest, h, hb, hh⟩ | ⟨ws, rest, h, hw, hh⟩
  · exact .inl ⟨hb, hh, by rw [h]⟩
  · exact .inr (.inl ⟨hb, hh, by rw [h]⟩)
  · refine .inr (.inr (.inl ⟨w, rest, hb, hh, ?_⟩))
    rw [h]
    cases hd : decode w with
    | ok i => exact .inl ⟨i, rfl, by simp only [hd]⟩
    | error e => exact .inr ⟨e, rfl, by simp only [hd]⟩
  · exact .inr (.inr (.inr ⟨ws, rest, hw, hh, by rw [h]⟩))

/-- The memories of the reset state have the canonical form. -/
theorem reset_memories_wf : State.reset.alpha.wf = true ∧ State.reset.seq.wf = true ∧ State.reset.cand.wf = true :=
  ⟨rfl, rfl, rfl⟩

end Sys2Proof.Machine
end

