-- ==== Sys2Proof/Laws/Fold.lean ====
section
/-! SUPPORT. The two facts of one fold step from which the laws of the fold follow: its range and its linearity over XOR
(42_checksum.md R140). -/

namespace Sys2Proof.Machine

theorem foldStep_lt {k : Nat} (mask acc : Acc) (d : Digit) : (foldStep k mask acc d).toNat < 2 ^ k := by
  unfold foldStep
  dsimp only
  rw [BitVec.toNat_setWidth]
  exact lt_of_le_of_lt (Nat.mod_le _ _) (BitVec.isLt _)

/-- The conditional XOR with the mask is linear. -/
theorem reduce_xor (k : Nat) (mask u v : Acc) :
    (if (u ^^^ v).getLsbD k then (u ^^^ v) ^^^ mask else u ^^^ v) =
      (if u.getLsbD k then u ^^^ mask else u) ^^^ (if v.getLsbD k then v ^^^ mask else v) := by
  rw [BitVec.getLsbD_xor]
  have h : (u ^^^ mask) ^^^ (v ^^^ mask) = u ^^^ v := by
    rw [show (u ^^^ mask) ^^^ (v ^^^ mask) = (u ^^^ v) ^^^ (mask ^^^ mask) by ac_rfl, BitVec.xor_self, BitVec.xor_zero]
  cases u.getLsbD k <;> cases v.getLsbD k
  · rfl
  · exact BitVec.xor_assoc _ _ _
  · simp only [Bool.xor_false, if_true, Bool.false_eq_true, if_false]
    ac_rfl
  · exact h.symm

/-- One fold step is linear over XOR in both arguments together. -/
theorem foldStep_xor (k : Nat) (mask a b : Acc) (d e : Digit) :
    foldStep k mask (a ^^^ b) (d ^^^ e) = foldStep k mask a d ^^^ foldStep k mask b e := by
  have ht : ((a ^^^ b) ^^^ (d ^^^ e).setWidth 33) <<< 1 =
      ((a ^^^ d.setWidth 33) <<< 1) ^^^ ((b ^^^ e.setWidth 33) <<< 1) := by
    rw [← BitVec.shiftLeft_xor_distrib, BitVec.setWidth_xor]
    congr 1
    ac_rfl
  unfold foldStep
  dsimp only
  rw [ht, reduce_xor, BitVec.setWidth_xor, BitVec.setWidth_xor]

/-- A step sees its two arguments only through their XOR. -/
theorem foldStep_eq_timesX (k : Nat) (mask acc : Acc) (d : Digit) :
    foldStep k mask acc d = timesX k mask (acc ^^^ d.setWidth 33) := by
  unfold timesX foldStep
  simp only [BitVec.setWidth_zero, BitVec.xor_zero]

theorem foldFrom_lt {k : Nat} {mask acc : Acc} (h : acc.toNat < 2 ^ k) (ds : List Digit) :
    (foldFrom k mask acc ds).toNat < 2 ^ k := by
  induction ds generalizing acc with
  | nil => exact h
  | cons d ds ih => exact ih (foldStep_lt mask acc d)

end Sys2Proof.Machine
end

