-- ==== Sys2Proof/Laws/Micro.lean ====
section
/-! SUPPORT. One lemma per operation of the small-step forms: what an input can do to a fold and to a CORR, and how runs
over lists of inputs compose. -/

namespace Sys2Proof.Machine

theorem microReset_eq (s : State) :
    microReset s = { State.resetOf s.params with host := s.host, responses := s.responses, rand := s.rand } := rfl

/-! ### FOLD -/

theorem foldMicro_not_abandoned (s t : State) (n : Nat) (r : FoldRegs) : foldMicro s n r ≠ .abandoned t := by
  unfold foldMicro
  split
  · split <;> exact FoldStatus.noConfusion
  · exact FoldStatus.noConfusion

/-- Only a reset abandons a fold, and its target is the reset state. -/
theorem foldInput_abandoned {s t : State} {n : Nat} {r : FoldRegs} {x : MicroInput} :
    foldInput s n r x = .abandoned t ↔ x = .reset ∧ t = microReset s := by
  cases x with
  | go => exact ⟨fun h => absurd h (foldMicro_not_abandoned s t n r), fun h => MicroInput.noConfusion h.1⟩
  | reset => exact ⟨fun h => ⟨rfl, (FoldStatus.abandoned.inj h).symm⟩, fun h => congrArg _ h.2.symm⟩

@[simp] theorem runFold_zero (s : State) (n : Nat) (r : FoldRegs) : runFold s n 0 r = .running r := rfl

theorem runFold_succ (s : State) (n fuel : Nat) (r : FoldRegs) :
    runFold s n (fuel + 1) r =
      match foldMicro s n r with
      | .running r' => runFold s n fuel r'
      | .done acc d => .done acc d
      | .unknown p => .unknown p
      | .abandoned t => .abandoned t := rfl

/-- A run over two lists in a row: the second list is met only by a fold that is still running. -/
theorem runFoldInputs_append (s : State) (n : Nat) (xs ys : List MicroInput) (r : FoldRegs) :
    runFoldInputs s n (xs ++ ys) r =
      match runFoldInputs s n xs r with
      | .running r' => runFoldInputs s n ys r'
      | .done acc d => .done acc d
      | .unknown p => .unknown p
      | .abandoned t => .abandoned t := by
  induction xs generalizing r with
  | nil => rfl
  | cons x xs ih =>
    rw [List.cons_append, runFoldInputs, runFoldInputs]
    cases foldInput s n r x with
    | running r' => exact ih r'
    | done acc d => rfl
    | unknown p => rfl
    | abandoned t => rfl

/-! ### CORR -/

/-- CHECK ends the command or begins the search, with J, DBUF and the count written and nothing read of what was dead. -/
theorem corrCheck_cases (s : State) (r : CorrRegs) :
    (∃ o n, corrCheck s r = .ended o n) ∨
      ∃ ds, s.ready = true ∧ digits s (s.m.toNat + 1) = .ok ds ∧ engineFold s ds ≠ 0#33 ∧
        corrCheck s r = .running { r with phase := .trans, j := 0, dbuf := ds, found := [], folds := r.folds + 1 } := by
  unfold corrCheck
  split
  · next hready =>
    split
    · exact .inl ⟨_, _, rfl⟩
    · next ds hds =>
      split
      · exact .inl ⟨_, _, rfl⟩
      · next hfold => exact .inr ⟨ds, hready, hds, hfold, rfl⟩
  · exact .inl ⟨_, _, rfl⟩

theorem corrMicro_not_abandoned (s t : State) (r : CorrRegs) : corrMicro s r ≠ .abandoned t := by
  unfold corrMicro
  split
  · exact CorrStatus.noConfusion
  · obtain ⟨o, n, h⟩ | ⟨ds, -, -, -, h⟩ := corrCheck_cases s r <;> rw [h] <;> exact CorrStatus.noConfusion
  · exact CorrStatus.noConfusion
  · exact CorrStatus.noConfusion
  · exact CorrStatus.noConfusion

/-- Only a reset abandons a CORR, and its target is the reset state. -/
theorem corrInput_abandoned {s t : State} {r : CorrRegs} {x : MicroInput} :
    corrInput s r x = .abandoned t ↔ x = .reset ∧ t = microReset s := by
  cases x with
  | go => exact ⟨fun h => absurd h (corrMicro_not_abandoned s t r), fun h => MicroInput.noConfusion h.1⟩
  | reset => exact ⟨fun h => ⟨rfl, (CorrStatus.abandoned.inj h).symm⟩, fun h => congrArg _ h.2.symm⟩

@[simp] theorem runCorr_zero (s : State) (r : CorrRegs) : runCorr s 0 r = .running r := rfl

theorem runCorr_succ (s : State) (fuel : Nat) (r : CorrRegs) :
    runCorr s (fuel + 1) r =
      match corrMicro s r with
      | .running r' => runCorr s fuel r'
      | .ended o n => .ended o n
      | .abandoned t => .abandoned t := rfl

/-- A run over two lists in a row: the second list is met only by a CORR that is still running. -/
theorem runCorrInputs_append (s : State) (xs ys : List MicroInput) (r : CorrRegs) :
    runCorrInputs s (xs ++ ys) r =
      match runCorrInputs s xs r with
      | .running r' => runCorrInputs s ys r'
      | .ended o n => .ended o n
      | .abandoned t => .abandoned t := by
  induction xs generalizing r with
  | nil => rfl
  | cons x xs ih =>
    rw [List.cons_append, runCorrInputs, runCorrInputs]
    cases corrInput s r x with
    | running r' => exact ih r'
    | ended o n => rfl
    | abandoned t => rfl

/-- Two stages of an accepted CORR that differ at most in registers still dead there: everything but the phase and the
count of folds at CHECK, S at TRANS, TRIAL throughout (10_state.md R47, R48). -/
def SameLive (q r : CorrRegs) : Prop :=
  q.phase = r.phase ∧ q.folds = r.folds ∧ q.phase ≠ .idle ∧
    (q.phase ≠ .check → q.j = r.j ∧ q.dbuf = r.dbuf ∧ q.found = r.found ∧ (q.phase ≠ .trans → q.sub = r.sub))

theorem sameLive_accept (dead dead' : CorrRegs) : SameLive (corrAccept dead) (corrAccept dead') :=
  ⟨rfl, rfl, Phase.noConfusion, fun h => absurd rfl h⟩

/-- What two runs that start alike come to: the same end, or stages that are still alike. -/
def SameLiveStatus : CorrStatus → CorrStatus → Prop
  | .running q, .running r => SameLive q r
  | .ended o n, .ended o' n' => o = o' ∧ n = n'
  | .abandoned t, .abandoned t' => t = t'
  | _, _ => False

theorem sameLive_check (s : State) {q r : CorrRegs} (h : SameLive q r) :
    SameLiveStatus (corrCheck s q) (corrCheck s r) := by
  obtain ⟨-, hf, -, -⟩ := h
  unfold corrCheck
  split
  · cases digits s (s.m.toNat + 1) with
    | error e => exact ⟨rfl, hf⟩
    | ok ds =>
      dsimp only
      split
      · exact ⟨rfl, congrArg (· + 1) hf⟩
      · exact ⟨rfl, congrArg (· + 1) hf, Phase.noConfusion, fun _ => ⟨rfl, rfl, rfl, fun h => absurd rfl h⟩⟩
  · exact ⟨rfl, hf⟩

theorem sameLive_trans (s : State) {q r : CorrRegs} (h : SameLive q r) (hq : q.phase = .trans) :
    SameLive (corrTrans s q) (corrTrans s r) := by
  obtain ⟨hp, hf, -, hl⟩ := h
  obtain ⟨hj, hd, hc, -⟩ := hl (by rw [hq]; exact Phase.noConfusion)
  have hr : r.phase = .trans := hp.symm.trans hq
  unfold corrTrans
  rw [← hj, ← hd]
  split
  · exact ⟨rfl, hf, Phase.noConfusion, fun _ => ⟨rfl, rfl, hc, fun _ => rfl⟩⟩
  · split
    · exact ⟨hp, congrArg (· + 1) hf, by rw [corrTrial, hq]; exact Phase.noConfusion,
        fun _ => ⟨rfl, hd, by rw [corrTrial, corrTrial, hc], fun h => absurd hq h⟩⟩
    · exact ⟨hp, hf, by rw [hq]; exact Phase.noConfusion, fun _ => ⟨rfl, rfl, hc, fun h => absurd hq h⟩⟩

theorem sameLive_subst (s : State) {q r : CorrRegs} (h : SameLive q r) (hq : q.phase = .subst) :
    SameLive (corrSubst s q) (corrSubst s r) := by
  obtain ⟨hp, hf, -, hl⟩ := h
  obtain ⟨hj, hd, hc, hs⟩ := hl (by rw [hq]; exact Phase.noConfusion)
  have hs := hs (by rw [hq]; exact Phase.noConfusion)
  have hn : q.phase ≠ .idle := by rw [hq]; exact Phase.noConfusion
  unfold corrSubst
  rw [← hj, ← hs, ← hd]
  split
  · exact ⟨rfl, hf, Phase.noConfusion, fun _ => ⟨rfl, rfl, hc, fun _ => rfl⟩⟩
  · split
    · exact ⟨hp, hf, hn, fun _ => ⟨rfl, rfl, hc, fun _ => rfl⟩⟩
    · split
      · exact ⟨hp, congrArg (· + 1) hf, hn, fun _ => ⟨hj, hd, by rw [corrTrial, corrTrial, hc], fun _ => rfl⟩⟩
      · exact ⟨hp, hf, hn, fun _ => ⟨rfl, rfl, hc, fun _ => rfl⟩⟩

/-- A small step reads no register that is dead before it. -/
theorem sameLive_micro (s : State) {q r : CorrRegs} (h : SameLive q r) :
    SameLiveStatus (corrMicro s q) (corrMicro s r) := by
  have hr : r.phase = q.phase := h.1.symm
  unfold corrMicro
  rw [hr]
  cases hq : q.phase with
  | idle => exact absurd hq h.2.2.1
  | check => exact sameLive_check s h
  | trans => exact sameLive_trans s h hq
  | subst => exact sameLive_subst s h hq
  | done => exact ⟨by rw [(h.2.2.2 (by rw [hq]; exact Phase.noConfusion)).2.2.1], h.2.1⟩

/-- What the dead registers held when the CORR was accepted makes no difference to its run. -/
theorem runCorr_dead (s : State) (fuel : Nat) {q r : CorrRegs} (h : SameLive q r) :
    SameLiveStatus (runCorr s fuel q) (runCorr s fuel r) := by
  induction fuel generalizing q r with
  | zero => exact h
  | succ fuel ih =>
    have hm := sameLive_micro s h
    rw [runCorr_succ, runCorr_succ]
    cases hq : corrMicro s q <;> cases hr : corrMicro s r <;> rw [hq, hr] at hm
    case running.running => exact ih hm
    all_goals first | exact hm | exact hm.elim

@[simp] theorem corrIdle_phase (dead : CorrRegs) : (corrIdle dead).phase = .idle := rfl
@[simp] theorem corrAccept_phase (dead : CorrRegs) : (corrAccept dead).phase = .check := rfl
@[simp] theorem corrAccept_folds (dead : CorrRegs) : (corrAccept dead).folds = 0 := rfl

end Sys2Proof.Machine
end

