-- ==== Sys2Proof/Laws/PerInstr.lean ====
section
/-! SUPPORT. A fact about every command as syntax, one lemma per constructor: the word the encoder writes matches the row
of the opcode map that carries the command's mnemonic (30_encoding.md R89). -/

namespace Sys2Proof.Laws.EncodingRow

/-- The encoding of the command matches the row of its mnemonic. -/
@[reducible] def Statement (i : Instr) : Prop :=
  ∃ r ∈ opcodeTable, r.mnemonic = i.mnemonic ∧ encode i &&& r.mask = r.matchWord

/-- A word cut after OP, under a mask that keeps OP. -/
theorem and_op (op : BitVec 8) (x y : BitVec 56) : (op ++ x : Word64) &&& (0xFF#8 ++ y : Word64) = op ++ (x &&& y) := by
  refine BitVec.and_append.trans ?_
  rw [show op &&& 0xFF#8 = op from BitVec.and_allOnes]

/-- Format S: the mask keeps OP and the reserved field. -/
theorem and_formatS (op : BitVec 8) (x : BitVec 32) :
    (op ++ (0#24 ++ x) : Word64) &&& (0xFF#8 ++ (0xFFFFFF#24 ++ 0#32) : Word64) = op ++ 0#56 := by
  refine (and_op op _ _).trans (congrArg (fun y : BitVec 56 => (op ++ y : Word64)) ?_)
  refine BitVec.and_append.trans ?_
  rw [BitVec.and_zero]
  rfl

theorem nop : Statement .nop := by decide

theorem clra : Statement .clra := by decide

theorem lda (sym : BitVec 32) : Statement (.lda sym) :=
  ⟨⟨"LDA", _, _⟩, by decide, rfl, and_formatS 0x02#8 sym⟩

theorem init (k : BitVec 8) (m : BitVec 16) : Statement (.init k m) := by
  refine ⟨⟨"INIT", 0xFF#8 ++ (0#8 ++ (0xFFFFFFFF#32 ++ 0#16)), 0x03#8 ++ 0#56⟩, by decide, rfl, ?_⟩
  refine (and_op 0x03#8 _ _).trans (congrArg (fun y : BitVec 56 => (0x03#8 ++ y : Word64)) ?_)
  refine BitVec.and_append.trans ?_
  have h : (0#32 ++ m : BitVec 48) &&& (0xFFFFFFFF#32 ++ 0#16 : BitVec 48) = 0#48 := by
    refine BitVec.and_append.trans ?_
    rw [BitVec.and_zero]
    rfl
  rw [BitVec.and_zero, h]
  rfl

theorem free : Statement .free := by decide

theorem mkmask (k : BitVec 8) : Statement (.mkmask k) := by
  refine ⟨⟨"MKMASK", 0xFF#8 ++ (0#8 ++ 0xFFFFFFFFFFFF#48), 0x05#8 ++ 0#56⟩, by decide, rfl, ?_⟩
  refine (and_op 0x05#8 _ _).trans (congrArg (fun y : BitVec 56 => (0x05#8 ++ y : Word64)) ?_)
  refine BitVec.and_append.trans ?_
  rw [BitVec.and_zero]
  rfl

theorem clrs : Statement .clrs := by decide

theorem lds (sym : BitVec 32) : Statement (.lds sym) :=
  ⟨⟨"LDS", _, _⟩, by decide, rfl, and_formatS 0x09#8 sym⟩

theorem csum (ic : Bool) : Statement (.csum ic) := by cases ic <;> decide

theorem vrfy : Statement .vrfy := by decide

theorem gen : Statement .gen := by decide

theorem corr : Statement .corr := by decide

theorem rdr (idx1 : BitVec 32) : Statement (.rdr idx1) :=
  ⟨⟨"RDR", _, _⟩, by decide, rfl, and_formatS 0x10#8 idx1⟩

theorem rda (idx1 : BitVec 32) : Statement (.rda idx1) :=
  ⟨⟨"RDA", _, _⟩, by decide, rfl, and_formatS 0x11#8 idx1⟩

theorem rds (idx1 : BitVec 32) : Statement (.rds idx1) :=
  ⟨⟨"RDS", _, _⟩, by decide, rfl, and_formatS 0x12#8 idx1⟩

theorem rdc (idx2 : BitVec 24) (idx1 : BitVec 32) : Statement (.rdc idx2 idx1) := by
  refine ⟨⟨"RDC", 0xFF#8 ++ 0#56, 0x13#8 ++ 0#56⟩, by decide, rfl, ?_⟩
  refine (and_op 0x13#8 _ _).trans (congrArg (fun y : BitVec 56 => (0x13#8 ++ y : Word64)) ?_)
  exact BitVec.and_zero

theorem clre : Statement .clre := by decide

end Sys2Proof.Laws.EncodingRow
end

