-- ==== Sys2Proof/Laws/Pseudo.lean ====
section
/-! SUPPORT. How the runs of a pseudo-instruction's commands compose (30_encoding.md R98). -/

namespace Sys2Proof.Machine

/-- What a response leaves for the host to look at: its status. -/
theorem lastStatus_append {s : State} {ws : List Word64} {w : Word64} (h : s.responses = ws ++ [w]) :
    lastStatus s = w.extractLsb' 56 8 := by
  simp [lastStatus, h]

theorem extract_responseWord (status : BitVec 8) (v : Value) : (responseWord status v).extractLsb' 56 8 = status := by
  refine BitVec.eq_of_getLsbD_eq fun i hi => ?_
  rw [responseWord, BitVec.getLsbD_extractLsb', BitVec.getLsbD_append, decide_eq_true hi, Bool.true_and,
    if_neg (by omega), Nat.add_sub_cancel_left]

@[simp] theorem lastStatus_respond (v : Value) (s : State) : lastStatus (respond v s) = 0#8 :=
  (lastStatus_append rfl).trans (extract_responseWord _ _)

@[simp] theorem lastStatus_raise (e : ErrorCode) (info : Value) (s : State) :
    lastStatus (raise e info s) = errorCode e := (lastStatus_append rfl).trans (extract_responseWord _ _)

/-- A command that succeeds lets the host go on. -/
theorem runCommands_cons {s t : State} {i : Instr} (h : exec i s = .next t) (hb : t.busy = false)
    (hs : lastStatus t = 0#8) (is : List Instr) : runCommands (i :: is) s = runCommands is t := by
  simp [runCommands, h, hb, hs]

/-- The last command of an expansion is what it ends as. -/
theorem runCommands_singleton (i : Instr) (s : State) : runCommands [i] s = exec i s := by
  unfold runCommands
  cases exec i s with
  | next t => exact if_pos_or t
  | fault f => rfl
  | refused r => rfl
where
  if_pos_or (t : State) :
      (if (t.busy || lastStatus t != 0#8) = true then Host.Outcome.next t else runCommands [] t) = .next t := by
    split <;> rfl

/-- Commands that all succeed, then others. -/
theorem runCommands_append {s t : State} (is js : List Instr) (h : runCommands is s = .next t)
    (hb : t.busy = false) (hs : lastStatus t = 0#8) : runCommands (is ++ js) s = runCommands js t := by
  induction is generalizing s with
  | nil =>
    injection h with h
    rw [List.nil_append, h]
  | cons i is ih =>
    rw [runCommands] at h
    rw [List.cons_append, runCommands]
    split at h
    · next u hu =>
      split at h
      · next hstop =>
        injection h with h
        subst h
        simp [hb, hs] at hstop
      · next hgo => rw [if_neg hgo, ih h]
    · cases h
    · cases h

end Sys2Proof.Machine
end

