-- ==== Sys2Proof/Tests/Slice0.lean ====
section
/-! SUPPORT. The model's own tests: a smoke test for each check of WellFormed, words written out from 30_encoding.md, one
step on a small state for each command with the answer 95_test_vectors.md gives, and a witness that the hypotheses of
each statement can be met. -/

open Sys2Proof Sys2Proof.Machine

namespace Sys2Proof.Tests

/-! ### WellFormed: an ill-formed term for each check -/

theorem test_default_params_are_wf : defaultParams.wf = true := by decide

theorem test_kmax_of_one_is_refused : Params.kmaxOk { defaultParams with kmax := 1 } = false := by decide

theorem test_kmax_of_33_is_refused : Params.kmaxOk { defaultParams with kmax := 33 } = false := by decide

theorem test_mmax_of_zero_is_refused : Params.mmaxOk { defaultParams with mmax := 0 } = false := by decide

theorem test_mmax_of_65536_is_refused : Params.mmaxOk { defaultParams with mmax := 65536 } = false := by decide

theorem test_table_without_row_32_is_refused : PolyTable.domainOk (defaultPolyTable.take 30) = false := by decide

theorem test_row_without_its_leading_exponent_is_refused : PolyTable.leadingOk [(3, [2, 1])] = false := by decide

theorem test_row_with_a_larger_exponent_is_refused : PolyTable.leadingOk [(3, [4, 3, 1])] = false := by decide

theorem test_listed_constant_term_is_refused : PolyTable.noConstantOk [(3, [3, 1, 0])] = false := by decide

theorem test_repeated_exponent_is_refused : PolyTable.distinctOk [(3, [3, 1, 1])] = false := by decide

theorem test_other_row_two_is_refused : PolyTable.rowTwoOk [(2, [2])] = false := by decide

theorem test_ill_formed_tables_are_refused :
    Params.wf { defaultParams with polyTable := [] } = false ∧ Params.wf { defaultParams with mmax := 0 } = false := by
  decide

/-! ### Decode: a word for each constructor, from 30_encoding.md R82 to R87 and R89 -/

theorem test_decode_nop : decode 0x0000000000000000#64 = .ok .nop := by decide

theorem test_decode_clra : decode 0x0100000000000000#64 = .ok .clra := by decide

theorem test_decode_lda : decode 0x0200000089ABCDEF#64 = .ok (.lda 0x89ABCDEF#32) := by decide

theorem test_decode_init : decode 0x030B00000000FF01#64 = .ok (.init 11#8 0xFF01#16) := by decide

theorem test_decode_free : decode 0x0400000000000000#64 = .ok .free := by decide

theorem test_decode_mkmask : decode 0x0520000000000000#64 = .ok (.mkmask 32#8) := by decide

theorem test_decode_clrs : decode 0x0800000000000000#64 = .ok .clrs := by decide

theorem test_decode_lds : decode 0x0900000076543210#64 = .ok (.lds 0x76543210#32) := by decide

theorem test_decode_csum : decode 0x0A00000000000000#64 = .ok (.csum false) := by decide

theorem test_decode_vrfy : decode 0x0B00000000000000#64 = .ok .vrfy := by decide

theorem test_decode_gen : decode 0x0C00000000000000#64 = .ok .gen := by decide

theorem test_decode_corr : decode 0x0D00000000000000#64 = .ok .corr := by decide

theorem test_decode_rdr : decode 0x1000000000000009#64 = .ok (.rdr 9#32) := by decide

theorem test_decode_rda : decode 0x11000000FFFFFFFF#64 = .ok (.rda 0xFFFFFFFF#32) := by decide

theorem test_decode_rds : decode 0x1200000000000002#64 = .ok (.rds 2#32) := by decide

theorem test_decode_rdc : decode 0x1312345689ABCDEF#64 = .ok (.rdc 0x123456#24 0x89ABCDEF#32) := by decide

theorem test_decode_clre : decode 0x1F00000000000000#64 = .ok .clre := by decide

/-- 95_test_vectors.md section 2.8: opcodes that are none of the seventeen. -/
theorem test_decode_refuses_unused_opcodes :
    decode 0x0600000000000000#64 = .error .unknownOpcode ∧ decode 0x0700000000000000#64 = .error .unknownOpcode ∧
    decode 0x0E00000000000000#64 = .error .unknownOpcode ∧ decode 0x1400000000000000#64 = .error .unknownOpcode ∧
    decode 0x1E00000000000000#64 = .error .unknownOpcode ∧ decode 0x2000000000000000#64 = .error .unknownOpcode := by
  decide

/-- 30_encoding.md R82 to R87: a reserved bit of each format. -/
theorem test_decode_refuses_reserved_bits :
    decode 0x0000000000000001#64 = .error .reservedBit ∧ decode 0x0280000000000041#64 = .error .reservedBit ∧
    decode 0x0502800000000000#64 = .error .reservedBit ∧ decode 0x0302000000010002#64 = .error .reservedBit ∧
    decode 0x0A00000000000002#64 = .error .reservedBit ∧ decode 0x1000000100000000#64 = .error .reservedBit := by
  decide

/-- 30_encoding.md R89: the words of spec/opcode_table.json are numbered as the command words are. -/
theorem test_decode_table_word :
    decodeTableWord 64 0x0302000000000002 = some (.init 2#8 2#16) ∧ decodeTableWord 64 0x0E00000000000000 = none := by
  decide

/-! ### Small states -/

/-- The instance of program P5: KMAX = 2, MMAX = 2. -/
def small : Params := { kmax := 2, mmax := 2, polyTable := defaultPolyTable }

/-- The symbols "A", "B", "C", "D". -/
def abcd : List Sym := [0x41#32, 0x42#32, 0x43#32, 0x44#32]

/-- The small instance after reset with `xs` staged as the alphabet. -/
def staged (xs : List Sym) : State :=
  { State.resetOf small with alpha := Memory.writeList [] 0 xs, alen := BitVec.ofNat 33 xs.length }

/-- The engine K = 2 on A, B, C, D with payload length `m`, `xs` in the sequence buffer and `ws` at the random source. -/
def engineOf (m : BitVec 16) (xs ws : List (BitVec 32)) : State :=
  { staged abcd with
    ready := true, k := 2#6, m := m, mask := 7#33
    seq := Memory.writeList [] 0 xs, slen := BitVec.ofNat 17 xs.length, rand := ws }

/-- The engine K = 2, M = 2 with `xs` in the sequence buffer. -/
def engine (xs : List Sym) : State := engineOf 2#16 xs []

/-- One step that runs the command word `w`. -/
def run (w : Word64) (s : State) : Result := step (presentWord w s)

/-- What a next state shows. -/
def look {α : Type} (o : Result) (f : State → α) : Option α :=
  match o with
  | .next t => some (f t)
  | .fault _ => none
  | .refused _ => none

/-- The next state, `s` where there is none. -/
def after (o : Result) (s : State) : State :=
  match o with
  | .next t => t
  | .fault _ => s
  | .refused _ => s

/-- The sequence A, B, C of the document's worked example, valid. -/
def validSeq : State := engine [0x41#32, 0x42#32, 0x43#32]

/-- The sequence B, A, C, its first two symbols exchanged. -/
def swapped : State := engine [0x42#32, 0x41#32, 0x43#32]

/-- The sequence A, B, D, its last symbol replaced. -/
def replaced : State := engine [0x41#32, 0x42#32, 0x44#32]

/-- The state after CORR on B, A, C. -/
def solved : State := after (exec .corr swapped) swapped

/-! ### One step of each command, with the answers of 95_test_vectors.md -/

theorem test_nop : look (run 0x0000000000000000#64 swapped) (·) = some { swapped with responses := [0#64] } := by decide

/-- Section 2.2: FREE; CLRA after an overflow. -/
theorem test_clra : look (run 0x0100000000000000#64 { staged abcd with aovf := true })
    (fun t => (t.responses, t.alen, t.aovf)) = some ([0#64], 0#33, false) := by decide

theorem test_clra_locked : look (run 0x0100000000000000#64 validSeq)
    (fun t => (t.responses, t.alen, t.lasterr, t.esticky)) = some ([0x0900000000000000#64], 4#33, 9#8, 0x200#16) := by
  decide

/-- Section 2.2: LDA of the same code again is no error. -/
theorem test_lda_appends : look (run 0x0200000000000041#64 (staged [0x41#32]))
    (fun t => (t.responses, t.alpha.read 1, t.alen)) = some ([2#64], 0x41#32, 2#33) := by decide

/-- Program P5: the fifth LDA of an instance with KMAX = 2. -/
theorem test_lda_overflow : look (run 0x0200000000000045#64 (staged abcd))
    (fun t => (t.responses, t.alpha, t.alen, t.aovf)) = some ([4#64], (staged abcd).alpha, 4#33, true) := by decide

/-- Section 2.2: INIT 2, 2 on A, B, C, D. -/
theorem test_init : look (run 0x0302000000000002#64 (staged abcd))
    (fun t => (t.responses, t.ready, t.k, t.m, t.mask)) = some ([7#64], true, 2#6, 2#16, 7#33) := by decide

/-- Section 2.2: INIT 2, 2 on A, B, A, D: index 2 repeats an earlier symbol. -/
theorem test_init_duplicate : look (run 0x0302000000000002#64 (staged [0x41#32, 0x42#32, 0x41#32, 0x44#32]))
    (fun t => (t.responses, t.ready, t.errinfo)) = some ([0x0300800000000002#64], false, 0x800000000002#48) := by decide

/-- Section 2.2: FREE with an engine. -/
theorem test_free : look (run 0x0400000000000000#64 solved)
    (fun t => (t.responses.getLast?, status t, t.k, t.ncand, t.alen, t.slen)) =
      some (some 0#64, 0#5, 0#6, 0#18, 4#33, 3#17) := by decide

/-- Section 2.1: MKMASK 32. -/
theorem test_mkmask_32 : look (run 0x0520000000000000#64 State.reset) (fun t => t.responses) =
    some [0x000000010000008D#64] := by decide

/-- Program P5: MKMASK 3 with KMAX = 2. -/
theorem test_mkmask_above_kmax : look (run 0x0503000000000000#64 validSeq)
    (fun t => (t.responses, t.lasterr, t.errinfo, t.mask)) = some ([0x0100000000000003#64], 1#8, 3#48, 7#33) := by decide

theorem test_clrs : look (run 0x0800000000000000#64 { validSeq with sovf := true })
    (fun t => (t.responses, t.slen, t.sovf, t.ready)) = some ([0#64], 0#17, false, true) := by decide

/-- Section 2.3: LDS needs no engine. -/
theorem test_lds : look (run 0x0900000000000041#64 (staged []))
    (fun t => (t.responses, t.seq.read 0, t.slen)) = some ([1#64], 0x41#32, 1#17) := by decide

/-- Program P5: the fourth LDS of an instance with MMAX = 2. -/
theorem test_lds_overflow : look (run 0x0900000000000044#64 validSeq)
    (fun t => (t.responses, t.seq, t.slen, t.sovf)) = some ([3#64], validSeq.seq, 3#17, true) := by decide

/-- Section 1.1: the checksum of A, B is C. -/
theorem test_csum : look (run 0x0A00000000000000#64 (engine [0x41#32, 0x42#32]))
    (fun t => (t.responses, t.rdig, t.rsym, t.valid)) = some ([0x43#64], 2#32, 0x43#32, false) := by decide

/-- Section 2.3: the lowest offending position is reported. -/
theorem test_csum_unknown_symbol : look (run 0x0A00000000000000#64 (engine [0x41#32, 0x5A#32]))
    (fun t => (t.responses, t.rdig)) = some ([0x0500000000000001#64], 0#32) := by decide

/-- Section 1.1: A, B, C is valid. -/
theorem test_vrfy_true : look (run 0x0B00000000000000#64 validSeq)
    (fun t => (t.responses, t.valid, t.rdig, t.rsym)) = some ([1#64], true, 0#32, 0x41#32) := by decide

/-- Section 1.1: A, B, D is not, and that is no error. -/
theorem test_vrfy_false : look (run 0x0B00000000000000#64 { replaced with valid := true })
    (fun t => (t.responses, t.valid, t.rdig, t.lasterr)) = some ([0#64], false, 2#32, 0#8) := by decide

/-- 44_generate.md R167 on the engine of section 2.3: the words 5 and 0xFFFFFFFF have the digits 1 and 3, whose fold is
(2 XOR 3) · 2 = 2, "C". -/
theorem test_gen : look (run 0x0C00000000000000#64 (engineOf 2#16 [] [5#32, 0xFFFFFFFF#32, 9#32]))
    (fun t => (t.responses, seqSymbols t 3, t.slen, t.rand, t.busy)) =
      some ([0x43#64], [0x42#32, 0x44#32, 0x43#32], 3#17, [9#32], false) := by decide

/-- 44_generate.md R166: with too few words GEN waits, unanswered. -/
theorem test_gen_waits : look (run 0x0C00000000000000#64 (engineOf 2#16 [] [5#32]))
    (fun t => (t.responses, t.slen, t.rand, t.busy)) = some ([], 0#17, [5#32], true) := by decide

/-- Section 2.6: the five candidates of B, A, C in their order. -/
theorem test_corr : look (run 0x0D00000000000000#64 swapped)
    (fun t => (t.responses, t.ncand, (List.range 5).map (candRecord t))) =
      some ([5#64], 5#18,
        [[0x41#32, 0x42#32, 0x43#32], [0x42#32, 0x43#32, 0x41#32], [0x44#32, 0x41#32, 0x43#32],
         [0x42#32, 0x44#32, 0x43#32], [0x42#32, 0x41#32, 0x44#32]]) := by decide

/-- Section 2.6: M = 1 on B, B: no transposition trial, the lower bound of candidates. -/
theorem test_corr_equal_pair : look (run 0x0D00000000000000#64 (engineOf 1#16 [0x42#32, 0x42#32] []))
    (fun t => (t.responses, (List.range 2).map (candRecord t))) =
      some ([2#64], [[0x44#32, 0x42#32], [0x42#32, 0x43#32]]) := by decide

/-- Section 2.7: CAPS on the instance of program P5. -/
theorem test_rdr_caps : look (run 0x1000000000000001#64 solved) (fun t => t.responses.getLast?) =
    some (some 0x00020002#64) := by decide

/-- Section 2.7: STATUS after program P2, and no register 14. -/
theorem test_rdr_status_and_bad_index :
    look (run 0x1000000000000002#64 solved) (fun t => t.responses.getLast?) = some (some 0x11#64) ∧
    look (run 0x100000000000000E#64 solved) (fun t => (t.responses.getLast?, t.lasterr)) =
      some (some 0x0A00000000000000#64, 10#8) := by decide

theorem test_rda : look (run 0x1100000000000003#64 solved) (fun t => t.responses.getLast?) = some (some 0x44#64) ∧
    look (run 0x1100000000000004#64 solved) (fun t => t.responses.getLast?) = some (some 0x0A00000000000000#64) := by
  decide

theorem test_rds : look (run 0x1200000000000002#64 solved) (fun t => t.responses.getLast?) = some (some 0x43#64) ∧
    look (run 0x1200000000000003#64 solved) (fun t => t.responses.getLast?) = some (some 0x0A00000000000000#64) := by
  decide

theorem test_rdc : look (run 0x1300000100000002#64 solved) (fun t => t.responses.getLast?) = some (some 0x41#64) ∧
    look (run 0x1300000500000000#64 solved) (fun t => t.responses.getLast?) = some (some 0x0A00000000000000#64) := by
  decide

theorem test_clre : look (run 0x1F00000000000000#64 { solved with lasterr := 6#8, esticky := 0x40#16, errinfo := 1#48 })
    (fun t => (t.responses.getLast?, t.lasterr, t.esticky, t.errinfo, t.cvalid)) =
      some (some 0#64, 0#8, 0#16, 0#48, true) := by decide

/-- Section 2.8: an illegal word raises IllegalCommand. -/
theorem test_illegal_word : look (run 0x0B00000000000001#64 validSeq)
    (fun t => (t.responses, t.lasterr, t.esticky, t.valid)) =
      some ([0x0700000000000000#64], 7#8, 0x80#16, false) := by decide

/-- 70_reset_and_hazards.md R270, R272: a reset in the middle of a CORR. -/
theorem test_reset_during_corr :
    look (step { solved with host := [.resetDuring 0x0D00000000000000#64 0, .reset] }) (·) =
      some { State.resetOf small with host := [.reset], responses := solved.responses } := by decide

/-- The first step after reset runs the word placed by withFetchWord. -/
theorem test_with_fetch_word : look (step (State.reset.withFetchWord 64 0x0502000000000000)) (·) =
    some { State.reset with responses := [7#64] } := by decide

/-- 40_maskgen.md R115 as 95_test_vectors.md section 2.1 lists it: masks of the default table. -/
theorem test_default_masks :
    [8, 16, 24, 31, 32].map (buildMask defaultParams) =
      [some 0x11B#33, some 0x1002B#33, some 0x100001B#33, some 0x80000009#33, some 0x10000008D#33] := by decide

/-- Section 2.3: the fold of three digits with K = 32. -/
theorem test_fold_k32 : fold 32 0x10000008D#33 [0xFFFFFFFF#32, 0x80000000#32, 1#32] = 0xFFFFFD43#33 := by decide

/-- Section 2.3: the fold of four digits with K = 11. -/
theorem test_fold_k11 : fold 11 0x805#33 [0#32, 0x7FF#32, 0x400#32, 1#32] = 0x7EB#33 := by decide

/-- Section 2.6: the twelve folds of CORR on B, A, C. -/
theorem test_corr_folds : 1 + unequalPairs [1#32, 0#32, 2#32] 2 + 3 * (2 ^ 2 - 1) = 12 := by decide

/-! ### The invariant on the small states -/

theorem empty_inv : (staged []).Inv := by constructor <;> decide

theorem three_inv : (staged [0x41#32, 0x42#32, 0x43#32]).Inv := by constructor <;> decide

theorem full_inv : (staged abcd).Inv := by constructor <;> decide

theorem overflow_inv : State.Inv { staged abcd with aovf := true } := by constructor <;> decide

theorem engine_inv : (engine []).Inv := by constructor <;> decide

theorem valid_inv : validSeq.Inv := by constructor <;> decide

theorem swapped_inv : swapped.Inv := by constructor <;> decide

theorem replaced_inv : replaced.Inv := by constructor <;> decide

theorem solved_inv : solved.Inv := by constructor <;> decide

/-- The engine M = 2 with A, B in the buffer. -/
def payload : State := engine [0x41#32, 0x42#32]

theorem payload_inv : payload.Inv := by constructor <;> decide

/-- The engine M = 2 with a sequence whose length overflowed. -/
def overflowed : State := { validSeq with sovf := true }

theorem overflowed_inv : overflowed.Inv := by constructor <;> decide

/-- A GEN that waits with one of its two words. -/
def waitingGen : State := { engineOf 2#16 [] [5#32] with busy := true }

theorem waitingGen_inv : waitingGen.Inv := by constructor <;> decide

/-- An engine with exactly M random words. -/
def supplied : State := engineOf 2#16 [] [5#32, 0xFFFFFFFF#32]

theorem supplied_inv : supplied.Inv := by constructor <;> decide

theorem valid_holds : HoldsChecked validSeq [0#32, 1#32, 2#32] :=
  ⟨by decide, by decide, by decide, by simp [AreDigits, validSeq, engine, engineOf], by decide⟩

theorem swapped_holds : HoldsChecked swapped [1#32, 0#32, 2#32] :=
  ⟨by decide, by decide, by decide, by simp [AreDigits, swapped, engine, engineOf], by decide⟩

theorem replaced_holds : HoldsChecked replaced [0#32, 1#32, 3#32] :=
  ⟨by decide, by decide, by decide, by simp [AreDigits, replaced, engine, engineOf], by decide⟩

theorem mask7_shape : MaskShape 2 7#33 := by unfold MaskShape; decide

theorem mask7_odd : OddWeight 7#33 := by unfold OddWeight; decide

theorem mask32_shape : MaskShape 32 0x10000008D#33 := by unfold MaskShape; decide

theorem mask32_odd : OddWeight 0x10000008D#33 := by unfold OddWeight; decide

/-- The polynomial of mask 7, x^2 + x + 1. -/
noncomputable def poly7 : Polynomial (ZMod 2) := Polynomial.X ^ 2 + Polynomial.X + 1

theorem poly7_is : IsPolyOf 7#33 poly7 := by
  intro i
  rcases i with _ | _ | _ | i
  · simp [poly7, Polynomial.coeff_X, Polynomial.coeff_one]
  · simp [poly7, Polynomial.coeff_X, Polynomial.coeff_one]
  · simp [poly7, Polynomial.coeff_X, Polynomial.coeff_one]
  · have h : (7#33).getLsbD (i + 1 + 1 + 1) = false := by
      rw [← BitVec.testBit_toNat]
      exact Nat.testBit_lt_two_pow
        (Nat.lt_of_lt_of_le (by decide) (Nat.pow_le_pow_right (by decide) (Nat.le_add_left 3 i)))
    simp [h, poly7, Polynomial.coeff_X, Polynomial.coeff_one, Polynomial.coeff_X_pow]

theorem one_is : IsPolyOf 1#33 1 := by
  intro i
  rcases i with _ | i <;> simp [Polynomial.coeff_one]

theorem x_is : IsPolyOf 2#33 Polynomial.X := by
  intro i
  rcases i with _ | _ | i
  · simp
  · simp
  · have h : (2#33).getLsbD (i + 1 + 1) = false := by
      rw [← BitVec.testBit_toNat]
      exact Nat.testBit_lt_two_pow
        (Nat.lt_of_lt_of_le (by decide) (Nat.pow_le_pow_right (by decide) (Nat.le_add_left 2 i)))
    simp [h, Polynomial.coeff_X]

theorem poly7_natDegree : poly7.natDegree = 2 := by
  unfold poly7
  compute_degree!

theorem mask7_irreducible : IrreducibleMask 7#33 := by
  refine ⟨poly7, poly7_is, ?_⟩
  refine (Polynomial.irreducible_iff_roots_eq_zero_of_degree_le_three ?_ ?_).mpr ?_
  · rw [poly7_natDegree]
  · rw [poly7_natDegree]; decide
  · refine Multiset.eq_zero_of_forall_notMem fun a ha => ?_
    have h : a ^ 2 + a + 1 = 0 := by simpa [poly7] using Polynomial.isRoot_of_mem_roots ha
    have key : ∀ b : ZMod 2, b ^ 2 + b + 1 ≠ 0 := by decide
    exact key a h

/-! ### Witnesses: for each statement with hypotheses, states and operands that meet them, clause by clause -/

theorem witness_DecodeAndEncodeAgree :
    (Instr.rdc 0xFFFFFF#24 0xFFFFFFFF#32).wf = true ∧ (Instr.csum true).wf = true ∧
    decode 0x13FFFFFFFFFFFFFF#64 = .ok (.rdc 0xFFFFFF#24 0xFFFFFFFF#32) := by decide

theorem witness_OpcodeMapDecidesEveryWord :
    decode 0x0A00000000000001#64 = .ok (.csum true) ∧
    ⟨"CSUM", 0xFFFFFFFFFFFFFFFE#64, 0x0A00000000000000#64⟩ ∈ opcodeTable ∧
    0x0A00000000000001#64 &&& 0xFFFFFFFFFFFFFFFE#64 = 0x0A00000000000000#64 := by decide

theorem witness_IllegalWordsRaiseIllegalCommand :
    decode 0x2000000000000000#64 = .error .unknownOpcode ∧ decode 0x0000000000000001#64 = .error .reservedBit ∧
    swapped.busy = false ∧
    State.host { swapped with host := [.command 0x0000000000000001#64] } = [.command 0x0000000000000001#64] := by
  decide

theorem witness_StepRunsTheDecodedCommand :
    swapped.busy = false ∧ swapped.host = [] ∧
    (presentWord 0x0D00000000000000#64 swapped).host = .command 0x0D00000000000000#64 :: [] ∧
    (presentWord 0x0D00000000000000#64 swapped).busy = false ∧ decode 0x0D00000000000000#64 = .ok .corr := by decide

/-- A success, an error and a GEN that waits. -/
theorem witness_EveryCommandAnswersOnceOrRaises :
    (∃ t, exec .corr swapped = .next t) ∧ (∃ t, exec .corr validSeq = .next t) ∧ ∃ t, exec .gen (engine []) = .next t :=
  ⟨⟨_, rfl⟩, ⟨_, rfl⟩, ⟨_, rfl⟩⟩

theorem witness_EstickyOnlyAccumulates :
    look (exec .vrfy validSeq) State.responses = some (validSeq.responses ++ [responseWord 0#8 1#48]) ∧
    look (exec .corr validSeq) State.responses = some (validSeq.responses ++ [responseWord 6#8 0#48]) ∧
    Instr.vrfy ≠ .clre := by decide

theorem witness_ResetStateAsTheSpecSays :
    small.wf = true ∧ defaultParams.wf = true ∧ Params.wf { defaultParams with mmax := 1 } = true ∧
    2 ≤ (13#32).toNat ∧ (13#32).toNat ≤ 13 ∧ buildMask small (2#8).toNat = some 7#33 := by decide

/-- Values that the dead registers of CORR may hold at IDLE (10_state.md R47, R48). -/
def leftover : CorrRegs :=
  { phase := .idle, j := 9, sub := 77, dbuf := [3#32], trial := [2#32, 1#32], found := [[0x41#32]], folds := 5 }

theorem witness_ResetFromEveryStateGivesTheResetState :
    (∃ s : State, s.host = .reset :: [] ∧ s.busy = true) ∧
    (∃ s : State, s.host = .resetDuring 0x0C00000000000000#64 1 :: [] ∧ s.ready = true) ∧
    (∃ s : State, s.busy = false ∧ s.host = .resetDuring 0x0D00000000000000#64 1 :: [] ∧
      decode 0x0D00000000000000#64 ≠ .ok .gen) ∧
    (∃ r, runCorrInputs swapped [.go, .go] (corrAccept leftover) = .running r) ∧
    (∃ t, runCorrInputs swapped [.go, .reset] (corrAccept leftover) = .abandoned t) ∧
    (∃ r, runFoldInputs validSeq 3 [.go] foldStart = .running r) ∧
    ∃ t, runFoldInputs validSeq 3 [.go, .reset] foldStart = .abandoned t :=
  ⟨⟨{ waitingGen with host := [.reset] }, rfl, rfl⟩,
    ⟨{ supplied with host := [.resetDuring 0x0C00000000000000#64 1] }, rfl, rfl⟩,
    ⟨{ supplied with host := [.resetDuring 0x0D00000000000000#64 1] }, rfl, rfl, by decide⟩,
    ⟨_, rfl⟩, ⟨_, rfl⟩, ⟨_, rfl⟩, ⟨_, rfl⟩⟩

theorem witness_MaskIsTheOrOfTheListedBits :
    small.wf = true ∧ 2 ≤ 2 ∧ 32 ≤ 32 ∧ small.polyTable.lookup 32 = some [32, 7, 3, 2] := by decide

theorem witness_IrreducibleMasksHaveOddWeight : MaskShape 2 7#33 ∧ IrreducibleMask 7#33 :=
  ⟨mask7_shape, mask7_irreducible⟩

theorem witness_SupportedSetIsTwoToKmax : small.wf = true ∧ defaultParams.wf = true := by decide

theorem witness_MkmaskAnswersTheMask :
    (engine []).params.wf = true ∧ 2 ≤ (2#8).toNat ∧ (2#8).toNat ≤ (engine []).params.kmax ∧ (1#8).toNat < 2 ∧
    (engine []).params.kmax < (3#8).toNat ∧ State.reset.params.kmax = (32#8).toNat := by decide

theorem witness_ClraEmptiesTheStagingArea : (engine []).ready = true ∧ (staged abcd).ready = false := by decide

theorem witness_LdaAppendsOneSymbol :
    ((engine []).Inv ∧ (engine []).ready = true) ∧
    ((staged abcd).Inv ∧ (staged abcd).ready = false ∧ (staged abcd).alen.toNat = 2 ^ (staged abcd).params.kmax) ∧
    ((staged []).Inv ∧ (staged []).ready = false ∧ (staged []).alen.toNat ≠ 2 ^ (staged []).params.kmax) ∧
    ((staged [0x41#32, 0x42#32, 0x43#32]).Inv ∧ (staged [0x41#32, 0x42#32, 0x43#32]).ready = false ∧
      (staged [0x41#32, 0x42#32, 0x43#32]).alen.toNat + 1 = 2 ^ (staged [0x41#32, 0x42#32, 0x43#32]).params.kmax) :=
  ⟨⟨engine_inv, rfl⟩, ⟨full_inv, by decide⟩, ⟨empty_inv, by decide⟩, three_inv, by decide⟩

/-- A staged alphabet whose last symbol repeats. -/
def lastRepeats : State := staged [0x41#32, 0x42#32, 0x43#32, 0x43#32]

theorem lastRepeats_inv : lastRepeats.Inv := by constructor <;> decide

/-- A staged alphabet of one symbol, four times. -/
def allEqual : State := staged [0x41#32, 0x41#32, 0x41#32, 0x41#32]

theorem allEqual_inv : allEqual.Inv := by constructor <;> decide

/-- The checks of INIT: k = 1 and k = KMAX + 1; m = 0 and m = MMAX + 1; m = 1 and m = MMAX; one symbol short, and an
overflow at full length; the first and the last index that can repeat; pairwise distinct. -/
theorem witness_InitChecksThenStartsTheEngine :
    ((engine []).Inv ∧ (engine []).ready = true) ∧
    ((staged abcd).Inv ∧ (staged abcd).ready = false ∧ supported small (1#8).toNat = false ∧
      supported small (3#8).toNat = false ∧ supported small (2#8).toNat = true ∧ (0#16).toNat < 1 ∧
      small.mmax < (3#16).toNat ∧ 1 ≤ (1#16).toNat ∧ (2#16).toNat ≤ small.mmax) ∧
    ((staged [0x41#32, 0x42#32, 0x43#32]).Inv ∧ (staged [0x41#32, 0x42#32, 0x43#32]).alen.toNat ≠ 2 ^ (2#8).toNat) ∧
    State.Inv { staged abcd with aovf := true } ∧
    (allEqual.Inv ∧ allEqual.aovf = false ∧ allEqual.alen.toNat = 2 ^ (2#8).toNat ∧
      (∃ j < 1, allEqual.alpha.read j = allEqual.alpha.read 1) ∧
      ∀ i < 1, ∀ j < i, allEqual.alpha.read j ≠ allEqual.alpha.read i) ∧
    (lastRepeats.Inv ∧ lastRepeats.aovf = false ∧ lastRepeats.alen.toNat = 2 ^ (2#8).toNat ∧
      (∃ j < 3, lastRepeats.alpha.read j = lastRepeats.alpha.read 3) ∧
      ∀ i < 3, ∀ j < i, lastRepeats.alpha.read j ≠ lastRepeats.alpha.read i) ∧
    ((staged abcd).aovf = false ∧ (staged abcd).alen.toNat = 2 ^ (2#8).toNat ∧
      ∀ i < 2 ^ (2#8).toNat, ∀ j < i, (staged abcd).alpha.read j ≠ (staged abcd).alpha.read i) :=
  ⟨⟨engine_inv, rfl⟩, ⟨full_inv, by decide⟩, ⟨three_inv, by decide⟩, overflow_inv, ⟨allEqual_inv, by decide⟩,
    ⟨lastRepeats_inv, by decide⟩, by decide⟩

theorem witness_FreeEndsTheEngine : (staged []).Inv ∧ (staged []).ready = false := ⟨empty_inv, rfl⟩

theorem witness_EngineIsLockedUntilFree :
    (engine []).ready = true ∧ (∃ t, exec .corr swapped = .next t) ∧ swapped.ready = true ∧
    (presentWord 0x0D00000000000000#64 swapped).host = .command 0x0D00000000000000#64 :: [] ∧
    decode 0x0D00000000000000#64 ≠ .ok .free ∧ ∃ t, step (presentWord 0x0D00000000000000#64 swapped) = .next t :=
  ⟨rfl, ⟨_, rfl⟩, rfl, rfl, by decide, ⟨_, rfl⟩⟩

theorem witness_IndexIsTheInverseOfTheAlphabet : validSeq.Inv ∧ validSeq.ready = true ∧ 3 < 2 ^ validSeq.k.toNat :=
  ⟨valid_inv, by decide⟩

/-- k = 2 and k = 32, with the two corner cases. -/
theorem witness_FoldStepShiftsAndReduces :
    (MaskShape 2 7#33 ∧ (3#33).toNat < 2 ^ 2 ∧ (3#32).toNat < 2 ^ 2 ∧ (3#33).toNat = (3#32).toNat) ∧
    (MaskShape 32 0x10000008D#33 ∧ (0x80000000#33).toNat < 2 ^ 32 ∧
      (0x80000000#33).toNat ^^^ (0#32).toNat = 2 ^ (32 - 1)) :=
  ⟨⟨mask7_shape, by decide⟩, mask32_shape, by decide⟩

theorem witness_FoldRunsFromTheLeftInRange : (0 : Nat) ≤ 32 ∧ (32 : Nat) ≤ 32 := by decide

theorem witness_FoldStepIsABijectionInEachArgument :
    MaskShape 2 7#33 ∧ MaskShape 32 0x10000008D#33 ∧ (0xFFFFFFFF#33).toNat < 2 ^ 32 ∧ (0xFFFFFFFF#32).toNat < 2 ^ 32 :=
  ⟨mask7_shape, mask32_shape, by decide⟩

theorem witness_FoldIsLinear :
    MaskShape 2 7#33 ∧ AreDigits 2 [1#32, 0#32, 3#32] ∧ AreDigits 2 [3#32, 3#32, 0#32] ∧
    [1#32, 0#32, 3#32].length = [3#32, 3#32, 0#32].length ∧ 2 < [1#32, 0#32, 3#32].length ∧
    1 + 1 < [1#32, 0#32, 3#32].length ∧ (3#32).toNat < 2 ^ 2 :=
  ⟨mask7_shape, by simp [AreDigits], by simp [AreDigits], by decide⟩

/-- x · (1 + x) mod x^2 + x + 1 is 1. -/
theorem witness_FoldStepMultipliesByXModuloTheMask :
    MaskShape 2 7#33 ∧ (1#33).toNat < 2 ^ 2 ∧ (2#32).toNat < 2 ^ 2 ∧ IsPolyOf 7#33 poly7 ∧ IsPolyOf 1#33 1 ∧
    IsPolyOf ((2#32).setWidth 33) Polynomial.X ∧ IsPolyOf (foldStep 2 7#33 1#33 2#32) 1 :=
  ⟨mask7_shape, by decide, by decide, poly7_is, one_is, x_is, one_is⟩

theorem witness_FoldStepSeesEveryExchange :
    (MaskShape 2 7#33 ∧ OddWeight 7#33 ∧ (3#33).toNat < 2 ^ 2 ∧
      foldStep 2 7#33 (foldStep 2 7#33 3#33 1#32) 1#32 = foldStep 2 7#33 (foldStep 2 7#33 3#33 1#32) 1#32) ∧
    MaskShape 32 0x10000008D#33 ∧ OddWeight 0x10000008D#33 :=
  ⟨⟨mask7_shape, mask7_odd, by decide, rfl⟩, mask32_shape, mask32_odd⟩

theorem witness_LdsAppendsOneSymbol :
    (validSeq.Inv ∧ validSeq.slen.toNat = validSeq.params.mmax + 1) ∧
    (payload.Inv ∧ payload.slen.toNat ≠ payload.params.mmax + 1) ∧ (staged []).Inv :=
  ⟨⟨valid_inv, by decide⟩, ⟨payload_inv, by decide⟩, empty_inv⟩

/-- The engine with a symbol outside the alphabet at the first of two positions. -/
def unknownFirst : State := engine [0x5A#32, 0x41#32]

theorem unknownFirst_inv : unknownFirst.Inv := by constructor <;> decide

/-- The engine with a symbol outside the alphabet at the last of three positions. -/
def unknownLast : State := engine [0x41#32, 0x42#32, 0x5A#32]

theorem unknownLast_inv : unknownLast.Inv := by constructor <;> decide

/-- No symbol at position `p` of the buffer, and only symbols before it. -/
abbrev FirstUnknown (s : State) (p : Nat) : Prop :=
  (∀ i < 2 ^ s.k.toNat, s.alpha.read i ≠ s.seq.read p) ∧ ∀ q < p, ∃ i < 2 ^ s.k.toNat, s.alpha.read i = s.seq.read q

theorem witness_CsumAnswersTheCheckSymbol :
    ((staged []).Inv ∧ (staged []).ready = false) ∧
    (overflowed.Inv ∧ overflowed.ready = true ∧ overflowed.sovf = true) ∧
    (payload.Inv ∧ payload.slen.toNat ≠ payload.m.toNat + true.toNat) ∧
    (unknownFirst.Inv ∧ unknownFirst.sovf = false ∧ unknownFirst.slen.toNat = unknownFirst.m.toNat + false.toNat ∧
      FirstUnknown unknownFirst 0) ∧
    (unknownLast.Inv ∧ unknownLast.sovf = false ∧ unknownLast.slen.toNat = unknownLast.m.toNat + true.toNat ∧
      FirstUnknown unknownLast 2) ∧
    (payload.ready = true ∧ payload.sovf = false ∧ payload.slen.toNat = payload.m.toNat + false.toNat ∧
      AreDigits payload.k.toNat [0#32, 1#32] ∧ [0#32, 1#32].length = payload.m.toNat + false.toNat ∧
      ∀ p < [0#32, 1#32].length, payload.alpha.read ([0#32, 1#32].getD p 0#32).toNat = payload.seq.read p) :=
  ⟨⟨empty_inv, rfl⟩, ⟨overflowed_inv, by decide⟩, ⟨payload_inv, by decide⟩, ⟨unknownFirst_inv, by decide⟩,
    ⟨unknownLast_inv, by decide⟩, by decide, by decide, by decide, by simp [AreDigits, payload, engine, engineOf],
    by decide, by decide⟩

theorem witness_VrfyAnswersTheZeroTest :
    ((staged []).Inv ∧ (staged []).ready = false) ∧
    (overflowed.Inv ∧ overflowed.ready = true ∧ overflowed.sovf = true) ∧
    (payload.Inv ∧ payload.slen.toNat ≠ payload.m.toNat + 1) ∧
    (unknownLast.Inv ∧ unknownLast.sovf = false ∧ unknownLast.slen.toNat = unknownLast.m.toNat + 1 ∧
      FirstUnknown unknownLast 2) ∧
    (validSeq.Inv ∧ validSeq.ready = true ∧ validSeq.sovf = false ∧ validSeq.slen.toNat = validSeq.m.toNat + 1 ∧
      AreDigits validSeq.k.toNat [0#32, 1#32, 2#32] ∧
      ∀ p < [0#32, 1#32, 2#32].length,
        validSeq.alpha.read ([0#32, 1#32, 2#32].getD p 0#32).toNat = validSeq.seq.read p) :=
  ⟨⟨empty_inv, rfl⟩, ⟨overflowed_inv, by decide⟩, ⟨payload_inv, by decide⟩, ⟨unknownLast_inv, by decide⟩, valid_inv,
    by decide, by decide, by decide, valid_holds.2.2.2.1, by decide⟩

/-- VRFY of an invalid sequence; a success and each of the three errors. -/
theorem witness_FalseVerificationIsNotAnError :
    (swapped.Inv ∧ HoldsChecked swapped [1#32, 0#32, 2#32] ∧ engineFold swapped [1#32, 0#32, 2#32] ≠ 0#33) ∧
    (validSeq.Inv ∧ look (exec .vrfy validSeq) State.responses = some (validSeq.responses ++ [responseWord 0#8 1#48])) ∧
    (payload.Inv ∧ look (exec .vrfy payload) State.responses = some (payload.responses ++ [responseWord 4#8 2#48])) ∧
    (unknownLast.Inv ∧
      look (exec .vrfy unknownLast) State.responses = some (unknownLast.responses ++ [responseWord 5#8 2#48])) ∧
    ((staged []).Inv ∧
      look (exec .vrfy (staged [])) State.responses = some ((staged []).responses ++ [responseWord 8#8 0#48])) :=
  ⟨⟨swapped_inv, swapped_holds, by decide⟩, ⟨valid_inv, by decide⟩, ⟨payload_inv, by decide⟩,
    ⟨unknownLast_inv, by decide⟩, empty_inv, by decide⟩

theorem witness_GenWritesACheckedSequence :
    ((staged []).Inv ∧ (staged []).ready = false) ∧
    supplied.Inv ∧ supplied.ready = true ∧ supplied.m.toNat ≤ supplied.rand.length :=
  ⟨⟨empty_inv, rfl⟩, supplied_inv, by decide⟩

theorem witness_GenWaitsForRandomWords :
    waitingGen.Inv ∧ waitingGen.ready = true ∧ waitingGen.busy = true ∧ waitingGen.rand.length < waitingGen.m.toNat ∧
    waitingGen.host = [] ∧ waitingGen.m.toNat ≤ (waitingGen.rand ++ [0xFFFFFFFF#32]).length :=
  ⟨waitingGen_inv, by decide⟩

theorem witness_GeneratedSequenceVerifies :
    supplied.Inv ∧ supplied.ready = true ∧ supplied.m.toNat ≤ supplied.rand.length := ⟨supplied_inv, by decide⟩

theorem witness_GenEqualsLoadChecksumAppend :
    supplied.Inv ∧ supplied.ready = true ∧ supplied.m.toNat = supplied.rand.length := ⟨supplied_inv, by decide⟩

theorem witness_CorrChecksInOrder :
    ((staged []).Inv ∧ (staged []).ready = false) ∧
    (overflowed.Inv ∧ overflowed.ready = true ∧ overflowed.sovf = true) ∧
    (payload.Inv ∧ payload.slen.toNat ≠ payload.m.toNat + 1) ∧
    (unknownLast.Inv ∧ unknownLast.sovf = false ∧ unknownLast.slen.toNat = unknownLast.m.toNat + 1 ∧
      FirstUnknown unknownLast 2) ∧
    (validSeq.Inv ∧ HoldsChecked validSeq [0#32, 1#32, 2#32] ∧ engineFold validSeq [0#32, 1#32, 2#32] = 0#33) :=
  ⟨⟨empty_inv, rfl⟩, ⟨overflowed_inv, by decide⟩, ⟨payload_inv, by decide⟩, ⟨unknownLast_inv, by decide⟩, valid_inv,
    valid_holds, by decide⟩

/-- The engine M = 1 with B, B in the buffer: no exchange is tried. -/
def equalPair : State := engineOf 1#16 [0x42#32, 0x42#32] []

theorem equalPair_inv : equalPair.Inv := by constructor <;> decide

theorem equalPair_holds : HoldsChecked equalPair [1#32, 1#32] :=
  ⟨by decide, by decide, by decide, by simp [AreDigits, equalPair, engineOf], by decide⟩

theorem witness_CorrStoresTheCandidatesInOrder :
    (swapped.Inv ∧ HoldsChecked swapped [1#32, 0#32, 2#32] ∧ engineFold swapped [1#32, 0#32, 2#32] ≠ 0#33) ∧
    (equalPair.Inv ∧ HoldsChecked equalPair [1#32, 1#32] ∧ engineFold equalPair [1#32, 1#32] ≠ 0#33) :=
  ⟨⟨swapped_inv, swapped_holds, by decide⟩, equalPair_inv, equalPair_holds, by decide⟩

theorem witness_CorrResultIsDistinctAndVerifies :
    swapped.Inv ∧ HoldsChecked swapped [1#32, 0#32, 2#32] ∧ engineFold swapped [1#32, 0#32, 2#32] ≠ 0#33 ∧
    ∃ t, exec .corr swapped = .next t := ⟨swapped_inv, swapped_holds, by decide, ⟨_, rfl⟩⟩

/-- A substitution at the last position and an exchange at the first. -/
theorem witness_CorrectionRecallsTheOriginal :
    (replaced.Inv ∧ HoldsChecked replaced [0#32, 1#32, 3#32] ∧ AreDigits replaced.k.toNat [0#32, 1#32, 2#32] ∧
      engineFold replaced [0#32, 1#32, 2#32] = 0#33 ∧ [0#32, 1#32, 3#32] ≠ [0#32, 1#32, 2#32] ∧
      ∃ j ≤ replaced.m.toNat, ∃ d : Digit, [0#32, 1#32, 3#32] = [0#32, 1#32, 2#32].set j d) ∧
    (swapped.Inv ∧ HoldsChecked swapped [1#32, 0#32, 2#32] ∧ engineFold swapped [0#32, 1#32, 2#32] = 0#33 ∧
      [1#32, 0#32, 2#32] ≠ [0#32, 1#32, 2#32] ∧ OddWeight swapped.mask ∧
      ∃ j < swapped.m.toNat, [1#32, 0#32, 2#32] = swapTrial [0#32, 1#32, 2#32] j) :=
  ⟨⟨replaced_inv, replaced_holds, by simp [AreDigits, replaced, engine, engineOf], by decide, by decide, 2, by decide,
      3#32, by decide⟩,
    swapped_inv, swapped_holds, by decide, by decide, mask7_odd, 0, by decide, by decide⟩

theorem witness_CandidatesVerifyWhenLoaded :
    solved.Inv ∧ solved.cvalid = true ∧ 0 < solved.ncand.toNat ∧ 4 < solved.ncand.toNat := ⟨solved_inv, by decide⟩

/-- The first exchange of B, A, C, and the third digit tried at its first position: both verify. -/
theorem witness_DeduplicationNeverSucceeds :
    (∃ r, runCorr swapped 1 (corrAccept leftover) = .running r ∧ r.phase = .trans ∧ r.j < swapped.m.toNat ∧
      r.dbuf.getD r.j 0#32 ≠ r.dbuf.getD (r.j + 1) 0#32 ∧ engineFold swapped (swapTrial r.dbuf r.j) = 0#33) ∧
    ∃ r, runCorr swapped 7 (corrAccept leftover) = .running r ∧ r.phase = .subst ∧ r.j ≤ swapped.m.toNat ∧
      r.sub < 2 ^ swapped.k.toNat ∧ BitVec.ofNat 32 r.sub ≠ r.dbuf.getD r.j 0#32 ∧
      engineFold swapped (substTrial r.dbuf r.j (BitVec.ofNat 32 r.sub)) = 0#33 := by
  refine ⟨⟨_, rfl, ?_⟩, ⟨_, rfl, ?_⟩⟩ <;> decide

theorem witness_SmallStepCorrCountsItsFolds :
    swapped.Inv ∧ HoldsChecked swapped [1#32, 0#32, 2#32] ∧ engineFold swapped [1#32, 0#32, 2#32] ≠ 0#33 ∧
    (∃ r, runCorr swapped 1 (corrAccept leftover) = .running r ∧ r.phase = .trans) ∧
    ∃ r, runCorr swapped 7 (corrAccept leftover) = .running r ∧ r.phase = .subst :=
  ⟨swapped_inv, swapped_holds, by decide, ⟨_, rfl, by decide⟩, ⟨_, rfl, by decide⟩⟩

theorem witness_SmallStepFoldReachesTheFold :
    (validSeq.Inv ∧ validSeq.ready = true ∧ ∃ ds, lookupFrom validSeq 0 (seqSymbols validSeq 3) = .ok ds) ∧
    (unknownLast.Inv ∧ unknownLast.ready = true ∧ ∃ e, lookupFrom unknownLast 0 (seqSymbols unknownLast 3) = .error e) :=
  ⟨⟨valid_inv, rfl, [0#32, 1#32, 2#32], by decide⟩, unknownLast_inv, rfl, .raised .unknownSymbol 2#48, by decide⟩

theorem witness_RdrAnswersTheNumberedRegister :
    solved.params.wf = true ∧ (0#32).toNat ≤ 13 ∧ (13#32).toNat ≤ 13 ∧ 13 < (14#32).toNat ∧
    13 < (0xFFFFFFFF#32).toNat := by decide

theorem witness_ReadsAnswerTheEntryOrBadIndex :
    solved.Inv ∧ (3#32).toNat < solved.alen.toNat ∧ solved.alen.toNat ≤ (4#32).toNat ∧
    (2#32).toNat < solved.slen.toNat ∧ solved.slen.toNat ≤ (3#32).toNat ∧ solved.cvalid = true ∧
    (4#24).toNat < solved.ncand.toNat ∧ (2#32).toNat ≤ solved.m.toNat ∧ solved.ncand.toNat ≤ (5#24).toNat ∧
    solved.m.toNat < (3#32).toNat ∧ swapped.Inv ∧ swapped.cvalid = false :=
  ⟨solved_inv, by decide, by decide, by decide, by decide, by decide, by decide, by decide, by decide, by decide,
    swapped_inv, rfl⟩

theorem witness_ReadsAreIdempotent :
    (Instr.rdc 4#24 2#32).mnemonic ∈ ["RDR", "RDA", "RDS", "RDC"] ∧
    look (exec (.rdc 4#24 2#32) solved) State.responses = some (solved.responses ++ [responseWord 0#8 0x44#48]) := by
  decide

theorem witness_ChecksumRoundTrip :
    payload.Inv ∧ payload.ready = true ∧ payload.sovf = false ∧ payload.slen.toNat = payload.m.toNat ∧
    Spells payload [0#32, 1#32] (seqSymbols payload payload.m.toNat) :=
  ⟨payload_inv, by decide, by decide, by decide, by simp [AreDigits, payload, engine, engineOf], by decide⟩

/-- The last position of A, B, C replaced. -/
theorem witness_SingleSubstitutionIsDetected :
    replaced.Inv ∧ AreDigits replaced.k.toNat [0#32, 1#32, 2#32] ∧
    [0#32, 1#32, 2#32].length = replaced.m.toNat + 1 ∧ engineFold replaced [0#32, 1#32, 2#32] = 0#33 ∧
    2 ≤ replaced.m.toNat ∧ (3#32).toNat < 2 ^ replaced.k.toNat ∧ 3#32 ≠ [0#32, 1#32, 2#32].getD 2 0#32 ∧
    HoldsChecked replaced ([0#32, 1#32, 2#32].set 2 3#32) :=
  ⟨replaced_inv, by simp [AreDigits, replaced, engine, engineOf], by decide, by decide, by decide, by decide, by decide,
    replaced_holds⟩

/-- The first two positions of A, B, C exchanged. -/
theorem witness_AdjacentTranspositionIsDetected :
    swapped.Inv ∧ OddWeight swapped.mask ∧ AreDigits swapped.k.toNat [0#32, 1#32, 2#32] ∧
    [0#32, 1#32, 2#32].length = swapped.m.toNat + 1 ∧ engineFold swapped [0#32, 1#32, 2#32] = 0#33 ∧
    0 < swapped.m.toNat ∧ [0#32, 1#32, 2#32].getD 0 0#32 ≠ [0#32, 1#32, 2#32].getD 1 0#32 ∧
    HoldsChecked swapped (swapTrial [0#32, 1#32, 2#32] 0) :=
  ⟨swapped_inv, mask7_odd, by simp [AreDigits, swapped, engine, engineOf], by decide, by decide, by decide, by decide,
    swapped_holds⟩

theorem witness_EveryStepKeepsTheInvariant :
    (presentWord 0x0D00000000000000#64 swapped).Inv ∧ ∃ t, step (presentWord 0x0D00000000000000#64 swapped) = .next t :=
  ⟨by constructor <;> decide, ⟨_, rfl⟩⟩

theorem witness_ResetMeetsTheInvariant : small.wf = true ∧ defaultParams.wf = true := by decide

theorem witness_NoStepFaultsUnderTheInvariant : (presentWord 0x0D00000000000000#64 swapped).Inv := by
  constructor <;> decide

/-- Two states that differ in an entry of SEQ above SLEN. -/
theorem witness_UnreadableEntriesAreUnobservable :
    payload.Inv ∧ State.Inv { validSeq with slen := 2#17 } ∧ payload.Agree { validSeq with slen := 2#17 } ∧
    payload ≠ { validSeq with slen := 2#17 } ∧ ∃ t, step payload = .next t :=
  ⟨payload_inv, by constructor <;> decide, by constructor <;> decide, by decide, ⟨_, rfl⟩⟩

theorem witness_OnlyTheNamedCommandsWrite :
    (∃ t, exec .corr swapped = .next t) ∧ (∃ t, exec .gen supplied = .next t) ∧ (∃ t, exec .free solved = .next t) ∧
    ∃ t, exec (.rds 3#32) solved = .next t ∧ t.lasterr ≠ solved.lasterr :=
  ⟨⟨_, rfl⟩, ⟨_, rfl⟩, ⟨_, rfl⟩, _, rfl, by decide⟩

/-- The largest payload of the instance, from a state in which an engine exists; the other pseudo-instructions with an
engine, without one, and with a GEN that has its words. -/
theorem witness_ConstructBuildsTheEngine :
    (solved.Inv ∧ solved.busy = false ∧ buildMask solved.params (2#8).toNat = some 7#33 ∧ 1 ≤ (2#16).toNat ∧
      (2#16).toNat ≤ solved.params.mmax ∧ abcd.length = 2 ^ (2#8).toNat ∧ abcd.Nodup) ∧ solved.ready = true ∧
    ((staged []).Inv ∧ (staged []).busy = false ∧ (staged []).ready = false) ∧
    (∃ t u, runPseudo (.loadSeq [0x42#32, 0x41#32, 0x43#32]) solved = .next t ∧ exec .corr t = .next u ∧
      lastStatus u = 0#8) ∧
    supplied.Inv ∧ supplied.busy = false ∧ ∃ u, exec .gen supplied = .next u ∧ u.busy = false ∧ lastStatus u = 0#8 :=
  ⟨⟨solved_inv, by decide⟩, rfl, ⟨empty_inv, rfl, rfl⟩, ⟨_, _, rfl, rfl, by decide⟩, supplied_inv, rfl, _, rfl, by decide⟩

/-- 70_reset_and_hazards.md R272: a reset in the middle of a CORR leaves no response and no engine. -/
theorem test_reset_inside_corr :
    runCorrInputs swapped [.go, .go, .go, .reset, .go] (corrAccept leftover) = .abandoned (microReset swapped) ∧
    (microReset swapped).ready = false ∧ (microReset swapped).responses = swapped.responses := ⟨rfl, rfl, rfl⟩

end Sys2Proof.Tests
end

section
/-! The digit index of an engine: in a state of the invariant its alphabet repeats no symbol and its indices fit a
digit, so INDEX is the inverse of ALPHA[0 .. 2^K − 1] (10_state.md R45). -/

namespace Sys2Proof.Machine

/-! ### The field exponent of an engine -/

theorem kmax_le_of_wf {p : Params} (h : p.wf = true) : p.kmax ≤ 32 := by
  simp only [Params.wf, Params.kmaxOk, Bool.and_eq_true, decide_eq_true_eq] at h
  obtain ⟨⟨⟨-, hmax⟩, -⟩, -⟩ := h
  exact hmax

/-- The field exponent of an engine is supported, so it is at most KMAX (10_state.md R50 b). -/
theorem State.Inv.k_le_kmax {s : State} (hi : s.Inv) (hr : s.ready = true) : s.k.toNat ≤ s.params.kmax := by
  obtain ⟨hmask, -⟩ := hi.engine hr
  exact (buildMask_eq_some.mp hmask).1

theorem State.Inv.two_pow_k_le {s : State} (hi : s.Inv) (hr : s.ready = true) : 2 ^ s.k.toNat ≤ 2 ^ 32 :=
  Nat.pow_le_pow_right (by decide) ((hi.k_le_kmax hr).trans (kmax_le_of_wf hi.paramsWf))

/-- An index into the alphabet of an engine fits a digit. -/
theorem State.Inv.toNat_digit {s : State} (hi : s.Inv) (hr : s.ready = true) {i : Nat} (h : i < 2 ^ s.k.toNat) :
    (BitVec.ofNat 32 i).toNat = i := by
  rw [BitVec.toNat_ofNat, Nat.mod_eq_of_lt (h.trans_le (hi.two_pow_k_le hr))]

/-! ### The alphabet and its inverse -/

theorem index_eq_none {s : State} {x : Sym} : index s x = none ↔ ∀ i < 2 ^ s.k.toNat, s.alpha.read i ≠ x := by
  rw [index, Option.map_eq_none_iff, indexBelow_eq_none]

/-- An entry of the alphabet is its own first occurrence, so INDEX hits it at its own index. -/
theorem index_alpha_read {s : State} (hi : s.Inv) (hr : s.ready = true) {i : Nat} (h : i < 2 ^ s.k.toNat) :
    index s (s.alpha.read i) = some (BitVec.ofNat 32 i) := by
  have hfirst : indexBelow s.alpha (s.alpha.read i) (2 ^ s.k.toNat) = some i :=
    indexBelow_eq_some.mpr ⟨h, rfl, hi.distinct hr i h⟩
  rw [index, hfirst, Option.map_some]

theorem index_symbolOf {s : State} (hi : s.Inv) (hr : s.ready = true) {d : Digit} (h : d.toNat < 2 ^ s.k.toNat) :
    index s (symbolOf s d) = some d := by
  rw [symbolOf, index_alpha_read hi hr h, BitVec.ofNat_toNat, BitVec.setWidth_eq]

theorem index_eq_some {s : State} (hi : s.Inv) (hr : s.ready = true) {x : Sym} {d : Digit} :
    index s x = some d ↔ d.toNat < 2 ^ s.k.toNat ∧ symbolOf s d = x := by
  constructor
  · intro h
    obtain ⟨i, hfound, rfl⟩ := Option.map_eq_some_iff.mp h
    obtain ⟨hlt, hx, -⟩ := indexBelow_eq_some.mp hfound
    rw [symbolOf, hi.toNat_digit hr hlt]
    exact ⟨hlt, hx⟩
  · rintro ⟨hlt, rfl⟩
    exact index_symbolOf hi hr hlt

/-- Settles O22: the three clauses are the look-up of an entry, the hits and the misses of INDEX. -/
theorem indexIsTheInverseOfTheAlphabet : Obligations.IndexIsTheInverseOfTheAlphabet := by
  intro s hi hr
  exact ⟨fun _ => index_alpha_read hi hr, fun _ _ => index_eq_some hi hr, fun _ => index_eq_none⟩

end Sys2Proof.Machine
end

section
/-! The opcode map against the decoder (30_encoding.md R89, R90): OP selects a row, and then the decoder answers the row's
command when the word matches the row, and refuses a reserved bit when it does not. -/

namespace Sys2Proof

/-! ### What the mask of a row shows of a word -/

/-- The word whose ones are the `len` bits from bit `lo`. -/
def fieldMask (lo len : Nat) : Word64 := (BitVec.allOnes len).setWidth 64 <<< lo

/-- The mask of a row of the opcode map whose format reserves the `len` bits from bit `lo`: OP and the reserved field
(30_encoding.md R81, R89). -/
def rowMask (lo len : Nat) : Word64 := fieldMask 56 8 ||| fieldMask lo len

theorem getLsbD_fieldMask {lo len i : Nat} : (fieldMask lo len).getLsbD i = true ↔ i < 64 ∧ lo ≤ i ∧ i < lo + len := by
  rw [fieldMask]
  grind

/-- Two words agree under a mask exactly when they agree at its ones. -/
theorem and_mask_inj {w v mask : Word64} :
    w &&& mask = v &&& mask ↔ ∀ i, mask.getLsbD i = true → w.getLsbD i = v.getLsbD i := by
  constructor
  · intro h i hi
    have hbit := congrArg (BitVec.getLsbD · i) h
    simpa only [BitVec.getLsbD_and, hi, Bool.and_true] using hbit
  · intro h
    refine BitVec.eq_of_getLsbD_eq fun i _ => ?_
    cases hi : mask.getLsbD i with
    | true => rw [BitVec.getLsbD_and, BitVec.getLsbD_and, h i hi]
    | false => rw [BitVec.getLsbD_and, BitVec.getLsbD_and, hi, Bool.and_false, Bool.and_false]

theorem and_fieldMask_inj {w v : Word64} {lo len : Nat} :
    w &&& fieldMask lo len = v &&& fieldMask lo len ↔ w.extractLsb' lo len = v.extractLsb' lo len := by
  simp only [and_mask_inj, getLsbD_fieldMask]
  constructor
  · intro h
    refine BitVec.eq_of_getLsbD_eq fun i hi => ?_
    grind
  · rintro h i ⟨-, hlo, hhi⟩
    have hbit := congrArg (BitVec.getLsbD · (i - lo)) h
    grind

theorem and_or_mask_inj {w v a b : Word64} :
    w &&& (a ||| b) = v &&& (a ||| b) ↔ w &&& a = v &&& a ∧ w &&& b = v &&& b := by
  simp only [and_mask_inj, BitVec.getLsbD_or, Bool.or_eq_true, or_imp, forall_and]

/-- Two words agree under the mask of a row exactly when they have the same OP and the same reserved field. -/
theorem and_rowMask_inj {w v : Word64} {lo len : Nat} :
    w &&& rowMask lo len = v &&& rowMask lo len ↔
      opcodeField w = opcodeField v ∧ w.extractLsb' lo len = v.extractLsb' lo len :=
  and_or_mask_inj.trans (and_congr and_fieldMask_inj and_fieldMask_inj)

/-! ### The decoder row by row -/

/-- What the decoder answers a word whose OP is the row's: the row's command when the word matches the row, else the
refusal of a reserved bit (30_encoding.md R90). -/
def DecodesByRow (w : Word64) (r : OpcodeRow) : Prop :=
  opcodeField w = opcodeField r.matchWord →
    ∃ i : Instr, i.mnemonic = r.mnemonic ∧
      decode w = if w &&& r.mask = r.matchWord then .ok i else .error .reservedBit

/-- RDC reserves no bit (30_encoding.md R87). -/
theorem ifReservedZero_nothing (w : Word64) (i : Instr) : ifReservedZero w 0 0 i = .ok i :=
  ifReservedZero_ok.mpr ⟨BitVec.of_length_zero, rfl⟩

/-- A format that reserves the `len` bits from bit `lo` decodes as its row does, when the row's mask is OP with that field
and the row's match is zero there. -/
theorem decodesByRow_of_reserved {w : Word64} {r : OpcodeRow} {i : Instr} (lo len : Nat)
    (hdec : opcodeField w = opcodeField r.matchWord → decode w = ifReservedZero w lo len i)
    (hname : i.mnemonic = r.mnemonic)
    (hrow : r.mask = rowMask lo len ∧ r.matchWord &&& r.mask = r.matchWord ∧ r.matchWord.extractLsb' lo len = 0#len) :
    DecodesByRow w r := by
  intro hop
  obtain ⟨hmask, hmatch, hzero⟩ := hrow
  have hiff : w &&& r.mask = r.matchWord ↔ w.extractLsb' lo len = 0#len := by
    conv_lhs => rw [← hmatch, hmask, and_rowMask_inj, hzero]
    exact and_iff_right hop
  refine ⟨i, hname, ?_⟩
  simp only [hdec hop, ifReservedZero, hiff]

/-- The opcode map row by row, each under the format of 30_encoding.md R81 that its OP selects. -/
theorem decodesByRow (w : Word64) : ∀ r ∈ opcodeTable, DecodesByRow w r := by
  simp only [opcodeTable, List.forall_mem_cons]
  exact ⟨decodesByRow_of_reserved 0 56 decode_nop rfl (by decide),
    decodesByRow_of_reserved 0 56 decode_clra rfl (by decide),
    decodesByRow_of_reserved 32 24 decode_lda rfl (by decide),
    decodesByRow_of_reserved 16 32 decode_init rfl (by decide),
    decodesByRow_of_reserved 0 56 decode_free rfl (by decide),
    decodesByRow_of_reserved 0 48 decode_mkmask rfl (by decide),
    decodesByRow_of_reserved 0 56 decode_clrs rfl (by decide),
    decodesByRow_of_reserved 32 24 decode_lds rfl (by decide),
    decodesByRow_of_reserved 1 55 decode_csum rfl (by decide),
    decodesByRow_of_reserved 0 56 decode_vrfy rfl (by decide),
    decodesByRow_of_reserved 0 56 decode_gen rfl (by decide),
    decodesByRow_of_reserved 0 56 decode_corr rfl (by decide),
    decodesByRow_of_reserved 32 24 decode_rdr rfl (by decide),
    decodesByRow_of_reserved 32 24 decode_rda rfl (by decide),
    decodesByRow_of_reserved 32 24 decode_rds rfl (by decide),
    decodesByRow_of_reserved 0 0 (fun h => (decode_rdc h).trans (ifReservedZero_nothing w _).symm) rfl (by decide),
    decodesByRow_of_reserved 0 56 decode_clre rfl (by decide),
    List.forall_mem_nil _⟩

theorem opcodes_eq_map : opcodes = opcodeTable.map fun r => opcodeField r.matchWord := by decide

/-- No two rows carry the same mnemonic. -/
theorem opcodeRow_eq_of_mnemonic :
    ∀ r ∈ opcodeTable, ∀ r' ∈ opcodeTable, r.mnemonic = r'.mnemonic → r = r' := by decide

/-- Every mask keeps OP, so a word that matches a row has the row's OP. -/
theorem opcodeField_of_matches {w : Word64} {r : OpcodeRow} (hr : r ∈ opcodeTable) (h : w &&& r.mask = r.matchWord) :
    opcodeField w = opcodeField r.matchWord := by
  have hmask : ∀ r ∈ opcodeTable, r.mask.extractLsb' 56 8 = BitVec.allOnes 8 := by decide
  rw [← h, opcodeField, opcodeField, BitVec.extractLsb'_and, hmask r hr, BitVec.and_allOnes]

/-- A word with one of the seventeen opcodes has the OP of a row. -/
theorem exists_row_of_opcode {w : Word64} (h : opcodeField w ∈ opcodes) :
    ∃ r ∈ opcodeTable, opcodeField w = opcodeField r.matchWord := by
  rw [opcodes_eq_map] at h
  obtain ⟨r, hr, hop⟩ := List.mem_map.mp h
  exact ⟨r, hr, hop.symm⟩

/-- A word that matches a row decodes to a command of the row's mnemonic. -/
theorem decode_ok_of_matches {w : Word64} {r : OpcodeRow} (hr : r ∈ opcodeTable) (h : w &&& r.mask = r.matchWord) :
    ∃ i, decode w = .ok i ∧ i.mnemonic = r.mnemonic := by
  obtain ⟨i, hname, hdec⟩ := decodesByRow w r hr (opcodeField_of_matches hr h)
  exact ⟨i, hdec.trans (if_pos h), hname⟩

/-- A word that decodes to a command matches a row of the command's mnemonic. -/
theorem matches_of_decode_ok {w : Word64} {i : Instr} (h : decode w = .ok i) :
    ∃ r ∈ opcodeTable, w &&& r.mask = r.matchWord ∧ i.mnemonic = r.mnemonic := by
  by_cases hop : opcodeField w ∈ opcodes
  · obtain ⟨r, hr, hop⟩ := exists_row_of_opcode hop
    obtain ⟨j, hname, hdec⟩ := decodesByRow w r hr hop
    rw [h] at hdec
    split at hdec
    case isTrue hmatch => exact ⟨r, hr, hmatch, (Except.ok.inj hdec) ▸ hname⟩
    case isFalse => cases hdec
  · cases h.symm.trans (decode_unknown hop)

theorem decode_ok_iff (w : Word64) : (∃ i, decode w = .ok i) ↔ ∃ r ∈ opcodeTable, w &&& r.mask = r.matchWord := by
  constructor
  · rintro ⟨i, h⟩
    obtain ⟨r, hr, hmatch, -⟩ := matches_of_decode_ok h
    exact ⟨r, hr, hmatch⟩
  · rintro ⟨r, hr, hmatch⟩
    obtain ⟨i, h, -⟩ := decode_ok_of_matches hr hmatch
    exact ⟨i, h⟩

/-- The rows that a command word matches are those of its command's mnemonic. -/
theorem matches_iff_mnemonic {w : Word64} {i : Instr} (h : decode w = .ok i) {r : OpcodeRow} (hr : r ∈ opcodeTable) :
    w &&& r.mask = r.matchWord ↔ r.mnemonic = i.mnemonic := by
  constructor
  · intro hmatch
    obtain ⟨j, hj, hname⟩ := decode_ok_of_matches hr hmatch
    rw [← hname, Except.ok.inj (hj.symm.trans h)]
  · intro hname
    obtain ⟨r', hr', hmatch, hname'⟩ := matches_of_decode_ok h
    rwa [opcodeRow_eq_of_mnemonic r hr r' hr' (hname.trans hname')]

/-- Settles O2: a row that matches fixes the decoded mnemonic, and a mnemonic fixes its row. -/
theorem opcodeMapDecidesEveryWord : Obligations.OpcodeMapDecidesEveryWord := by
  refine ⟨decode_ok_iff, fun w i h r hr => matches_iff_mnemonic h hr, fun w r hr r' hr' h h' => ?_⟩
  obtain ⟨i, hi, hname⟩ := decode_ok_of_matches hr h
  exact opcodeRow_eq_of_mnemonic r hr r' hr' (hname.symm.trans ((matches_iff_mnemonic hi hr').mp h').symm)

/-! ### The two ways of being illegal -/

theorem decode_unknownOpcode_iff (w : Word64) : decode w = .error .unknownOpcode ↔ opcodeField w ∉ opcodes := by
  refine ⟨fun h hop => ?_, decode_unknown⟩
  obtain ⟨r, hr, hop⟩ := exists_row_of_opcode hop
  obtain ⟨i, -, hdec⟩ := decodesByRow w r hr hop
  rw [h] at hdec
  split at hdec <;> cases hdec

/-- A reserved bit is the reason that is left when OP is known and no row matches. -/
theorem decode_reservedBit_iff (w : Word64) :
    decode w = .error .reservedBit ↔ opcodeField w ∈ opcodes ∧ ∀ r ∈ opcodeTable, w &&& r.mask ≠ r.matchWord := by
  have hopcode : opcodeField w ∈ opcodes ↔ decode w ≠ .error .unknownOpcode := by
    rw [ne_eq, decode_unknownOpcode_iff, not_not]
  have hrows : (∀ r ∈ opcodeTable, w &&& r.mask ≠ r.matchWord) ↔ ¬ ∃ i, decode w = .ok i := by
    simp only [decode_ok_iff, not_exists, not_and, ne_eq]
  rw [hopcode, hrows]
  cases decode w with
  | ok i => simp
  | error e => cases e <;> simp

/-- The opcodes as numbers. -/
theorem toNat_mem_opcodes {op : BitVec 8} : op.toNat ∈ opcodes.map BitVec.toNat ↔ op ∈ opcodes :=
  List.mem_map_of_injective fun _ _ => BitVec.eq_of_toNat_eq

end Sys2Proof

namespace Sys2Proof.Machine

theorem nextActivity_command {s : State} {w : Word64} {rest : List HostInput} (hb : s.busy = false)
    (hh : s.host = .command w :: rest) : nextActivity s = .accept w { s with host := rest } := by
  simp [nextActivity, hh, hb]

/-- An illegal word is taken from the port and raises IllegalCommand (30_encoding.md R90). -/
theorem step_of_decode_error {s : State} {w : Word64} {rest : List HostInput} {e : Illegal} (hd : decode w = .error e)
    (hb : s.busy = false) (hh : s.host = .command w :: rest) :
    step s = .next (raise .illegalCommand 0#48 { s with host := rest }) := by
  simp only [step, nextActivity_command hb hh, hd, illegalWord]

/-- Settles O3: OP decides the first refusal, the rows the second, and the step of an illegal word is one `raise`. -/
theorem illegalWordsRaiseIllegalCommand : Obligations.IllegalWordsRaiseIllegalCommand :=
  ⟨fun w => (decode_unknownOpcode_iff w).trans (not_congr toNat_mem_opcodes.symm),
    fun w => (decode_reservedBit_iff w).trans (and_congr_left' toNat_mem_opcodes.symm),
    fun _ _ _ _ => step_of_decode_error⟩

end Sys2Proof.Machine
end

section
/-! MASKGEN under well-formed parameters: what POLY_TABLE gives for a field exponent (40_maskgen.md R110), the bits of
mask(k) (R111, R112), the supported set (R113), and the command MKMASK (R114, R117). -/

namespace Sys2Proof

/-! ### A well-formed table -/

theorem Params.two_le_kmax {p : Params} (h : p.wf = true) : 2 ≤ p.kmax := by
  simp only [Params.wf, Params.kmaxOk, Bool.and_eq_true, decide_eq_true_eq] at h
  obtain ⟨⟨⟨hmin, -⟩, -⟩, -⟩ := h
  exact hmin

theorem Params.polyTable_wf {p : Params} (h : p.wf = true) : p.polyTable.wf = true := by
  simp only [Params.wf, Bool.and_eq_true] at h
  exact h.2

/-- What 40_maskgen.md R110 (b) to (d) asks of the entry of the exponent `k`. -/
structure PolyTable.EntryOk (k : Nat) (es : List Nat) : Prop where
  leading_mem : k ∈ es
  le_leading : ∀ e ∈ es, e ≤ k
  one_le : ∀ e ∈ es, 1 ≤ e
  nodup : es.Nodup

/-- Constraints (c) and (d) of 40_maskgen.md R110 together: with the constant term, the exponents are still distinct. -/
theorem PolyTable.EntryOk.nodup_zero_cons {k : Nat} {es : List Nat} (h : EntryOk k es) : (0 :: es).Nodup :=
  List.nodup_cons.mpr ⟨fun h0 => absurd (h.one_le 0 h0) (by decide), h.nodup⟩

/-- The table has an entry exactly for the exponents of its domain (40_maskgen.md R110 a). -/
theorem PolyTable.exists_lookup_iff {t : PolyTable} (h : t.wf = true) {k : Nat} :
    (∃ es, t.lookup k = some es) ↔ 2 ≤ k ∧ k ≤ 32 := by
  simp only [PolyTable.wf, domainOk, Bool.and_eq_true, beq_iff_eq] at h
  obtain ⟨⟨⟨⟨hdom, -⟩, -⟩, -⟩, -⟩ := h
  have hmem : k ∈ t.map Prod.fst ↔ 2 ≤ k ∧ k ≤ 32 := by
    simp only [hdom, List.mem_map, List.mem_range]
    exact ⟨by rintro ⟨i, hi, rfl⟩; omega, fun hk => ⟨k - 2, by omega, by omega⟩⟩
  rw [← Option.isSome_iff_exists, List.lookup_isSome_iff, ← hmem, List.mem_map]
  simp only [beq_iff_eq, @eq_comm _ k]

theorem PolyTable.entryOk_of_lookup {t : PolyTable} (h : t.wf = true) {k : Nat} {es : List Nat}
    (hes : t.lookup k = some es) : EntryOk k es := by
  simp only [PolyTable.wf, leadingOk, noConstantOk, distinctOk, Bool.and_eq_true, List.all_eq_true, decide_eq_true_eq,
    List.contains_iff_mem] at h
  obtain ⟨⟨⟨⟨-, hlead⟩, hconst⟩, hdist⟩, -⟩ := h
  have hrow : (k, es) ∈ t := by
    obtain ⟨l₁, l₂, rfl, -⟩ := List.lookup_eq_some_iff.mp hes
    simp
  obtain ⟨hk, hle⟩ := hlead _ hrow
  exact ⟨hk, hle, hconst _ hrow, hdist _ hrow⟩

theorem PolyTable.lookup_two {t : PolyTable} (h : t.wf = true) : t.lookup 2 = some [2, 1] := by
  simp only [PolyTable.wf, rowTwoOk, Bool.and_eq_true, beq_iff_eq] at h
  exact h.2

/-! ### Sums of distinct powers of two -/

/-- Distinct powers of two are summed without a carry, so the set bits of the sum are the exponents. -/
theorem testBit_sum_two_pow {es : List Nat} (h : es.Nodup) {i : Nat} :
    (es.map fun e => 2 ^ e).sum.testBit i = true ↔ i ∈ es := by
  rw [← List.sum_toFinset _ h, ← Nat.mem_bitIndices, ← List.mem_toFinset,
    Finset.toFinset_bitIndices_sum_two_pow, List.mem_toFinset]

theorem sum_two_pow_lt {es : List Nat} (h : es.Nodup) {n : Nat} (hlt : ∀ e ∈ es, e < n) :
    (es.map fun e => 2 ^ e).sum < 2 ^ n := by
  rw [← List.sum_toFinset _ h]
  exact Nat.geomSum_lt le_rfl fun e he => hlt e (List.mem_toFinset.mp he)

end Sys2Proof

namespace Sys2Proof.Machine

/-! ### The mask of an entry -/

section

variable {k : Nat} {es : List Nat}

/-- The sum of 40_maskgen.md R111, whose leading power is `2^k` and which has no carry out of bit `k`. -/
theorem maskSum_bounds (h : PolyTable.EntryOk k es) :
    2 ^ k < 1 + (es.map fun e => 2 ^ e).sum ∧ 1 + (es.map fun e => 2 ^ e).sum < 2 ^ (k + 1) := by
  have hlead : 2 ^ k ≤ (es.map fun e => 2 ^ e).sum := List.le_sum_of_mem (List.mem_map_of_mem h.leading_mem)
  have hlt : ((0 :: es).map fun e => 2 ^ e).sum < 2 ^ (k + 1) :=
    sum_two_pow_lt h.nodup_zero_cons
      (List.forall_mem_cons.mpr ⟨k.succ_pos, fun e he => Nat.lt_succ_of_le (h.le_leading e he)⟩)
  exact ⟨by omega, hlt⟩

/-- The sum fits the 33 bits of a mask (40_maskgen.md R111). -/
theorem maskSum_lt (h : PolyTable.EntryOk k es) (hk : k ≤ 32) : 1 + (es.map fun e => 2 ^ e).sum < 2 ^ 33 :=
  (maskSum_bounds h).2.trans_le (Nat.pow_le_pow_right (by decide) (by omega))

theorem toNat_maskOfExponents (h : PolyTable.EntryOk k es) (hk : k ≤ 32) :
    (maskOfExponents es).toNat = 1 + (es.map fun e => 2 ^ e).sum := by
  rw [maskOfExponents, BitVec.toNat_ofNat, Nat.mod_eq_of_lt (maskSum_lt h hk)]

/-- The set bits of the mask are bit 0 and the bits listed (40_maskgen.md R111). -/
theorem getLsbD_maskOfExponents (h : PolyTable.EntryOk k es) (hk : k ≤ 32) {i : Nat} :
    (maskOfExponents es).getLsbD i = true ↔ i = 0 ∨ i ∈ es := by
  have hsum : 1 + (es.map fun e => 2 ^ e).sum = ((0 :: es).map fun e => 2 ^ e).sum := rfl
  rw [BitVec.getLsbD, toNat_maskOfExponents h hk, hsum, testBit_sum_two_pow h.nodup_zero_cons, List.mem_cons]

theorem maskShape_maskOfExponents (h : PolyTable.EntryOk k es) (hk : k ≤ 32) : MaskShape k (maskOfExponents es) := by
  refine ⟨(getLsbD_maskOfExponents h hk).mpr (.inr h.leading_mem), (getLsbD_maskOfExponents h hk).mpr (.inl rfl),
    fun i _ hki => ?_⟩
  rw [← Bool.not_eq_true, getLsbD_maskOfExponents h hk]
  rintro (rfl | hi)
  · exact absurd hki k.not_lt_zero
  · exact absurd (h.le_leading i hi) hki.not_ge

end

/-- Settles O13: the listed exponents and 0 are distinct, so the sum has no carry and its bits are read off the list. -/
theorem maskIsTheOrOfTheListedBits : Obligations.MaskIsTheOrOfTheListedBits := by
  intro p k hp h2 h32
  have ht := Params.polyTable_wf hp
  obtain ⟨es, hes⟩ := (PolyTable.exists_lookup_iff ht).mpr ⟨h2, h32⟩
  have hok := PolyTable.entryOk_of_lookup ht hes
  have hval := toNat_maskOfExponents hok h32
  exact ⟨es, hes, hval, fun _ => getLsbD_maskOfExponents hok h32, maskShape_maskOfExponents hok h32,
    hval ▸ maskSum_bounds hok⟩

/-! ### The supported set -/

theorem supported_iff_of_wf {p : Params} (h : p.wf = true) {k : Nat} :
    supported p k = true ↔ 2 ≤ k ∧ k ≤ 32 ∧ k ≤ p.kmax := by
  rw [supported_iff, PolyTable.exists_lookup_iff (Params.polyTable_wf h), and_assoc]

theorem isSome_buildMask (p : Params) (k : Nat) : (buildMask p k).isSome = supported p k := by
  rw [Bool.eq_iff_iff, Option.isSome_iff_ne_none, ne_eq, buildMask_eq_none, Bool.not_eq_false]

/-- mask(2) is 7 (40_maskgen.md R116). -/
theorem buildMask_two {p : Params} (h : p.wf = true) : buildMask p 2 = some 7#33 :=
  buildMask_eq_some.mpr ⟨Params.two_le_kmax h, [2, 1], PolyTable.lookup_two (Params.polyTable_wf h), by decide⟩

/-- Settles O15: the domain of the table is 2 to 32, and `buildMask` looks up exactly the supported exponents. -/
theorem supportedSetIsTwoToKmax : Obligations.SupportedSetIsTwoToKmax :=
  fun p hp => ⟨fun _ => supported_iff_of_wf hp, isSome_buildMask p, buildMask_two hp⟩

/-! ### MKMASK -/

/-- A word of format K with OP 0x05 and a zero reserved field is MKMASK of its k (30_encoding.md R84, R89). -/
theorem decode_mkmask_word (k : BitVec 8) : decode (0x05#8 ++ (k ++ 0#48)) = .ok (.mkmask k) := by
  have hop : opcodeField (0x05#8 ++ (k ++ 0#48)) = 0x05#8 := BitVec.extractLsb'_append_eq_left
  have hk : kField (0x05#8 ++ (k ++ 0#48)) = k :=
    (BitVec.extractLsb'_append_eq_of_add_le (by decide)).trans BitVec.extractLsb'_append_eq_left
  have hzero : (0x05#8 ++ (k ++ 0#48) : Word64).extractLsb' 0 48 = 0#48 :=
    (BitVec.extractLsb'_append_eq_of_add_le (by decide)).trans BitVec.extractLsb'_append_eq_right
  rw [decode_mkmask hop, hk]
  exact ifReservedZero_ok.mpr ⟨hzero, rfl⟩

theorem exec_mkmask (k : BitVec 8) (s : State) : exec (.mkmask k) s = execMkmask k s := rfl

theorem exec_mkmask_of_buildMask_some {k : BitVec 8} {s : State} {mask : Acc}
    (h : buildMask s.params k.toNat = some mask) : exec (.mkmask k) s = .next (respond (mask.setWidth 48) s) := by
  rw [exec_mkmask, execMkmask, h]

theorem exec_mkmask_of_buildMask_none {k : BitVec 8} {s : State} (h : buildMask s.params k.toNat = none) :
    exec (.mkmask k) s = .next (raise .invalidFieldSize (k.setWidth 48) s) := by
  rw [exec_mkmask, execMkmask, h]

/-- Settles O16: a supported k has a mask that the response carries whole, and every k outside 2 to KMAX has none. -/
theorem mkmaskAnswersTheMask : Obligations.MkmaskAnswersTheMask := by
  intro k s hp
  have ht := Params.polyTable_wf hp
  refine ⟨decode_mkmask_word k, fun h2 hkmax => ?supported, fun hk => ?unsupported⟩
  case supported =>
    have h32 := hkmax.trans (kmax_le_of_wf hp)
    obtain ⟨es, hes⟩ := (PolyTable.exists_lookup_iff ht).mpr ⟨h2, h32⟩
    have hlt := maskSum_lt (PolyTable.entryOk_of_lookup ht hes) h32
    refine ⟨es, hes, ?_, hlt⟩
    rw [exec_mkmask_of_buildMask_some (buildMask_eq_some.mpr ⟨hkmax, es, hes, rfl⟩), maskOfExponents,
      BitVec.setWidth_ofNat_of_le_of_lt (by decide) hlt]
  case unsupported =>
    refine exec_mkmask_of_buildMask_none (buildMask_eq_none.mpr ?_)
    rw [← Bool.not_eq_true, supported_iff_of_wf hp]
    omega

end Sys2Proof.Machine
end

section
/-! Engine construction: what CLRA, LDA, INIT and FREE do in each of their cases, each case under its own name
(41_construct.md R120 to R125), and the words of these commands (30_encoding.md R82, R83, R85). -/

namespace Sys2Proof

/-! ### Words written out from their fields -/

theorem opcodeField_append (op : BitVec 8) (x : BitVec 56) : opcodeField (op ++ x) = op :=
  BitVec.extractLsb'_append_eq_left

/-- What a field below OP holds is read from the 56 bits below OP. -/
theorem extractLsb'_below_opcode (op : BitVec 8) (x : BitVec 56) {lo len : Nat} (h : lo + len ≤ 56) :
    (op ++ x : Word64).extractLsb' lo len = x.extractLsb' lo len :=
  BitVec.extractLsb'_append_eq_of_add_le h

/-- A word of format S with a zero reserved field is no refusal (30_encoding.md R83). -/
theorem formatS_append (op : BitVec 8) (x : BitVec 32) (i : Instr) : formatS (op ++ (0#24 ++ x)) i = .ok i :=
  ifReservedZero_ok.mpr
    ⟨(extractLsb'_below_opcode op _ (by decide)).trans BitVec.extractLsb'_append_eq_left, rfl⟩

/-- The low 32 bits of a word of format S are its operand (30_encoding.md R83). -/
theorem symField_append (op : BitVec 8) (x : BitVec 32) : symField (op ++ (0#24 ++ x)) = x :=
  (extractLsb'_below_opcode op _ (by decide)).trans BitVec.extractLsb'_append_eq_right

theorem decode_clra_word : decode 0x0100000000000000#64 = .ok .clra :=
  (decode_clra (by decide)).trans (ifReservedZero_ok.mpr ⟨by decide, rfl⟩)

theorem decode_free_word : decode 0x0400000000000000#64 = .ok .free :=
  (decode_free (by decide)).trans (ifReservedZero_ok.mpr ⟨by decide, rfl⟩)

theorem decode_lda_word (sym : BitVec 32) : decode (0x02#8 ++ (0#24 ++ sym)) = .ok (.lda sym) := by
  rw [decode_lda (opcodeField_append _ _), symField_append, formatS_append]

/-- A word of format C with OP 0x03 and a zero reserved field is INIT of its k and m (30_encoding.md R85, R89). -/
theorem decode_init_word (k : BitVec 8) (m : BitVec 16) :
    decode (0x03#8 ++ (k ++ (0#32 ++ m))) = .ok (.init k m) := by
  have hk : kField (0x03#8 ++ (k ++ (0#32 ++ m))) = k :=
    (extractLsb'_below_opcode _ _ (by decide)).trans BitVec.extractLsb'_append_eq_left
  have hm : mField (0x03#8 ++ (k ++ (0#32 ++ m))) = m :=
    (extractLsb'_below_opcode _ _ (by decide)).trans
      ((BitVec.extractLsb'_append_eq_of_add_le (by decide)).trans BitVec.extractLsb'_append_eq_right)
  have hzero : (0x03#8 ++ (k ++ (0#32 ++ m)) : Word64).extractLsb' 16 32 = 0#32 :=
    (extractLsb'_below_opcode _ _ (by decide)).trans
      ((BitVec.extractLsb'_append_eq_of_add_le (by decide)).trans BitVec.extractLsb'_append_eq_left)
  rw [decode_init (opcodeField_append _ _), hk, hm]
  exact ifReservedZero_ok.mpr ⟨hzero, rfl⟩

end Sys2Proof

namespace Sys2Proof.Machine

/-! ### CLRA -/

theorem exec_clra_of_ready {s : State} (h : s.ready = true) : exec .clra s = .next (raise .locked 0#48 s) := if_pos h

theorem exec_clra_of_not_ready {s : State} (h : s.ready = false) :
    exec .clra s = .next (respond 0#48 { s with alen := 0#33, aovf := false }) := if_neg (Bool.eq_false_iff.mp h)

/-- Settles O17: the two cases of CLRA are the two values of READY. -/
theorem clraEmptiesTheStagingArea : Obligations.ClraEmptiesTheStagingArea :=
  fun _ => ⟨decode_clra_word, exec_clra_of_ready, exec_clra_of_not_ready⟩

/-! ### LDA -/

theorem alphaFull_iff (s : State) : alphaFull s = true ↔ s.alen.toNat = alphaSize s.params := decide_eq_true_iff

theorem exec_lda (sym : Sym) (s : State) : exec (.lda sym) s = execLda sym s := rfl

theorem exec_lda_of_ready {sym : Sym} {s : State} (h : s.ready = true) :
    exec (.lda sym) s = .next (raise .locked 0#48 s) := if_pos h

/-- At ALEN = 2^KMAX the symbol is dropped (41_construct.md R121). -/
theorem exec_lda_of_full {sym : Sym} {s : State} (hr : s.ready = false) (hfull : s.alen.toNat = alphaSize s.params) :
    exec (.lda sym) s = .next (respond (s.alen.setWidth 48) { s with aovf := true }) := by
  rw [exec_lda, execLda, if_neg (Bool.eq_false_iff.mp hr), if_pos ((alphaFull_iff s).mpr hfull)]

/-- Below 2^KMAX the symbol becomes ALPHA[ALEN] (41_construct.md R121). -/
theorem exec_lda_of_room {sym : Sym} {s : State} (hr : s.ready = false) (hroom : s.alen.toNat < alphaSize s.params) :
    exec (.lda sym) s =
      .next (respond ((s.alen + 1#33).setWidth 48)
        { s with alpha := s.alpha.write s.alen.toNat sym, alen := s.alen + 1#33 }) := by
  have hwrite := writeAlpha_ok.mpr ⟨hroom, Eq.refl { s with alpha := s.alpha.write s.alen.toNat sym }⟩
  rw [exec_lda, execLda, if_neg (Bool.eq_false_iff.mp hr), if_neg fun h => hroom.ne ((alphaFull_iff s).mp h), hwrite]

theorem alphaSize_le {p : Params} (h : p.wf = true) : alphaSize p ≤ 2 ^ 32 :=
  Nat.pow_le_pow_right (by decide) (kmax_le_of_wf h)

/-- ALEN counts to 2^KMAX in its 33 bits without overflow (10_state.md R34). -/
theorem toNat_alen_succ {s : State} (hp : s.params.wf = true) (hroom : s.alen.toNat < alphaSize s.params) :
    (s.alen + 1#33).toNat = s.alen.toNat + 1 := by
  have hlt : s.alen.toNat < 2 ^ 32 := hroom.trans_le (alphaSize_le hp)
  exact BitVec.toNat_add_of_lt (by simp only [BitVec.toNat_ofNat]; omega)

/-- Settles O18: under the invariant ALEN is at most 2^KMAX, so ALPHA is full or has room for the symbol. -/
theorem ldaAppendsOneSymbol : Obligations.LdaAppendsOneSymbol := by
  intro sym s hi
  refine ⟨decode_lda_word sym, exec_lda_of_ready, exec_lda_of_full, fun hr hne => ?_⟩
  have hroom : s.alen.toNat < alphaSize s.params := lt_of_le_of_ne hi.lengths.1 hne
  have hread := Memory.read_write hi.alphaForm.1 s.alen.toNat (v := sym)
  exact ⟨_, exec_lda_of_room hr hroom, rfl, toNat_alen_succ hi.paramsWf hroom, (hread _).trans (if_pos rfl),
    fun i hne => (hread i).trans (if_neg hne)⟩

/-! ### INIT -/

theorem exec_init (k : BitVec 8) (m : BitVec 16) (s : State) : exec (.init k m) s = execInit k m s := rfl

section

variable {k : BitVec 8} {m : BitVec 16} {s : State} {mask : Acc}

theorem exec_init_of_ready (h : s.ready = true) : exec (.init k m) s = .next (raise .locked 0#48 s) := if_pos h

theorem exec_init_of_unsupported (hr : s.ready = false) (hk : supported s.params k.toNat = false) :
    exec (.init k m) s = .next (raise .invalidFieldSize (k.setWidth 48) s) := by
  rw [exec_init, execInit, if_neg (Bool.eq_false_iff.mp hr), buildMask_eq_none.mpr hk]

variable (hr : s.ready = false) (hk : buildMask s.params k.toNat = some mask)

include hr hk

theorem exec_init_of_invalidPayload (hm : m.toNat < 1 ∨ s.params.mmax < m.toNat) :
    exec (.init k m) s = .next (raise .invalidPayloadSize (m.setWidth 48) s) := by
  simp only [exec_init, execInit, hr, Bool.false_eq_true, if_false, hk, if_pos hm]

variable (hm : ¬ (m.toNat < 1 ∨ s.params.mmax < m.toNat))

include hm

theorem exec_init_of_wrongSize (hsize : wrongAlphabetSize s k.toNat = true) :
    exec (.init k m) s = .next (raise .duplicateOrWrongSizeAlphabet (s.alen.setWidth 48) s) := by
  simp only [exec_init, execInit, hr, Bool.false_eq_true, if_false, hk, if_neg hm, if_pos hsize]

variable (hsize : wrongAlphabetSize s k.toNat = false)

include hsize

theorem exec_init_of_duplicate {i : Nat} (hdup : firstDuplicate s.alpha (2 ^ k.toNat) = some i) :
    exec (.init k m) s = .next (raise .duplicateOrWrongSizeAlphabet (duplicateInfo i) s) := by
  simp only [exec_init, execInit, hr, Bool.false_eq_true, if_false, hk, if_neg hm, hsize, hdup]

theorem exec_init_of_distinct (hdup : firstDuplicate s.alpha (2 ^ k.toNat) = none) :
    exec (.init k m) s = .next (respond (mask.setWidth 48) (startEngine k m mask s)) := by
  simp only [exec_init, execInit, hr, Bool.false_eq_true, if_false, hk, if_neg hm, hsize, hdup]

end

theorem exists_buildMask {p : Params} {k : Nat} (h : supported p k = true) : ∃ mask, buildMask p k = some mask :=
  Option.isSome_iff_exists.mp ((isSome_buildMask p k).trans h)

/-- The alphabet has the right size exactly when AOVF = 0 and ALEN = 2^k (41_construct.md R122). -/
theorem wrongAlphabetSize_eq_false {s : State} {k : Nat} :
    wrongAlphabetSize s k = false ↔ s.aovf = false ∧ s.alen.toNat = 2 ^ k := by
  simp [wrongAlphabetSize]

/-- A supported field exponent keeps its value in the 6 bits of K (10_state.md R31). -/
theorem toNat_setWidth_of_supported {p : Params} (hp : p.wf = true) {k : BitVec 8}
    (hk : supported p k.toNat = true) : (k.setWidth 6).toNat = k.toNat := by
  obtain ⟨-, h32, -⟩ := (supported_iff_of_wf hp).mp hk
  rw [BitVec.toNat_setWidth, Nat.mod_eq_of_lt (by omega)]

/-- Settles O19: each clause is the case of INIT in which the checks before its own pass, and the duplicate check
finds the smallest repeated index. -/
theorem initChecksThenStartsTheEngine : Obligations.InitChecksThenStartsTheEngine := by
  intro k m s hi
  refine ⟨decode_init_word k m, exec_init_of_ready, exec_init_of_unsupported, fun hr hk hm => ?payload,
    fun hr hk hm1 hmmax hsize => ?size, fun hr hk hm1 hmmax haovf halen => ⟨?duplicate, ?distinct⟩⟩
  all_goals obtain ⟨mask, hmask⟩ := exists_buildMask hk
  case payload => exact exec_init_of_invalidPayload hr hmask hm
  all_goals have hm : ¬ (m.toNat < 1 ∨ s.params.mmax < m.toNat) := by omega
  case size => exact exec_init_of_wrongSize hr hmask hm ((wrongAlphabetSize_iff s k.toNat).mpr hsize)
  all_goals have hsize := wrongAlphabetSize_eq_false.mpr ⟨haovf, halen⟩
  case duplicate =>
    intro i0 hlt hrep hfirst
    exact exec_init_of_duplicate hr hmask hm hsize (firstDuplicate_eq_some.mpr ⟨hlt, hrep, hfirst⟩)
  case distinct =>
    intro hdistinct
    exact ⟨mask, hmask, toNat_setWidth_of_supported hi.paramsWf hk,
      exec_init_of_distinct hr hmask hm hsize (firstDuplicate_eq_none.mpr hdistinct)⟩

/-! ### FREE -/

theorem exec_free (s : State) : exec .free s = .next (respond 0#48 (endEngine s)) := rfl

/-- Without an engine all that FREE zeroes is zero already (10_state.md R50 a). -/
theorem endEngine_of_not_ready {s : State} (hi : s.Inv) (hr : s.ready = false) : endEngine s = s := by
  have hzero := hi.noEngine hr
  cases s
  obtain ⟨rfl, rfl, rfl, rfl, rfl, rfl, rfl, rfl⟩ := hzero
  obtain rfl := hr
  rfl

/-- Settles O20: FREE always answers `endEngine`, which without an engine is the state itself. -/
theorem freeEndsTheEngine : Obligations.FreeEndsTheEngine :=
  fun s => ⟨decode_free_word, exec_free s, fun hi hr => by rw [exec_free, endEngine_of_not_ready hi hr]⟩

end Sys2Proof.Machine
end

section
/-! One fold step as arithmetic on numbers (42_checksum.md R140), and the fold over a list of digits (R141). -/

namespace Sys2Proof.Machine

/-! ### A mask as a number -/

/-- A number of k + 1 bits whose bit k is clear has k bits. -/
theorem lt_two_pow_of_testBit_eq_false {x k : Nat} (hx : x < 2 ^ (k + 1)) (hbit : x.testBit k = false) : x < 2 ^ k := by
  by_contra hge
  rw [Nat.testBit_of_two_pow_le_and_two_pow_add_one_gt (not_lt.mp hge) hx] at hbit
  cases hbit

/-- A mask of degree k is a number of k + 1 bits (40_maskgen.md R112 c). -/
theorem MaskShape.toNat_lt {k : Nat} {mask : Acc} (h : MaskShape k mask) : mask.toNat < 2 ^ (k + 1) := by
  obtain ⟨-, -, hclear⟩ := h
  refine Nat.lt_pow_two_of_testBit _ fun i hi => ?_
  by_cases h33 : i < 33
  · exact hclear i h33 hi
  · exact BitVec.getLsbD_of_ge mask i (not_lt.mp h33)

/-- Bit k of a mask of degree k is set (40_maskgen.md R112 a). -/
theorem MaskShape.testBit_toNat {k : Nat} {mask : Acc} (h : MaskShape k mask) : mask.toNat.testBit k = true := h.1

/-- The XOR with a mask of degree k clears a set bit k and keeps the number below it. -/
theorem MaskShape.xor_toNat_lt {k : Nat} {mask : Acc} (h : MaskShape k mask) {x : Nat} (hx : x < 2 ^ (k + 1))
    (hbit : x.testBit k = true) : x ^^^ mask.toNat < 2 ^ k := by
  refine lt_two_pow_of_testBit_eq_false (Nat.xor_lt_two_pow hx h.toNat_lt) ?_
  rw [Nat.testBit_xor, hbit, h.testBit_toNat, Bool.xor_self]

/-- The mask without its leading bit. -/
theorem MaskShape.two_pow_xor_toNat {k : Nat} {mask : Acc} (h : MaskShape k mask) :
    2 ^ k ^^^ mask.toNat = mask.toNat - 2 ^ k := by
  have hlt := h.xor_toNat_lt (Nat.pow_lt_pow_succ (by decide)) Nat.testBit_two_pow_self
  have hge : 2 ^ k ≤ mask.toNat := Nat.ge_two_pow_of_testBit h.testBit_toNat
  have htop : mask.toNat < 2 ^ k * 2 := h.toNat_lt
  calc 2 ^ k ^^^ mask.toNat
      = (2 ^ k ^^^ mask.toNat) % 2 ^ k := (Nat.mod_eq_of_lt hlt).symm
    _ = mask.toNat % 2 ^ k := by rw [Nat.xor_mod_two_pow, Nat.mod_self, Nat.zero_xor]
    _ = mask.toNat - 2 ^ k := by rw [Nat.mod_eq_sub_mod hge, Nat.mod_eq_of_lt (by omega)]

/-! ### The step as a number -/

/-- Multiplication by x as the datapath does it: shift, reduce if bit k is set, keep k bits (42_checksum.md R140). -/
theorem timesX_eq (k : Nat) (mask v : Acc) :
    timesX k mask v =
      ((if (v <<< 1).getLsbD k then (v <<< 1) ^^^ mask else v <<< 1).setWidth k).setWidth 33 := by
  simp only [timesX, foldStep, BitVec.setWidth_zero, BitVec.xor_zero]

/-- For k ≤ 32 the shift of a value of k bits loses nothing (00_scope.md R11). -/
theorem toNat_shiftLeft_one {k : Nat} (hk : k ≤ 32) {v : Acc} (hv : v.toNat < 2 ^ k) :
    (v <<< 1).toNat = 2 * v.toNat := by
  have h32 : v.toNat < 2 ^ 32 := hv.trans_le (Nat.pow_le_pow_right (by decide) hk)
  rw [BitVec.toNat_shiftLeft, Nat.shiftLeft_eq, Nat.mod_eq_of_lt (by omega)]
  omega

/-- Bit k of the doubled value is the top bit of the value. -/
theorem testBit_two_mul {k : Nat} (h1 : 1 ≤ k) (x : Nat) : (2 * x).testBit k = x.testBit (k - 1) := by
  simpa [h1] using Nat.testBit_two_pow_mul (i := 1) (a := x) (j := k)

/-- The value doubled, and reduced by the mask if its top bit was set. -/
def doubleReduced (k mask x : Nat) : Nat := if x.testBit (k - 1) then (2 * x) ^^^ mask else 2 * x

/-- Either way bit k is clear in the end. -/
theorem doubleReduced_lt {k x : Nat} {mask : Acc} (h1 : 1 ≤ k) (hm : MaskShape k mask) (hx : x < 2 ^ k) :
    doubleReduced k mask.toNat x < 2 ^ k := by
  have hdouble : 2 * x < 2 ^ (k + 1) := by omega
  have hbit := testBit_two_mul h1 x
  unfold doubleReduced
  split
  case isTrue htop => exact hm.xor_toNat_lt hdouble (hbit.trans htop)
  case isFalse htop => exact lt_two_pow_of_testBit_eq_false hdouble (hbit.trans (Bool.eq_false_iff.mpr htop))

/-- The reduction leaves k bits, so the cut to k bits changes nothing. -/
theorem toNat_timesX {k : Nat} {mask v : Acc} (h1 : 1 ≤ k) (hk : k ≤ 32) (hm : MaskShape k mask) (hv : v.toNat < 2 ^ k) :
    (timesX k mask v).toNat = doubleReduced k mask.toNat v.toNat := by
  have hshift := toNat_shiftLeft_one hk hv
  have hbit : (v <<< 1).getLsbD k = v.toNat.testBit (k - 1) := by rw [BitVec.getLsbD, hshift, testBit_two_mul h1]
  have hlt := doubleReduced_lt h1 hm hv
  rw [timesX_eq, hbit, BitVec.toNat_setWidth_of_le (by omega), BitVec.toNat_setWidth, apply_ite BitVec.toNat,
    BitVec.toNat_xor, hshift]
  exact Nat.mod_eq_of_lt hlt

/-- The step as a number: the doubled XOR of the accumulator and the digit, reduced (42_checksum.md R140). -/
theorem toNat_foldStep {k : Nat} {mask acc : Acc} {d : Digit} (h1 : 1 ≤ k) (hk : k ≤ 32) (hm : MaskShape k mask)
    (ha : acc.toNat < 2 ^ k) (hd : d.toNat < 2 ^ k) :
    (foldStep k mask acc d).toNat = doubleReduced k mask.toNat (acc.toNat ^^^ d.toNat) := by
  have hxor : (acc ^^^ d.setWidth 33).toNat = acc.toNat ^^^ d.toNat := by
    rw [BitVec.toNat_xor, BitVec.toNat_setWidth_of_le (by decide)]
  rw [foldStep_eq_timesX, toNat_timesX h1 hk hm (hxor ▸ Nat.xor_lt_two_pow ha hd), hxor]

theorem doubleReduced_zero (k mask : Nat) : doubleReduced k mask 0 = 0 := by
  rw [doubleReduced, Nat.zero_testBit, if_neg Bool.false_ne_true]

/-- A top bit alone becomes the mask without its leading bit. -/
theorem doubleReduced_two_pow {k : Nat} {mask : Acc} (h1 : 1 ≤ k) (hm : MaskShape k mask) :
    doubleReduced k mask.toNat (2 ^ (k - 1)) = mask.toNat - 2 ^ k := by
  rw [doubleReduced, if_pos Nat.testBit_two_pow_self, mul_pow_sub_one (by omega), hm.two_pow_xor_toNat]

/-- Settles O23: the step is the doubled XOR, reduced, and the corner cases are its values at 0 and at the top bit. -/
theorem foldStepShiftsAndReduces : Obligations.FoldStepShiftsAndReduces := by
  intro k mask acc d h2 hk hm ha hd
  have h1 : 1 ≤ k := by omega
  have hval := toNat_foldStep h1 hk hm ha hd
  refine ⟨foldStep_lt mask acc d, hval, fun heq => ?equal, fun htop => ?top⟩
  case equal =>
    rw [heq, Nat.xor_self, doubleReduced_zero] at hval
    exact BitVec.eq_of_toNat_eq hval
  case top => rw [hval, htop, doubleReduced_two_pow h1 hm]

/-! ### The fold over a list of digits -/

theorem fold_nil (k : Nat) (mask : Acc) : fold k mask [] = 0#33 := rfl

/-- One more digit on the right is one more step. -/
theorem fold_concat (k : Nat) (mask : Acc) (ds : List Digit) (d : Digit) :
    fold k mask (ds ++ [d]) = foldStep k mask (fold k mask ds) d := by
  rw [fold, foldFrom_append, foldFrom_cons, foldFrom_nil, fold]

theorem fold_lt (k : Nat) (mask : Acc) (ds : List Digit) : (fold k mask ds).toNat < 2 ^ k :=
  foldFrom_lt (Nat.two_pow_pos k) ds

/-- Settles O24: the fold starts from 0, which is in range, and every step keeps the range. -/
theorem foldRunsFromTheLeftInRange : Obligations.FoldRunsFromTheLeftInRange :=
  fun k mask _ => ⟨fold_nil k mask, fold_concat k mask, fold_lt k mask⟩

end Sys2Proof.Machine
end

section
/-! The sequence buffer and its checksum: what CLRS, LDS and CSUM do in each of their cases, each case under its own name
(42_checksum.md R142 to R145), and the words of these commands (30_encoding.md R82, R83, R86). -/

namespace Sys2Proof

/-! ### Words written out from their fields -/

theorem decode_clrs_word : decode 0x0800000000000000#64 = .ok .clrs :=
  (decode_clrs (by decide)).trans (ifReservedZero_ok.mpr ⟨by decide, rfl⟩)

theorem decode_lds_word (sym : BitVec 32) : decode (0x09#8 ++ (0#24 ++ sym)) = .ok (.lds sym) := by
  rw [decode_lds (opcodeField_append _ _), symField_append, formatS_append]

/-- A word of format F with a zero reserved field is no refusal (30_encoding.md R86). -/
theorem formatF_append (op : BitVec 8) (b : Bool) (i : Instr) : formatF (op ++ (0#55 ++ BitVec.ofBool b)) i = .ok i :=
  ifReservedZero_ok.mpr
    ⟨(extractLsb'_below_opcode op _ (by decide)).trans BitVec.extractLsb'_append_eq_left, rfl⟩

/-- Bit 0 of a word of format F is its operand (30_encoding.md R86). -/
theorem icField_append (op : BitVec 8) (b : Bool) : icField (op ++ (0#55 ++ BitVec.ofBool b)) = b := by
  rw [icField, BitVec.getLsbD_append, if_pos (by decide), BitVec.getLsbD_append, if_pos (by decide)]
  exact BitVec.getLsbD_ofBool b 0

theorem decode_csum_word (ic : Bool) : decode (0x0A#8 ++ (0#55 ++ BitVec.ofBool ic)) = .ok (.csum ic) := by
  rw [decode_csum (opcodeField_append _ _), icField_append, formatF_append]

end Sys2Proof

namespace Sys2Proof.Machine

/-! ### CLRS -/

theorem exec_clrs (s : State) : exec .clrs s = .next (respond 0#48 { s with slen := 0#17, sovf := false }) := rfl

/-- Settles O29: CLRS has one case. -/
theorem clrsEmptiesTheSequenceBuffer : Obligations.ClrsEmptiesTheSequenceBuffer :=
  fun s => ⟨decode_clrs_word, exec_clrs s⟩

/-! ### LDS -/

theorem seqFull_iff (s : State) : seqFull s = true ↔ s.slen.toNat = seqSize s.params := decide_eq_true_iff

theorem exec_lds (sym : Sym) (s : State) : exec (.lds sym) s = execLds sym s := rfl

/-- At SLEN = MMAX + 1 the symbol is dropped (42_checksum.md R144). -/
theorem exec_lds_of_full {sym : Sym} {s : State} (hfull : s.slen.toNat = seqSize s.params) :
    exec (.lds sym) s = .next (respond (s.slen.setWidth 48) { s with sovf := true }) := by
  rw [exec_lds, execLds, if_pos ((seqFull_iff s).mpr hfull)]

/-- Below MMAX + 1 the symbol becomes SEQ[SLEN] (42_checksum.md R144). -/
theorem exec_lds_of_room {sym : Sym} {s : State} (hroom : s.slen.toNat < seqSize s.params) :
    exec (.lds sym) s =
      .next (respond ((s.slen + 1#17).setWidth 48)
        { s with seq := s.seq.write s.slen.toNat sym, slen := s.slen + 1#17 }) := by
  have hwrite := writeSeq_ok.mpr ⟨hroom, Eq.refl { s with seq := s.seq.write s.slen.toNat sym }⟩
  rw [exec_lds, execLds, if_neg fun h => hroom.ne ((seqFull_iff s).mp h), hwrite]

theorem seqSize_le {p : Params} (h : p.wf = true) : seqSize p ≤ 2 ^ 16 := by
  simp only [Params.wf, Params.mmaxOk, Bool.and_eq_true, decide_eq_true_eq] at h
  obtain ⟨⟨-, -, hmax⟩, -⟩ := h
  exact Nat.succ_le_succ hmax

/-- SLEN counts to MMAX + 1 in its 17 bits without overflow (10_state.md R35). -/
theorem toNat_slen_succ {s : State} (hp : s.params.wf = true) (hroom : s.slen.toNat < seqSize s.params) :
    (s.slen + 1#17).toNat = s.slen.toNat + 1 := by
  have hlt : s.slen.toNat < 2 ^ 16 := hroom.trans_le (seqSize_le hp)
  exact BitVec.toNat_add_of_lt (by simp only [BitVec.toNat_ofNat]; omega)

/-- Settles O30: under the invariant SLEN is at most MMAX + 1, so SEQ is full or has room for the symbol. -/
theorem ldsAppendsOneSymbol : Obligations.LdsAppendsOneSymbol := by
  intro sym s hi
  refine ⟨decode_lds_word sym, exec_lds_of_full, fun hne => ?_⟩
  have hroom : s.slen.toNat < seqSize s.params := lt_of_le_of_ne hi.lengths.2 hne
  have hread := Memory.read_write hi.seqForm.1 s.slen.toNat (v := sym)
  exact ⟨_, exec_lds_of_room hroom, rfl, toNat_slen_succ hi.paramsWf hroom, (hread _).trans (if_pos rfl),
    fun i hne => (hread i).trans (if_neg hne)⟩

/-! ### The input sequence as digits (42_checksum.md R142) -/

theorem wrongLength_eq_false {s : State} {n : Nat} : wrongLength s n = false ↔ s.sovf = false ∧ s.slen.toNat = n := by
  simp [wrongLength]

theorem digits_of_wrongLength {s : State} {n : Nat} (h : wrongLength s n = true) :
    digits s n = .error (.raised .wrongSequenceLength (s.slen.setWidth 48)) := if_pos h

section

variable {s : State} (hi : s.Inv) (hr : s.ready = true)

include hi hr

/-- A sequence of the right length lies inside SEQ and its alphabet inside ALPHA (10_state.md R50 b, c), so only the
look-up is left. -/
theorem digits_eq_lookupFrom {n : Nat} (hlen : wrongLength s n = false) :
    digits s n = lookupFrom s 0 (seqSymbols s n) := by
  have hslen : s.slen.toNat = n := (wrongLength_eq_false.mp hlen).2
  have hseq : ¬ seqSize s.params < n := by rw [← hslen]; exact not_lt.mpr hi.lengths.2
  have halpha : ¬ alphaSize s.params < 2 ^ s.k.toNat :=
    not_lt.mpr (Nat.pow_le_pow_right (by decide) (hi.k_le_kmax hr))
  rw [digits, hlen, if_neg Bool.false_ne_true, if_neg hseq, if_neg halpha]

/-- The look-up inverts the spelling. -/
theorem lookupFrom_of_spells {ds : List Digit} {xs : List Sym} (h : Spells s ds xs) (p : Nat) :
    lookupFrom s p xs = .ok ds := by
  obtain ⟨hds, rfl⟩ := h
  rw [lookupFrom_ok, List.map_map]
  exact List.map_congr_left fun d hd => index_symbolOf hi hr (hds d hd)

/-- The digits that spell a sequence of the right length are what an operation works on. -/
theorem digits_of_spells {n : Nat} (hlen : wrongLength s n = false) {ds : List Digit}
    (h : Spells s ds (seqSymbols s n)) : digits s n = .ok ds :=
  (digits_eq_lookupFrom hi hr hlen).trans (lookupFrom_of_spells hi hr h 0)

/-- The first symbol that is not in the alphabet stops an operation at its position. -/
theorem digits_of_firstUnknown {n p : Nat} (hlen : wrongLength s n = false) (hp : p < n)
    (hmiss : ∀ i < 2 ^ s.k.toNat, s.alpha.read i ≠ s.seq.read p)
    (hfirst : ∀ q < p, ∃ i < 2 ^ s.k.toNat, s.alpha.read i = s.seq.read q) :
    digits s n = .error (.raised .unknownSymbol (BitVec.ofNat 48 p)) := by
  rw [digits_eq_lookupFrom hi hr hlen, lookupFrom_error]
  refine ⟨p, by rwa [seqSymbols_length], by rw [Nat.zero_add], ?miss, fun q hq hnone => ?hit⟩
  case miss => rwa [seqSymbols_getD hp, index_eq_none]
  case hit =>
    obtain ⟨i, hlt, hx⟩ := hfirst q hq
    rw [seqSymbols_getD (hq.trans hp), index_eq_none] at hnone
    exact hnone i hlt hx

end

/-- Digits spell the buffer when each one's symbol stands at its position. -/
theorem spells_seqSymbols {s : State} {ds : List Digit} (hds : AreDigits s.k.toNat ds)
    (hread : ∀ p < ds.length, s.alpha.read (ds.getD p 0#32).toNat = s.seq.read p) :
    Spells s ds (seqSymbols s ds.length) := by
  refine ⟨hds, List.ext_getElem (by rw [List.length_map, seqSymbols_length]) fun p hp hp' => ?_⟩
  have hlt : p < ds.length := by rwa [List.length_map] at hp
  rw [List.getElem_map, ← List.getD_eq_getElem _ 0#32 hp', seqSymbols_getD hlt, ← hread p hlt,
    List.getD_eq_getElem _ _ hlt, symbolOf]

/-! ### CSUM -/

theorem exec_csum (ic : Bool) (s : State) : exec (.csum ic) s = execCsum ic s := rfl

theorem exec_csum_of_not_ready {ic : Bool} {s : State} (h : s.ready = false) :
    exec (.csum ic) s = .next (raise .notReady 0#48 s) := if_neg (Bool.eq_false_iff.mp h)

/-- An error in the input sequence is all that a CSUM on an engine can raise (42_checksum.md R142, R145). -/
theorem exec_csum_of_raised {ic : Bool} {s : State} {e : ErrorCode} {info : Value} (hr : s.ready = true)
    (h : digits s (s.m.toNat + ic.toNat) = .error (.raised e info)) :
    exec (.csum ic) s = .next (raise e info s) := by
  rw [exec_csum, execCsum, if_pos hr, h]
  rfl

/-- The check symbol is the one that the fold of the digits indexes (42_checksum.md R145). -/
theorem exec_csum_of_digits {ic : Bool} {s : State} {ds : List Digit} (hr : s.ready = true)
    (h : digits s (s.m.toNat + ic.toNat) = .ok ds) :
    exec (.csum ic) s =
      .next (respond ((symbolOfAcc s (engineFold s ds)).setWidth 48) (setResult (engineFold s ds) s)) := by
  rw [exec_csum, execCsum, if_pos hr, h]

/-- Settles O31: the clauses after READY are the outcomes of `digits`, the wrong length, the first unknown symbol, and the
digits that spell the buffer. -/
theorem csumAnswersTheCheckSymbol : Obligations.CsumAnswersTheCheckSymbol := by
  intro ic s hi
  refine ⟨decode_csum_word ic, exec_csum_of_not_ready, fun hr hwrong => ?length, fun hr hsovf hslen =>
    ⟨fun p hp hmiss hfirst => ?unknown, fun ds hds hn hread => ?success⟩⟩
  case length => exact exec_csum_of_raised hr (digits_of_wrongLength ((wrongLength_iff s _).mpr hwrong))
  all_goals have hlen := wrongLength_eq_false.mpr ⟨hsovf, hslen⟩
  case unknown => exact exec_csum_of_raised hr (digits_of_firstUnknown hi hr hlen hp hmiss hfirst)
  case success => exact exec_csum_of_digits hr (digits_of_spells hi hr hlen (hn ▸ spells_seqSymbols hds hread))

end Sys2Proof.Machine
end

section
/-! The verify oracle: what VRFY does in each of its cases, each case under its own name (43_verify.md R160), and its word
(30_encoding.md R82). -/

namespace Sys2Proof

theorem decode_vrfy_word : decode 0x0B00000000000000#64 = .ok .vrfy :=
  (decode_vrfy (by decide)).trans (ifReservedZero_ok.mpr ⟨by decide, rfl⟩)

end Sys2Proof

namespace Sys2Proof.Machine

theorem exec_vrfy (s : State) : exec .vrfy s = execVrfy s := rfl

theorem exec_vrfy_of_not_ready {s : State} (h : s.ready = false) :
    exec .vrfy s = .next (raise .notReady 0#48 s) := if_neg (Bool.eq_false_iff.mp h)

/-- An error in the input sequence is all that a VRFY on an engine can raise (42_checksum.md R142, 43_verify.md R160). -/
theorem exec_vrfy_of_raised {s : State} {e : ErrorCode} {info : Value} (hr : s.ready = true)
    (h : digits s (s.m.toNat + 1) = .error (.raised e info)) : exec .vrfy s = .next (raise e info s) := by
  rw [exec_vrfy, execVrfy, if_pos hr, h]
  rfl

/-- The answer and VALID are the zero test of the fold, and a false result ends as a true one does
(43_verify.md R160, 60_exceptions.md R256). -/
theorem exec_vrfy_of_digits {s : State} {ds : List Digit} (hr : s.ready = true)
    (h : digits s (s.m.toNat + 1) = .ok ds) :
    exec .vrfy s =
      .next (respond (if engineFold s ds = 0#33 then 1#48 else 0#48)
        { setResult (engineFold s ds) s with valid := decide (engineFold s ds = 0#33) }) := by
  rw [exec_vrfy, execVrfy, if_pos hr, h]
  simp only [zeroTest, decide_eq_true_eq]

/-- Settles O32: the clauses after READY are the outcomes of `digits`, the wrong length, the first unknown symbol, and the
digits that spell the buffer. -/
theorem vrfyAnswersTheZeroTest : Obligations.VrfyAnswersTheZeroTest := by
  intro s hi
  refine ⟨decode_vrfy_word, exec_vrfy_of_not_ready, fun hr hwrong => ?length, fun hr hsovf hslen =>
    ⟨fun p hp hmiss hfirst => ?unknown, fun ds hds hn hread => ?success⟩⟩
  case length => exact exec_vrfy_of_raised hr (digits_of_wrongLength ((wrongLength_iff s _).mpr hwrong))
  all_goals have hlen := wrongLength_eq_false.mpr ⟨hsovf, hslen⟩
  case unknown => exact exec_vrfy_of_raised hr (digits_of_firstUnknown hi hr hlen hp hmiss hfirst)
  case success => exact exec_vrfy_of_digits hr (digits_of_spells hi hr hlen (hn ▸ spells_seqSymbols hds hread))

end Sys2Proof.Machine
end

section
/-! The generator: the digits that GEN draws, the sequence it writes, and what the command does once its words are there
(44_generate.md R165 to R167), and its word (30_encoding.md R82). -/

namespace Sys2Proof

theorem decode_gen_word : decode 0x0C00000000000000#64 = .ok .gen :=
  (decode_gen (by decide)).trans (ifReservedZero_ok.mpr ⟨by decide, rfl⟩)

end Sys2Proof

namespace Sys2Proof.Machine

/-! ### The sequence that is generated -/

section

variable {s : State} (hw : s.m.toNat ≤ s.rand.length)

include hw

/-- M words give M payload digits (44_generate.md R166). -/
theorem length_drawnDigits : (drawnDigits s).length = s.m.toNat := by
  rw [drawnDigits, List.length_map, List.length_take, Nat.min_eq_left hw]

/-- Each word drawn gives the digit at its own position (44_generate.md R166). -/
theorem getD_drawnDigits {p : Nat} (hp : p < s.m.toNat) :
    (drawnDigits s).getD p 0#32 = drawnDigit s.k.toNat (s.rand.getD p 0#32) := by
  have hrand : p < s.rand.length := hp.trans_le hw
  have hdigits : p < (drawnDigits s).length := (length_drawnDigits hw).symm ▸ hp
  rw [List.getD_eq_getElem _ _ hdigits, List.getD_eq_getElem _ _ hrand]
  simp only [drawnDigits, List.getElem_map, List.getElem_take]

theorem length_generated : (generated s).length = s.m.toNat + 1 := by
  rw [generated, List.length_append, List.length_map, length_drawnDigits hw, List.length_singleton]

/-- The symbols before position M are those of the digits drawn (44_generate.md R165). -/
theorem getD_generated_payload {p : Nat} (hp : p < s.m.toNat) :
    (generated s).getD p 0#32 = symbolOf s ((drawnDigits s).getD p 0#32) := by
  have hdigits : p < (drawnDigits s).length := (length_drawnDigits hw).symm ▸ hp
  have hsymbols : p < ((drawnDigits s).map (symbolOf s)).length := by rwa [List.length_map]
  rw [generated, List.getD_append _ _ _ _ hsymbols, List.getD_eq_getElem _ _ hsymbols, List.getElem_map,
    List.getD_eq_getElem _ _ hdigits]

/-- The symbol at position M is the check symbol (44_generate.md R165). -/
theorem getD_generated_check :
    (generated s).getD s.m.toNat 0#32 = symbolOfAcc s (engineFold s (drawnDigits s)) := by
  have hlen : ((drawnDigits s).map (symbolOf s)).length = s.m.toNat := by rw [List.length_map, length_drawnDigits hw]
  rw [generated, List.getD_append_right _ _ _ _ hlen.le, hlen, Nat.sub_self, List.getD_cons_zero]

/-- Writing the generated sequence covers SEQ[0 .. M] (44_generate.md R165). -/
theorem read_writeList_generated {mem : Memory} (h : mem.wf = true) (p : Nat) :
    (mem.writeList 0 (generated s)).read p =
      if p ≤ s.m.toNat then (generated s).getD p 0#32 else mem.read p := by
  rw [Memory.read_writeList h, length_generated hw, Nat.sub_zero]
  exact if_congr (by omega) rfl rfl

end

/-! ### The engine's extent -/

theorem State.Inv.k_le_thirtyTwo {s : State} (hi : s.Inv) (hr : s.ready = true) : s.k.toNat ≤ 32 :=
  (hi.k_le_kmax hr).trans (kmax_le_of_wf hi.paramsWf)

theorem State.Inv.two_pow_k_le_alphaSize {s : State} (hi : s.Inv) (hr : s.ready = true) :
    2 ^ s.k.toNat ≤ alphaSize s.params := Nat.pow_le_pow_right (by decide) (hi.k_le_kmax hr)

/-- A checked sequence of the engine fits SEQ (10_state.md R50 b). -/
theorem State.Inv.m_succ_le_seqSize {s : State} (hi : s.Inv) (hr : s.ready = true) :
    s.m.toNat + 1 ≤ seqSize s.params := by
  obtain ⟨-, -, hmmax, -⟩ := hi.engine hr
  exact Nat.succ_le_succ hmmax

/-! ### GEN -/

theorem exec_gen (s : State) : exec .gen s = execGen s := rfl

theorem exec_gen_of_not_ready {s : State} (h : s.ready = false) :
    exec .gen s = .next (raise .notReady 0#48 s) := if_neg (Bool.eq_false_iff.mp h)

/-- The memories of an engine have room for what GEN reads and writes, so a GEN whose words are there completes
(44_generate.md R165). -/
theorem exec_gen_of_words {s : State} (hi : s.Inv) (hr : s.ready = true) (hw : s.m.toNat ≤ s.rand.length) :
    exec .gen s =
      .next (respond ((symbolOfAcc s (engineFold s (drawnDigits s))).setWidth 48)
        { setResult (engineFold s (drawnDigits s)) s with
          seq := s.seq.writeList 0 (generated s), slen := BitVec.ofNat 17 (s.m.toNat + 1), sovf := false,
          rand := s.rand.drop s.m.toNat, busy := false }) := by
  rw [exec_gen, execGen, if_pos hr, if_neg (not_lt.mpr hw), if_neg (not_lt.mpr (hi.m_succ_le_seqSize hr)),
    if_neg (not_lt.mpr (hi.two_pow_k_le_alphaSize hr))]

/-- Settles O34: the digits of the statement are those drawn, and SEQ is read at a payload position, at position M and
above it. -/
theorem genWritesACheckedSequence : Obligations.GenWritesACheckedSequence := by
  intro s hi
  refine ⟨decode_gen_word, exec_gen_of_not_ready, fun hr hw => ?_⟩
  have hdigit : ∀ p < s.m.toNat,
      ((drawnDigits s).getD p 0#32).toNat = (s.rand.getD p 0#32).toNat % 2 ^ s.k.toNat := fun p hp => by
    rw [getD_drawnDigits hw hp, drawnDigit_toNat (hi.k_le_thirtyTwo hr)]
  have hread := read_writeList_generated hw hi.seqForm.1
  refine ⟨_, drawnDigits s, engineFold s (drawnDigits s), exec_gen_of_words hi hr hw, length_drawnDigits hw, hdigit, rfl,
    rfl, ?slen, fun p hp => ?payload, ?check, fun p hp => ?above⟩
  case slen => exact (BitVec.toNat_ofNat _ 17).trans (Nat.mod_eq_of_lt (by have hm := s.m.isLt; omega))
  case payload =>
    refine (hread p).trans ?_
    rw [if_pos hp.le, getD_generated_payload hw hp, symbolOf, hdigit p hp]
  case check => exact (hread s.m.toNat).trans ((if_pos le_rfl).trans (getD_generated_check hw))
  case above => exact (hread p).trans (if_neg (not_le.mpr hp))

end Sys2Proof.Machine
end

section
/-! Host access and housekeeping: what NOP, RDR, RDA, RDS, RDC and CLRE do in each of their cases, each case under its own
name (46_access.md R200 to R205), and the words of these commands (30_encoding.md R82, R87). -/

namespace Sys2Proof

/-! ### Words written out from their fields -/

theorem decode_nop_word : decode 0x0000000000000000#64 = .ok .nop :=
  (decode_nop (by decide)).trans (ifReservedZero_ok.mpr ⟨by decide, rfl⟩)

theorem decode_clre_word : decode 0x1F00000000000000#64 = .ok .clre :=
  (decode_clre (by decide)).trans (ifReservedZero_ok.mpr ⟨by decide, rfl⟩)

/-- The low 32 bits of a word of format X are its first index (30_encoding.md R87). -/
theorem idx1Field_append (op : BitVec 8) (c : BitVec 24) (i : BitVec 32) : idx1Field (op ++ (c ++ i)) = i :=
  (extractLsb'_below_opcode op _ (by decide)).trans BitVec.extractLsb'_append_eq_right

/-- The 24 bits below OP of a word of format X are its second index (30_encoding.md R87). -/
theorem idx2Field_append (op : BitVec 8) (c : BitVec 24) (i : BitVec 32) : idx2Field (op ++ (c ++ i)) = c :=
  (extractLsb'_below_opcode op _ (by decide)).trans BitVec.extractLsb'_append_eq_left

theorem decode_rdr_word (r : BitVec 32) : decode (0x10#8 ++ (0#24 ++ r)) = .ok (.rdr r) := by
  rw [decode_rdr (opcodeField_append _ _), idx1Field_append, formatS_append]

theorem decode_rda_word (i : BitVec 32) : decode (0x11#8 ++ (0#24 ++ i)) = .ok (.rda i) := by
  rw [decode_rda (opcodeField_append _ _), idx1Field_append, formatS_append]

theorem decode_rds_word (p : BitVec 32) : decode (0x12#8 ++ (0#24 ++ p)) = .ok (.rds p) := by
  rw [decode_rds (opcodeField_append _ _), idx1Field_append, formatS_append]

/-- RDC has no reserved bit: both indices are operands (30_encoding.md R87, R89). -/
theorem decode_rdc_word (c : BitVec 24) (p : BitVec 32) : decode (0x13#8 ++ (c ++ p)) = .ok (.rdc c p) := by
  rw [decode_rdc (opcodeField_append _ _), idx2Field_append, idx1Field_append]

end Sys2Proof

namespace Sys2Proof.Machine

/-! ### NOP and CLRE -/

theorem exec_nop (s : State) : exec .nop s = .next (respond 0#48 s) := rfl

theorem responseWord_ok_zero : responseWord 0#8 0#48 = 0x0000000000000000#64 := by decide

/-- Settles O47: the response of NOP, status OK and value 0, is the all-zero word. -/
theorem nopAnswersAndDoesNothing : Obligations.NopAnswersAndDoesNothing :=
  ⟨decode_nop_word, fun s => by rw [exec_nop, respond, responseWord_ok_zero]⟩

theorem exec_clre (s : State) :
    exec .clre s = .next (respond 0#48 { s with lasterr := 0#8, esticky := 0#16, errinfo := 0#48 }) := rfl

/-- Settles O50: CLRE has one case. -/
theorem clreClearsTheErrorRegisters : Obligations.ClreClearsTheErrorRegisters :=
  ⟨decode_clre_word, exec_clre⟩

/-! ### The numbered registers (46_access.md R201) -/

/-- Fields side by side, as a number. -/
theorem toNat_append_eq_add {m n : Nat} (x : BitVec m) (y : BitVec n) :
    (x ++ y).toNat = x.toNat * 2 ^ n + y.toNat := by
  rw [BitVec.toNat_append, ← Nat.shiftLeft_add_eq_or_of_lt y.isLt, Nat.shiftLeft_eq]

/-- Well-formed parameters fit the fields of CAPS (10_state.md R24). -/
theorem toNat_caps {p : Params} (h : p.wf = true) : (caps p).toNat = p.mmax * 2 ^ 16 + p.kmax := by
  have hmmax : p.mmax < 2 ^ 16 := seqSize_le h
  have hkmax : p.kmax < 2 ^ 6 := (kmax_le_of_wf h).trans_lt (by decide)
  simp only [caps, toNat_append_eq_add, BitVec.toNat_ofNat, Nat.mod_eq_of_lt hmmax, Nat.mod_eq_of_lt hkmax]
  omega

/-- The five flags from bit 0 up (10_state.md R25). -/
theorem toNat_status (s : State) :
    (status s).toNat =
      s.ready.toNat + 2 * s.aovf.toNat + 4 * s.sovf.toNat + 8 * s.valid.toNat + 16 * s.cvalid.toNat := by
  simp only [status, toNat_append_eq_add, BitVec.toNat_ofBool]
  omega

/-- The numbered registers in the order of the map, each zero-extended (20_memory.md R67). -/
def regFile (s : State) : List Value :=
  [idReg, (caps s.params).setWidth 48, (status s).setWidth 48, s.k.setWidth 48, s.m.setWidth 48, s.mask.setWidth 48,
    s.alen.setWidth 48, s.slen.setWidth 48, s.ncand.setWidth 48, s.lasterr.setWidth 48, s.esticky.setWidth 48,
    s.errinfo, s.rdig.setWidth 48, s.rsym.setWidth 48]

theorem length_regFile (s : State) : (regFile s).length = 14 := rfl

/-- Reading a numbered register is looking it up in the register file. -/
theorem readReg_eq_getElem? (s : State) (r : Nat) : readReg s r = (regFile s)[r]? :=
  match r with
  | 0 | 1 | 2 | 3 | 4 | 5 | 6 | 7 | 8 | 9 | 10 | 11 | 12 | 13 => rfl
  | _ + 14 => rfl

/-- Zero-extension keeps every register's number. -/
theorem map_toNat_regFile {s : State} (h : s.params.wf = true) :
    (regFile s).map BitVec.toNat =
      [0x44414D4D0007, s.params.mmax * 2 ^ 16 + s.params.kmax,
        s.ready.toNat + 2 * s.aovf.toNat + 4 * s.sovf.toNat + 8 * s.valid.toNat + 16 * s.cvalid.toNat,
        s.k.toNat, s.m.toNat, s.mask.toNat, s.alen.toNat, s.slen.toNat, s.ncand.toNat, s.lasterr.toNat,
        s.esticky.toNat, s.errinfo.toNat, s.rdig.toNat, s.rsym.toNat] := by
  have hid : idReg.toNat = 0x44414D4D0007 := rfl
  simp (disch := decide) only [regFile, List.map_cons, List.map_nil, BitVec.toNat_setWidth_of_le, hid, toNat_caps h,
    toNat_status]

theorem exec_rdr (r : BitVec 32) (s : State) : exec (.rdr r) s = execRdr r s := rfl

theorem exec_rdr_of_readReg {r : BitVec 32} {s : State} {v : Value} (h : readReg s r.toNat = some v) :
    exec (.rdr r) s = .next (respond v s) := by
  rw [exec_rdr, execRdr, h]

theorem exec_rdr_of_gt {r : BitVec 32} {s : State} (h : 13 < r.toNat) :
    exec (.rdr r) s = .next (raise .badIndex 0#48 s) := by
  rw [exec_rdr, execRdr, (readReg_eq_none s _).mpr h]

/-- Settles O48: up to 13 the answer is the entry of the register file, and its number is the entry's number. -/
theorem rdrAnswersTheNumberedRegister : Obligations.RdrAnswersTheNumberedRegister := by
  intro r s hp
  refine ⟨decode_rdr_word r, fun hr => ?_, exec_rdr_of_gt⟩
  have hlt : r.toNat < (regFile s).length := Nat.lt_succ_of_le hr
  have hread : readReg s r.toNat = some (regFile s)[r.toNat] :=
    (readReg_eq_getElem? s _).trans (List.getElem?_eq_getElem hlt)
  refine ⟨_, exec_rdr_of_readReg hread, ?_⟩
  rw [← map_toNat_regFile hp, List.getD_eq_getElem _ _ (by rwa [List.length_map]), List.getElem_map]

/-! ### The reads of the memories -/

/-- Inside a memory a read answers the entry and changes nothing else. -/
theorem answerRead_ok (s : State) (x : Sym) : answerRead s (.ok x) = .next (respond (x.setWidth 48) s) := rfl

theorem exec_rda_of_ge {i : BitVec 32} {s : State} (h : s.alen.toNat ≤ i.toNat) :
    exec (.rda i) s = .next (raise .badIndex 0#48 s) := if_pos h

/-- ALEN bounds the readable entries, and they lie inside ALPHA (10_state.md R50 c, 46_access.md R202). -/
theorem exec_rda_of_lt {i : BitVec 32} {s : State} (hi : s.Inv) (h : i.toNat < s.alen.toNat) :
    exec (.rda i) s = .next (respond ((s.alpha.read i.toNat).setWidth 48) s) := by
  have hread := readAlpha_of_lt (h.trans_le hi.lengths.1)
  exact (if_neg (not_le.mpr h)).trans (by rw [hread, answerRead_ok])

theorem exec_rds_of_ge {p : BitVec 32} {s : State} (h : s.slen.toNat ≤ p.toNat) :
    exec (.rds p) s = .next (raise .badIndex 0#48 s) := if_pos h

/-- SLEN bounds the readable entries, and they lie inside SEQ (10_state.md R50 c, 46_access.md R203). -/
theorem exec_rds_of_lt {p : BitVec 32} {s : State} (hi : s.Inv) (h : p.toNat < s.slen.toNat) :
    exec (.rds p) s = .next (respond ((s.seq.read p.toNat).setWidth 48) s) := by
  have hread := readSeq_of_lt (h.trans_le hi.lengths.2)
  exact (if_neg (not_le.mpr h)).trans (by rw [hread, answerRead_ok])

theorem exec_rdc_of_unreadable {c : BitVec 24} {p : BitVec 32} {s : State}
    (h : s.cvalid = false ∨ s.ncand.toNat ≤ c.toNat ∨ s.m.toNat < p.toNat) :
    exec (.rdc c p) s = .next (raise .badIndex 0#48 s) := if_pos h

/-- There are at most 2·M + 1 candidates, so each is a record of CAND (10_state.md R50 b, e). -/
theorem State.Inv.ncand_le_candRecords {s : State} (hi : s.Inv) (hc : s.cvalid = true) :
    s.ncand.toNat ≤ candRecords s.params := by
  obtain ⟨hr, -, hmax⟩ := hi.candidateCount hc
  have hm := Nat.le_of_succ_le_succ (hi.m_succ_le_seqSize hr)
  exact hmax.trans (Nat.succ_le_succ (Nat.mul_le_mul_left 2 hm))

/-- The entries 0 to M of the candidates lie inside CAND (10_state.md R50 b, e, 46_access.md R204). -/
theorem exec_rdc_of_readable {c : BitVec 24} {p : BitVec 32} {s : State} (hi : s.Inv) (hvalid : s.cvalid = true)
    (hc : c.toNat < s.ncand.toNat) (hp : p.toNat ≤ s.m.toNat) :
    exec (.rdc c p) s = .next (respond ((candEntry s c.toNat p.toNat).setWidth 48) s) := by
  obtain ⟨hr, -⟩ := hi.candidateCount hvalid
  have hentry : p.toNat < seqSize s.params := (Nat.lt_succ_of_le hp).trans_le (hi.m_succ_le_seqSize hr)
  have hread := readCand_of_lt (hc.trans_le (hi.ncand_le_candRecords hvalid)) hentry
  have hreadable : ¬ (s.cvalid = false ∨ s.ncand.toNat ≤ c.toNat ∨ s.m.toNat < p.toNat) := by
    rw [hvalid, not_or, not_or, not_le, not_lt]
    exact ⟨nofun, hc, hp⟩
  exact (if_neg hreadable).trans (by rw [hread, answerRead_ok])

/-- Settles O49: each read has its two cases, the readable entries and all others. -/
theorem readsAnswerTheEntryOrBadIndex : Obligations.ReadsAnswerTheEntryOrBadIndex := by
  intro c i s hi
  exact ⟨⟨decode_rda_word i, exec_rda_of_lt hi, exec_rda_of_ge⟩, ⟨decode_rds_word i, exec_rds_of_lt hi, exec_rds_of_ge⟩,
    decode_rdc_word c i, exec_rdc_of_readable hi, exec_rdc_of_unreadable⟩

end Sys2Proof.Machine
end

section
/-! Responses and errors: the fields of a response word (30_encoding.md R93), the effect of `raise`
(60_exceptions.md R253), and what the answers of VRFY tell apart (R256). -/

namespace Sys2Proof.Machine

/-! ### The response word (30_encoding.md R93) -/

theorem responseWord_reserved (status : BitVec 8) (v : Value) : (responseWord status v).extractLsb' 48 8 = 0#8 :=
  (extractLsb'_below_opcode status _ (by decide)).trans BitVec.extractLsb'_append_eq_left

theorem responseWord_value (status : BitVec 8) (v : Value) : (responseWord status v).extractLsb' 0 48 = v :=
  (extractLsb'_below_opcode status _ (by decide)).trans BitVec.extractLsb'_append_eq_right

/-- The last response of a port determines its status and its value. -/
theorem append_responseWord_inj {ws : List Word64} {a b : BitVec 8} {v w : Value}
    (h : ws ++ [responseWord a v] = ws ++ [responseWord b w]) : a = b ∧ v = w :=
  responseWord_inj (List.singleton_inj.mp (List.append_cancel_left h))

/-! ### `raise` and `respond` -/

/-- The bit that `raise` sets in ESTICKY, as a number (10_state.md R38). -/
theorem one_shiftLeft_eq_ofNat (w n : Nat) : 1#w <<< n = BitVec.ofNat w (2 ^ n) := by
  rw [← BitVec.twoPow_eq]
  exact BitVec.eq_of_toNat_eq (by rw [BitVec.toNat_twoPow, BitVec.toNat_ofNat])

/-- Settles O6: the three fields of a response word, and the definitions with the ESTICKY bit as a number. -/
theorem raiseWritesTheErrorRegistersAndAnswers : Obligations.RaiseWritesTheErrorRegistersAndAnswers := by
  refine ⟨fun status v => ⟨extract_responseWord status v, responseWord_reserved status v, responseWord_value status v⟩,
    fun e info s => ?raise, fun _ _ => rfl⟩
  case raise => rw [← one_shiftLeft_eq_ofNat, raise, responseWord]

/-! ### The answers of VRFY (60_exceptions.md R256) -/

/-- The input sequence of an operation raises one of two errors (42_checksum.md R142). -/
theorem errorCode_of_digits_raised {s : State} {n : Nat} {e : ErrorCode} {info : Value}
    (h : digits s n = .error (.raised e info)) : errorCode e = 4#8 ∨ errorCode e = 5#8 := by
  obtain ⟨-, hstop⟩ | ⟨-, -, hstop⟩ | ⟨-, -, -, hstop⟩ | ⟨-, -, -, hlookup⟩ := digits_error.mp h
  · cases hstop
    exact .inl rfl
  · cases hstop
  · cases hstop
  · obtain ⟨_, -, hstop, -⟩ := lookupFrom_error.mp hlookup
    cases hstop
    exact .inr rfl

/-- A VRFY that ends has tested a fold, or has raised one of three errors (43_verify.md R160). -/
theorem exec_vrfy_next {s t : State} (h : exec .vrfy s = .next t) :
    (∃ ds, t = respond (if engineFold s ds = 0#33 then 1#48 else 0#48)
      { setResult (engineFold s ds) s with valid := decide (engineFold s ds = 0#33) }) ∨
    (∃ e info, t = raise e info s ∧ (errorCode e = 4#8 ∨ errorCode e = 5#8 ∨ errorCode e = 8#8)) := by
  cases hr : s.ready with
  | false =>
    rw [exec_vrfy_of_not_ready hr] at h
    cases h
    exact .inr ⟨.notReady, 0#48, rfl, .inr (.inr rfl)⟩
  | true =>
    cases hd : digits s (s.m.toNat + 1) with
    | ok ds =>
      rw [exec_vrfy_of_digits hr hd] at h
      cases h
      exact .inl ⟨ds, rfl⟩
    | error stop =>
      rw [exec_vrfy, execVrfy, if_pos hr, hd] at h
      obtain ⟨e, info, rfl, rfl⟩ := stopOutcome_next.mp h
      exact .inr ⟨e, info, rfl, (errorCode_of_digits_raised hd).imp_right .inl⟩

/-- Every VRFY that ends has answered: status OK with the outcome of the test, or an error that keeps VALID. -/
theorem vrfy_answer_cases {s t : State} {c : BitVec 8} {v : Value} (h : exec .vrfy s = .next t)
    (hans : t.responses = s.responses ++ [responseWord c v]) :
    (c = 0#8 ∧ (v = 0#48 ∨ v = 1#48)) ∨ (c = 4#8 ∨ c = 5#8 ∨ c = 8#8) ∧ t.valid = s.valid := by
  obtain ⟨ds, rfl⟩ | ⟨e, info, rfl, hcode⟩ := exec_vrfy_next h
  · obtain ⟨rfl, rfl⟩ := append_responseWord_inj hans
    exact .inl ⟨rfl, (ite_eq_or_eq _ _ _).symm⟩
  · obtain ⟨rfl, rfl⟩ := append_responseWord_inj hans
    exact .inr ⟨hcode, rfl⟩

/-- The digits of a checked sequence are what VRFY folds. -/
theorem exec_vrfy_of_holdsChecked {s : State} {ds : List Digit} (hi : s.Inv) (h : HoldsChecked s ds) :
    exec .vrfy s =
      .next (respond (if engineFold s ds = 0#33 then 1#48 else 0#48)
        { setResult (engineFold s ds) s with valid := decide (engineFold s ds = 0#33) }) := by
  obtain ⟨hr, hsovf, hslen, hspells⟩ := h
  exact exec_vrfy_of_digits hr (digits_of_spells hi hr (wrongLength_eq_false.mpr ⟨hsovf, hslen⟩) hspells)

/-- Settles O33: a fold that is not zero ends VRFY as a zero one does, with the all-zero response word. -/
theorem falseVerificationIsNotAnError : Obligations.FalseVerificationIsNotAnError := by
  intro s ds hi hchecked hne
  have hexec := exec_vrfy_of_holdsChecked hi hchecked
  rw [if_neg hne, decide_eq_false hne] at hexec
  refine ⟨⟨_, hexec, ?answer, rfl, rfl, rfl, rfl⟩, fun _ _ _ _ _ => vrfy_answer_cases⟩
  case answer => exact congrArg (s.responses ++ [·]) responseWord_ok_zero

end Sys2Proof.Machine
end

section
/-! The reset state: the register file it holds and what the commands answer in it (70_reset_and_hazards.md R271). -/

namespace Sys2Proof.Machine

/-! ### The registers after reset -/

theorem status_resetOf (p : Params) : status (State.resetOf p) = 0#5 := BitVec.eq_of_toNat_eq (toNat_status _)

/-- After reset the constants ID and CAPS are the only registers that are not 0 (10_state.md R51). -/
theorem regFile_resetOf (p : Params) :
    regFile (State.resetOf p) = idReg :: (caps p).setWidth 48 :: List.replicate 12 0#48 := by
  rw [regFile, status_resetOf]
  rfl

theorem readReg_resetOf_of_two_le (p : Params) {r : Nat} (hlo : 2 ≤ r) (hhi : r ≤ 13) :
    readReg (State.resetOf p) r = some 0#48 := by
  obtain ⟨n, rfl⟩ := Nat.exists_eq_add_of_le' hlo
  have hn : n < 12 := by omega
  rw [readReg_eq_getElem?, regFile_resetOf, List.getElem?_cons_succ, List.getElem?_cons_succ,
    List.getElem?_replicate_of_lt hn]

/-- CAPS as RDR 1 answers it: MMAX in bits 31 to 16 and KMAX in bits 5 to 0, as a number (10_state.md R24). -/
theorem setWidth_caps {p : Params} (h : p.wf = true) :
    (caps p).setWidth 48 = BitVec.ofNat 48 (p.mmax * 65536 + p.kmax) := by
  rw [← BitVec.ofNat_toNat, toNat_caps h, show 2 ^ 16 = 65536 from rfl]

/-! ### The commands that need an engine -/

theorem exec_corr_of_not_ready {s : State} (h : s.ready = false) :
    exec .corr s = .next (raise .notReady 0#48 s) := if_neg (Bool.eq_false_iff.mp h)

/-- Without an engine there is nothing to fold with (10_state.md R26). -/
theorem exec_eq_notReady_of_not_ready {s : State} (h : s.ready = false) :
    ∀ i ∈ [Instr.csum false, .csum true, .vrfy, .gen, .corr], exec i s = .next (raise .notReady 0#48 s) := by
  simp only [List.forall_mem_cons]
  exact ⟨exec_csum_of_not_ready h, exec_csum_of_not_ready h, exec_vrfy_of_not_ready h, exec_gen_of_not_ready h,
    exec_corr_of_not_ready h, List.forall_mem_nil _⟩

/-- Settles O10: the flags and registers are 0 by definition; no memory is readable because ALEN, SLEN and CVALID are 0,
nothing folds because READY is 0, and MKMASK asks the parameters alone. -/
theorem resetStateAsTheSpecSays : Obligations.ResetStateAsTheSpecSays := by
  intro p hp
  refine ⟨?_, rfl⟩
  rintro _ rfl
  refine ⟨rfl, rfl, rfl, rfl, rfl, rfl, rfl, rfl, rfl, rfl, rfl, rfl, rfl, rfl, rfl, rfl,
    ?id, ?caps, ?registers, ?alphabet, ?sequence, ?candidates, ?notReady, ?masks⟩
  case id => exact exec_rdr_of_readReg rfl
  case caps => exact exec_rdr_of_readReg (congrArg some (setWidth_caps hp))
  case registers => exact fun _ hlo hhi => exec_rdr_of_readReg (readReg_resetOf_of_two_le p hlo hhi)
  case alphabet => exact fun _ => exec_rda_of_ge (Nat.zero_le _)
  case sequence => exact fun _ => exec_rds_of_ge (Nat.zero_le _)
  case candidates => exact fun _ _ => exec_rdc_of_unreadable (.inl rfl)
  case notReady => exact exec_eq_notReady_of_not_ready rfl
  case masks => exact fun _ _ hmask => exec_mkmask_of_buildMask_some hmask

end Sys2Proof.Machine
end

section
/-! The encoder against the decoder (30_encoding.md R92): a word is the concatenation of its fields, so a word whose
reserved field is zero is the one the encoder writes from its OP and its operands. -/

namespace Sys2Proof

/-! ### Encoding, then decoding -/

theorem decode_corr_word : decode 0x0D00000000000000#64 = .ok .corr :=
  (decode_corr (by decide)).trans (ifReservedZero_ok.mpr ⟨by decide, rfl⟩)

/-- The word of every command is the one its format's lemma decodes. -/
theorem decode_encode (i : Instr) : decode (encode i) = .ok i := by
  cases i with
  | nop => exact decode_nop_word
  | clra => exact decode_clra_word
  | lda sym => exact decode_lda_word sym
  | init k m => exact decode_init_word k m
  | free => exact decode_free_word
  | mkmask k => exact Machine.decode_mkmask_word k
  | clrs => exact decode_clrs_word
  | lds sym => exact decode_lds_word sym
  | csum ic => exact decode_csum_word ic
  | vrfy => exact decode_vrfy_word
  | gen => exact decode_gen_word
  | corr => exact decode_corr_word
  | rdr r => exact decode_rdr_word r
  | rda i => exact decode_rda_word i
  | rds p => exact decode_rds_word p
  | rdc c p => exact decode_rdc_word c p
  | clre => exact decode_clre_word

/-! ### Decoding, then encoding -/

/-- Two fields of a word that meet are one field. -/
theorem append_adjacent_fields (w : Word64) (lo a b : Nat) :
    w.extractLsb' (lo + b) a ++ w.extractLsb' lo b = w.extractLsb' lo (a + b) := by
  refine BitVec.eq_of_getLsbD_eq fun i hi => ?_
  rw [BitVec.getLsbD_append]
  grind

/-- A word is its OP above the 56 bits below it (30_encoding.md R81). -/
theorem word_eq_op_append {w : Word64} {op : BitVec 8} {x : BitVec 56} (hop : opcodeField w = op)
    (hx : w.extractLsb' 0 56 = x) : op ++ x = w := by
  rw [← hop, ← hx]
  exact (append_adjacent_fields w 0 8 56).trans BitVec.extractLsb'_eq_self

section

variable {w : Word64} {op : BitVec 8} {i j : Instr} (hop : opcodeField w = op)

include hop

theorem encode_of_formatN (henc : encode j = op ++ 0#56) (h : formatN w j = .ok i) : encode i = w := by
  obtain ⟨hzero, rfl⟩ := ifReservedZero_ok.mp h
  rw [henc, word_eq_op_append hop hzero]

theorem encode_of_formatS (henc : encode j = op ++ (0#24 ++ symField w)) (h : formatS w j = .ok i) : encode i = w := by
  obtain ⟨hzero, rfl⟩ := ifReservedZero_ok.mp h
  rw [henc, ← hzero]
  exact word_eq_op_append hop (append_adjacent_fields w 0 24 32).symm

theorem encode_of_formatK (henc : encode j = op ++ (kField w ++ 0#48)) (h : formatK w j = .ok i) : encode i = w := by
  obtain ⟨hzero, rfl⟩ := ifReservedZero_ok.mp h
  rw [henc, ← hzero]
  exact word_eq_op_append hop (append_adjacent_fields w 0 8 48).symm

theorem encode_of_formatC (henc : encode j = op ++ (kField w ++ (0#32 ++ mField w))) (h : formatC w j = .ok i) :
    encode i = w := by
  obtain ⟨hzero, rfl⟩ := ifReservedZero_ok.mp h
  have hlow : w.extractLsb' 16 32 ++ mField w = w.extractLsb' 0 48 := append_adjacent_fields w 0 32 16
  rw [henc, ← hzero, hlow]
  exact word_eq_op_append hop (append_adjacent_fields w 0 8 48).symm

theorem encode_of_formatF (henc : encode j = op ++ (0#55 ++ BitVec.ofBool (icField w))) (h : formatF w j = .ok i) :
    encode i = w := by
  obtain ⟨hzero, rfl⟩ := ifReservedZero_ok.mp h
  have hbit : BitVec.ofBool (icField w) = w.extractLsb' 0 1 := by
    refine BitVec.eq_of_getLsbD_eq fun b hb => ?_
    obtain rfl : b = 0 := by omega
    simp [icField]
  rw [henc, ← hzero, hbit]
  exact word_eq_op_append hop (append_adjacent_fields w 0 55 1).symm

end

/-- Every opcode selects one format, and the word of that format is rebuilt from its fields. -/
theorem encode_of_decode {w : Word64} {i : Instr} (h : decode w = .ok i) : encode i = w := by
  have hknown : opcodeField w ∈ opcodes := by
    by_contra hop
    cases h.symm.trans (decode_unknown hop)
  simp only [opcodes, List.mem_cons, List.not_mem_nil, or_false] at hknown
  rcases hknown with hop | hop | hop | hop | hop | hop | hop | hop | hop | hop | hop | hop | hop | hop | hop | hop | hop
  · exact encode_of_formatN hop rfl ((decode_nop hop).symm.trans h)
  · exact encode_of_formatN hop rfl ((decode_clra hop).symm.trans h)
  · exact encode_of_formatS hop rfl ((decode_lda hop).symm.trans h)
  · exact encode_of_formatC hop rfl ((decode_init hop).symm.trans h)
  · exact encode_of_formatN hop rfl ((decode_free hop).symm.trans h)
  · exact encode_of_formatK hop rfl ((decode_mkmask hop).symm.trans h)
  · exact encode_of_formatN hop rfl ((decode_clrs hop).symm.trans h)
  · exact encode_of_formatS hop rfl ((decode_lds hop).symm.trans h)
  · exact encode_of_formatF hop rfl ((decode_csum hop).symm.trans h)
  · exact encode_of_formatN hop rfl ((decode_vrfy hop).symm.trans h)
  · exact encode_of_formatN hop rfl ((decode_gen hop).symm.trans h)
  · exact encode_of_formatN hop rfl ((decode_corr hop).symm.trans h)
  · exact encode_of_formatS hop rfl ((decode_rdr hop).symm.trans h)
  · exact encode_of_formatS hop rfl ((decode_rda hop).symm.trans h)
  · exact encode_of_formatS hop rfl ((decode_rds hop).symm.trans h)
  · cases (decode_rdc hop).symm.trans h
    exact word_eq_op_append hop (append_adjacent_fields w 0 24 32).symm
  · exact encode_of_formatN hop rfl ((decode_clre hop).symm.trans h)

/-- Settles O1: one direction decodes the word of each constructor, the other rebuilds a word from the fields that its
opcode reads. -/
theorem decodeAndEncodeAgree : Obligations.DecodeAndEncodeAgree :=
  ⟨fun i _ => decode_encode i, fun _ _ => encode_of_decode⟩

/-- Settles O4: the four words whose operands stand in the fields of a format, and four closed evaluations of the decoder. -/
theorem specWordsDecodeAsWritten : Obligations.SpecWordsDecodeAsWritten :=
  ⟨decode_nop_word, decode_lda_word 0xFFFFFFFF#32, decode_init_word 255#8 65535#16, Machine.decode_mkmask_word 2#8,
    decode_csum_word true, decode_rdc_word 1#24 2#32, by decide, by decide⟩

end Sys2Proof

namespace Sys2Proof.Machine

/-! ### The step (20_memory.md R65, R68) -/

/-- A legal word is taken from the port and its command is executed (20_memory.md R68). -/
theorem step_of_decode_ok {s : State} {w : Word64} {i : Instr} {rest : List HostInput} (hd : decode w = .ok i)
    (hb : s.busy = false) (hh : s.host = .command w :: rest) : step s = exec i { s with host := rest } := by
  simp only [step, nextActivity_command hb hh, hd]

/-- With nothing to do nothing changes (20_memory.md R65). -/
theorem step_of_no_input {s : State} (hb : s.busy = false) (hh : s.host = []) : step s = .next s := by
  simp [step, nextActivity, hh, hb]

/-- Settles O5: the two cases of a step while no GEN waits and no reset comes. -/
theorem stepRunsTheDecodedCommand : Obligations.StepRunsTheDecodedCommand :=
  ⟨fun _ _ _ _ hb hh hd => step_of_decode_ok hd hb hh, fun _ => step_of_no_input⟩

/-- Settles O7: the codes are those of the definition. -/
theorem errorCodesAreOneToTen : Obligations.ErrorCodesAreOneToTen :=
  ⟨rfl, rfl, rfl, rfl, rfl, rfl, rfl, rfl, rfl, rfl⟩

end Sys2Proof.Machine
end

section
/-! The algebra of the fold (47_laws.md section 1): multiplication by x modulo the mask is linear and a bijection of the
k-bit values, so the fold is a linear function of its digits, each of which determines it. -/

namespace Sys2Proof.Machine

/-! ### Multiplication by x is linear -/

theorem timesX_xor (k : Nat) (mask a b : Acc) : timesX k mask (a ^^^ b) = timesX k mask a ^^^ timesX k mask b :=
  foldStep_xor k mask a b 0#32 0#32

@[simp] theorem timesX_zero (k : Nat) (mask : Acc) : timesX k mask 0#33 = 0#33 := by
  have h := timesX_xor k mask 0#33 0#33
  rwa [BitVec.xor_self, BitVec.xor_self] at h

theorem timesX_lt (k : Nat) (mask v : Acc) : (timesX k mask v).toNat < 2 ^ k := foldStep_lt mask v 0#32

@[simp] theorem timesXPow_zero (k : Nat) (mask v : Acc) : timesXPow k mask 0 v = v := rfl

theorem timesXPow_succ (k : Nat) (mask : Acc) (n : Nat) (v : Acc) :
    timesXPow k mask (n + 1) v = timesX k mask (timesXPow k mask n v) := rfl

theorem timesXPow_timesX (k : Nat) (mask : Acc) (n : Nat) (v : Acc) :
    timesXPow k mask n (timesX k mask v) = timesXPow k mask (n + 1) v := by
  induction n with
  | zero => rfl
  | succ n ih => rw [timesXPow_succ, ih, timesXPow_succ _ _ (n + 1)]

theorem timesXPow_xor (k : Nat) (mask : Acc) (n : Nat) (a b : Acc) :
    timesXPow k mask n (a ^^^ b) = timesXPow k mask n a ^^^ timesXPow k mask n b := by
  induction n with
  | zero => rfl
  | succ n ih => rw [timesXPow_succ, ih, timesX_xor, timesXPow_succ, timesXPow_succ]

theorem timesXPow_lt {k : Nat} (mask : Acc) (n : Nat) {v : Acc} (hv : v.toNat < 2 ^ k) :
    (timesXPow k mask n v).toNat < 2 ^ k := by
  cases n with
  | zero => exact hv
  | succ n => exact timesX_lt k mask _

/-! ### Digits as values of the accumulator -/

theorem toNat_setWidth_digit (d : Digit) : (d.setWidth 33).toNat = d.toNat := BitVec.toNat_setWidth_of_le (by decide)

theorem setWidth_xor_digit (d e : Digit) : (d ^^^ e).setWidth 33 = d.setWidth 33 ^^^ e.setWidth 33 := BitVec.setWidth_xor

/-- A value of k bits fits a digit (00_scope.md R10). -/
theorem toNat_setWidth_acc {k : Nat} (hk : k ≤ 32) {a : Acc} (ha : a.toNat < 2 ^ k) : (a.setWidth 32).toNat = a.toNat := by
  have h32 : a.toNat < 2 ^ 32 := ha.trans_le (Nat.pow_le_pow_right (by decide) hk)
  rw [BitVec.toNat_setWidth, Nat.mod_eq_of_lt h32]

theorem setWidth_setWidth_acc {k : Nat} (hk : k ≤ 32) {a : Acc} (ha : a.toNat < 2 ^ k) :
    (a.setWidth 32).setWidth 33 = a :=
  BitVec.eq_of_toNat_eq ((toNat_setWidth_digit _).trans (toNat_setWidth_acc hk ha))

theorem xor_eq_zero_iff {w : Nat} {a b : BitVec w} : a ^^^ b = 0#w ↔ a = b := by
  rw [← BitVec.xor_self (x := b), BitVec.xor_left_inj]

theorem xor_lt {w k : Nat} {a b : BitVec w} (ha : a.toNat < 2 ^ k) (hb : b.toNat < 2 ^ k) : (a ^^^ b).toNat < 2 ^ k := by
  rw [BitVec.toNat_xor]
  exact Nat.xor_lt_two_pow ha hb

/-! ### Multiplication by x is a bijection of the k-bit values -/

/-- The k-bit values, the residues modulo a mask of degree k (47_laws.md R216). -/
def Residues (k : Nat) : Set Acc := {v | v.toNat < 2 ^ k}

section

variable {k : Nat} {mask : Acc} (h2 : 2 ≤ k) (hk : k ≤ 32) (hm : MaskShape k mask)

include h2 hk hm

/-- A doubled value is even and the mask is odd, so no reduction ends at 0 (40_maskgen.md R112 b). -/
theorem eq_zero_of_timesX_eq_zero {v : Acc} (hv : v.toNat < 2 ^ k) (h : timesX k mask v = 0#33) : v = 0#33 := by
  have hval := toNat_timesX (by omega) hk hm hv
  rw [h, doubleReduced] at hval
  split at hval
  case isTrue =>
    obtain ⟨-, hlow, -⟩ := hm
    have hodd : mask.toNat.testBit 0 = true := hlow
    have heven : (2 * v.toNat).testBit 0 = false := by simp
    have hbit := congrArg (Nat.testBit · 0) hval
    rw [Nat.testBit_xor, heven, hodd] at hbit
    cases hbit
  case isFalse => exact BitVec.eq_of_toNat_eq (by simp only [BitVec.toNat_ofNat] at hval ⊢; omega)

theorem timesX_injOn : Set.InjOn (timesX k mask) (Residues k) := by
  intro a ha b hb h
  rw [← xor_eq_zero_iff] at h ⊢
  rw [← timesX_xor] at h
  exact eq_zero_of_timesX_eq_zero h2 hk hm (xor_lt ha hb) h

/-- An injection of a finite set into itself is onto. -/
theorem timesX_bijOn : Set.BijOn (timesX k mask) (Residues k) (Residues k) := by
  have hfinite : Finite Acc := Finite.of_injective _ BitVec.equivFin.injective
  exact ((Residues k).toFinite.injOn_iff_bijOn_of_mapsTo fun v _ => timesX_lt k mask v).mp (timesX_injOn h2 hk hm)

theorem timesX_eq_zero_iff {v : Acc} (hv : v.toNat < 2 ^ k) : timesX k mask v = 0#33 ↔ v = 0#33 :=
  ⟨eq_zero_of_timesX_eq_zero h2 hk hm hv, fun h => by rw [h, timesX_zero]⟩

theorem timesXPow_bijOn (n : Nat) : Set.BijOn (timesXPow k mask n) (Residues k) (Residues k) := by
  induction n with
  | zero => exact Set.bijOn_id _
  | succ n ih => exact (timesX_bijOn h2 hk hm).comp ih

theorem timesXPow_eq_zero_iff (n : Nat) {v : Acc} (hv : v.toNat < 2 ^ k) :
    timesXPow k mask n v = 0#33 ↔ v = 0#33 := by
  induction n with
  | zero => rfl
  | succ n ih => rw [timesXPow_succ, timesX_eq_zero_iff h2 hk hm (timesXPow_lt mask n hv), ih]

theorem foldStep_eq_zero_iff {a : Acc} {d : Digit} (ha : a.toNat < 2 ^ k) (hd : d.toNat < 2 ^ k) :
    foldStep k mask a d = 0#33 ↔ a.toNat = d.toNat := by
  have hd' : (d.setWidth 33).toNat < 2 ^ k := (toNat_setWidth_digit d).symm ▸ hd
  rw [foldStep_eq_timesX, timesX_eq_zero_iff h2 hk hm (xor_lt ha hd'), xor_eq_zero_iff, ← BitVec.toNat_inj,
    toNat_setWidth_digit]

/-- The digit that leads from `a` to `y` is the XOR of `a` with the preimage of `y`. -/
theorem exists_unique_digit {a y : Acc} (ha : a.toNat < 2 ^ k) (hy : y.toNat < 2 ^ k) :
    ∃ d : Digit, d.toNat < 2 ^ k ∧ foldStep k mask a d = y ∧
      ∀ d' : Digit, d'.toNat < 2 ^ k → foldStep k mask a d' = y → d' = d := by
  obtain ⟨v, hv, rfl⟩ := (timesX_bijOn h2 hk hm).surjOn hy
  have hav : (a ^^^ v).toNat < 2 ^ k := xor_lt ha hv
  refine ⟨(a ^^^ v).setWidth 32, ?range, ?value, fun d' hd' h => ?unique⟩
  case range => rwa [toNat_setWidth_acc hk hav]
  case value => rw [foldStep_eq_timesX, setWidth_setWidth_acc hk hav, ← BitVec.xor_assoc, BitVec.xor_self, BitVec.zero_xor]
  case unique =>
    have hd33 : (d'.setWidth 33).toNat < 2 ^ k := (toNat_setWidth_digit d').symm ▸ hd'
    rw [foldStep_eq_timesX] at h
    have hxor : a ^^^ d'.setWidth 33 = v := timesX_injOn h2 hk hm (xor_lt ha hd33) hv h
    rw [← hxor, ← BitVec.xor_assoc, BitVec.xor_self, BitVec.zero_xor, BitVec.setWidth_setWidth_of_le _ (by decide),
      BitVec.setWidth_eq]

theorem exists_unique_accumulator {d : Digit} {y : Acc} (hd : d.toNat < 2 ^ k) (hy : y.toNat < 2 ^ k) :
    ∃ a : Acc, a.toNat < 2 ^ k ∧ foldStep k mask a d = y ∧
      ∀ a' : Acc, a'.toNat < 2 ^ k → foldStep k mask a' d = y → a' = a := by
  obtain ⟨v, hv, rfl⟩ := (timesX_bijOn h2 hk hm).surjOn hy
  have hd33 : (d.setWidth 33).toNat < 2 ^ k := (toNat_setWidth_digit d).symm ▸ hd
  refine ⟨v ^^^ d.setWidth 33, xor_lt hv hd33, ?value, fun a' ha' h => ?unique⟩
  case value => rw [foldStep_eq_timesX, BitVec.xor_assoc, BitVec.xor_self, BitVec.xor_zero]
  case unique =>
    rw [foldStep_eq_timesX] at h
    have hxor : a' ^^^ d.setWidth 33 = v := timesX_injOn h2 hk hm (xor_lt ha' hd33) hv h
    rw [← hxor, BitVec.xor_assoc, BitVec.xor_self, BitVec.xor_zero]

end

/-- Settles O25: the step is multiplication by x of the XOR of its arguments, and both are bijections. -/
theorem foldStepIsABijectionInEachArgument : Obligations.FoldStepIsABijectionInEachArgument :=
  fun _ _ h2 hk hm => ⟨fun _ _ => exists_unique_digit h2 hk hm, fun _ _ => exists_unique_accumulator h2 hk hm,
    fun _ _ => foldStep_eq_zero_iff h2 hk hm⟩

/-! ### The fold is linear -/

/-- The accumulator a fold starts from is multiplied by x once for every digit. -/
theorem foldFrom_xor (k : Nat) (mask a b : Acc) (ds : List Digit) :
    foldFrom k mask (a ^^^ b) ds = foldFrom k mask a ds ^^^ timesXPow k mask ds.length b := by
  induction ds generalizing a b with
  | nil => rfl
  | cons d ds ih =>
    have hstep : foldStep k mask (a ^^^ b) d = foldStep k mask a d ^^^ timesX k mask b := by
      rw [foldStep_eq_timesX, foldStep_eq_timesX, ← timesX_xor]
      ac_rfl
    rw [foldFrom_cons, hstep, ih, foldFrom_cons, timesXPow_timesX, List.length_cons]

theorem foldFrom_zipWith_xor (k : Nat) (mask : Acc) (ds es : List Digit) (h : ds.length = es.length) (a b : Acc) :
    foldFrom k mask (a ^^^ b) (List.zipWith (· ^^^ ·) ds es) = foldFrom k mask a ds ^^^ foldFrom k mask b es := by
  induction ds generalizing es a b with
  | nil =>
    obtain rfl := List.length_eq_zero_iff.mp h.symm
    rfl
  | cons d ds ih =>
    cases es with
    | nil => cases h
    | cons e es =>
      rw [List.zipWith_cons_cons, foldFrom_cons, foldStep_xor, ih es (Nat.succ.inj h), foldFrom_cons, foldFrom_cons]

theorem timesX_foldl_xor (k : Nat) (mask a : Acc) (vs : List Acc) :
    timesX k mask (vs.foldl (· ^^^ ·) a) = (vs.map (timesX k mask)).foldl (· ^^^ ·) (timesX k mask a) := by
  induction vs generalizing a with
  | nil => rfl
  | cons v vs ih => rw [List.foldl_cons, ih, timesX_xor, List.map_cons, List.foldl_cons]

/-- What digit `i` of a list contributes to its fold (47_laws.md R219). -/
def digitTerm (k : Nat) (mask : Acc) (ds : List Digit) (i : Nat) : Acc :=
  timesXPow k mask (ds.length - i) ((ds.getD i 0#32).setWidth 33)

/-- One more digit on the right multiplies every term by x and adds its own. -/
theorem map_digitTerm_concat (k : Nat) (mask : Acc) (ds : List Digit) (d : Digit) :
    (List.range (ds ++ [d]).length).map (digitTerm k mask (ds ++ [d])) =
      ((List.range ds.length).map (digitTerm k mask ds)).map (timesX k mask) ++ [timesX k mask (d.setWidth 33)] := by
  rw [List.length_append, List.length_singleton, List.range_succ, List.map_append, List.map_singleton, List.map_map]
  congr 1
  · refine List.map_congr_left fun i hi => ?_
    have hlt : i < ds.length := List.mem_range.mp hi
    rw [Function.comp_apply, digitTerm, digitTerm, List.getD_append _ _ _ _ hlt, ← timesXPow_succ,
      List.length_append, List.length_singleton, Nat.sub_add_comm hlt.le]
  · rw [digitTerm, List.length_append, List.length_singleton, Nat.add_sub_cancel_left,
      List.getD_append_right _ _ _ _ le_rfl, Nat.sub_self, List.getD_cons_zero]
    rfl

theorem fold_eq_foldl_digitTerm (k : Nat) (mask : Acc) (ds : List Digit) :
    fold k mask ds = ((List.range ds.length).map (digitTerm k mask ds)).foldl (· ^^^ ·) 0#33 := by
  induction ds using List.reverseRecOn with
  | nil => rfl
  | append_singleton ds d ih =>
    rw [fold_concat, foldStep_eq_timesX, timesX_xor, map_digitTerm_concat, List.foldl_append, ih, timesX_foldl_xor,
      timesX_zero]
    rfl

/-! ### A changed digit and an exchanged pair -/

theorem fold_set (k : Nat) (mask : Acc) {ds : List Digit} {j : Nat} (hj : j < ds.length) (d : Digit) :
    fold k mask (ds.set j d) =
      fold k mask ds ^^^ timesXPow k mask (ds.length - j) ((ds.getD j 0#32 ^^^ d).setWidth 33) := by
  have hds : ds = ds.take j ++ ds.getD j 0#32 :: ds.drop (j + 1) := by
    rw [List.getD_eq_getElem _ _ hj, List.getElem_cons_drop, List.take_append_drop]
  have hset : ds.set j d = ds.take j ++ d :: ds.drop (j + 1) := by
    rw [List.set_eq_take_append_cons_drop, if_pos hj]
  have hstep (a : Acc) (e : Digit) :
      foldStep k mask a d = foldStep k mask a e ^^^ timesX k mask ((e ^^^ d).setWidth 33) := by
    rw [foldStep_eq_timesX, foldStep_eq_timesX, ← timesX_xor, setWidth_xor_digit, BitVec.xor_assoc,
      ← BitVec.xor_assoc (e.setWidth 33), BitVec.xor_self, BitVec.zero_xor]
  have hlen : (ds.drop (j + 1)).length + 1 = ds.length - j := by rw [List.length_drop]; omega
  calc fold k mask (ds.set j d)
      = foldFrom k mask (foldStep k mask (fold k mask (ds.take j)) d) (ds.drop (j + 1)) := by
        rw [hset, fold, foldFrom_append, foldFrom_cons, fold]
    _ = foldFrom k mask (foldStep k mask (fold k mask (ds.take j)) (ds.getD j 0#32)) (ds.drop (j + 1)) ^^^
          timesXPow k mask (ds.length - j) ((ds.getD j 0#32 ^^^ d).setWidth 33) := by
        rw [hstep _ (ds.getD j 0#32), foldFrom_xor, timesXPow_timesX, hlen]
    _ = fold k mask ds ^^^ timesXPow k mask (ds.length - j) ((ds.getD j 0#32 ^^^ d).setWidth 33) := by
        conv_rhs => rw [hds, fold, foldFrom_append, foldFrom_cons]
        rw [← hds]
        rfl

theorem fold_swapTrial (k : Nat) (mask : Acc) {ds : List Digit} {j : Nat} (hj : j + 1 < ds.length) :
    fold k mask (swapTrial ds j) =
      fold k mask ds ^^^
        timesXPow k mask (ds.length - j - 1)
          (timesX k mask ((ds.getD j 0#32 ^^^ ds.getD (j + 1) 0#32).setWidth 33) ^^^
            (ds.getD j 0#32 ^^^ ds.getD (j + 1) 0#32).setWidth 33) := by
  have hnext : (ds.set j (ds.getD (j + 1) 0#32)).getD (j + 1) 0#32 = ds.getD (j + 1) 0#32 := by
    rw [List.getD_eq_getElem?_getD, List.getElem?_set_ne (by omega), ← List.getD_eq_getElem?_getD]
  have hlen : ds.length - j = ds.length - j - 1 + 1 := by omega
  rw [swapTrial, fold_set k mask (by rwa [List.length_set]), fold_set k mask (by omega), hnext, List.length_set,
    timesXPow_xor, timesXPow_timesX, ← hlen, Nat.sub_sub, BitVec.xor_comm (ds.getD (j + 1) 0#32), BitVec.xor_assoc]

/-- Settles O26: the terms of the digits, and the effect on the fold of the XOR of two lists, of one changed digit and of
two such changes. -/
theorem foldIsLinear : Obligations.FoldIsLinear := by
  intro k mask _ _ _
  refine ⟨fun ds _ => fold_eq_foldl_digitTerm k mask ds, fun ds es hlen _ _ => ?_, fun _ _ _ _ hj _ => fold_set k mask hj _,
    fun _ _ _ hj => fold_swapTrial k mask hj⟩
  exact foldFrom_zipWith_xor k mask ds es hlen 0#33 0#33

end Sys2Proof.Machine
end

section
/-! Values as polynomials over GF(2) (47_laws.md R216): XOR is addition, the step is multiplication by X modulo the mask's
polynomial, and the weight of a value is its polynomial at 1. -/

namespace Sys2Proof.Machine

open Polynomial

/-! ### The polynomial of a value -/

/-- The polynomial whose coefficients are the bits of `v` (47_laws.md R216). -/
noncomputable def polyOf (v : Acc) : (ZMod 2)[X] := ∑ i ∈ Finset.range 33, if v.getLsbD i then X ^ i else 0

theorem isPolyOf_polyOf (v : Acc) : IsPolyOf v (polyOf v) := by
  intro n
  have hcoeff : ∀ i, (if v.getLsbD i then (X : (ZMod 2)[X]) ^ i else 0).coeff n =
      if n = i then (if v.getLsbD n then 1 else 0) else 0 := by
    intro i
    by_cases hni : n = i
    · subst hni
      split <;> simp
    · rw [if_neg hni]
      split
      · rw [coeff_X_pow, if_neg hni]
      · rw [coeff_zero]
  rw [polyOf, finsetSum_coeff, Finset.sum_congr rfl fun i _ => hcoeff i, Finset.sum_ite_eq]
  split
  case isTrue => rfl
  case isFalse h =>
    rw [BitVec.getLsbD_of_ge v n (not_lt.mp fun hn => h (Finset.mem_range.mpr hn)), if_neg Bool.false_ne_true]

theorem IsPolyOf.unique {v : Acc} {p q : (ZMod 2)[X]} (hp : IsPolyOf v p) (hq : IsPolyOf v q) : p = q :=
  Polynomial.ext fun i => (hp i).trans (hq i).symm

/-- A value is determined by its polynomial. -/
theorem IsPolyOf.inj {v w : Acc} {p : (ZMod 2)[X]} (hv : IsPolyOf v p) (hw : IsPolyOf w p) : v = w := by
  refine BitVec.eq_of_getLsbD_eq fun i _ => ?_
  have h := (hv i).symm.trans (hw i)
  cases hvi : v.getLsbD i <;> cases hwi : w.getLsbD i
  · rfl
  · simp [hvi, hwi] at h
  · simp [hvi, hwi] at h
  · rfl

theorem isPolyOf_zero : IsPolyOf 0#33 0 := fun i => by simp

/-- XOR is polynomial addition (47_laws.md R216). -/
theorem IsPolyOf.xor {v w : Acc} {p q : (ZMod 2)[X]} (hv : IsPolyOf v p) (hw : IsPolyOf w q) : IsPolyOf (v ^^^ w) (p + q) := by
  intro i
  rw [coeff_add, hv i, hw i, BitVec.getLsbD_xor]
  cases v.getLsbD i <;> cases w.getLsbD i <;> decide

/-- A shift by one is multiplication by X when no bit is lost. -/
theorem IsPolyOf.shiftLeft_one {v : Acc} {p : (ZMod 2)[X]} (hv : IsPolyOf v p) (htop : v.getLsbD 32 = false) :
    IsPolyOf (v <<< 1) (X * p) := by
  intro i
  cases i with
  | zero => rw [coeff_X_mul_zero]; simp
  | succ i =>
    have hbit : (v <<< 1).getLsbD (i + 1) = v.getLsbD i := by
      rw [BitVec.getLsbD_shiftLeft, Nat.add_sub_cancel]
      rcases Nat.lt_trichotomy i 32 with hi | rfl | hi
      · simp; omega
      · rw [htop]; rfl
      · rw [BitVec.getLsbD_of_ge v i (by omega), Bool.and_false]
    rw [coeff_X_mul, hv i, hbit]

theorem IsPolyOf.degree_lt {k : Nat} {v : Acc} {p : (ZMod 2)[X]} (hp : IsPolyOf v p) (hv : v.toNat < 2 ^ k) :
    p.degree < k := by
  rw [degree_lt_iff_coeff_zero]
  intro i hi
  have hbit : v.getLsbD i = false :=
    Nat.testBit_lt_two_pow (hv.trans_le (Nat.pow_le_pow_right (by decide) hi))
  rw [hp i, hbit, if_neg Bool.false_ne_true]

/-- The weight of a value is its polynomial at 1 (40_maskgen.md R112 d). -/
theorem IsPolyOf.eval_one {v : Acc} {p : (ZMod 2)[X]} (hp : IsPolyOf v p) : p.eval 1 = (popcount v : ZMod 2) := by
  have hdeg : p.natDegree < 33 := by
    by_cases h0 : p = 0
    · rw [h0, natDegree_zero]; decide
    · exact (natDegree_lt_iff_degree_lt h0).mpr (hp.degree_lt v.isLt)
  have hweight : popcount v = ((Finset.range 33).filter fun i => v.getLsbD i = true).card := by
    simp [popcount, Finset.card, Finset.filter, Finset.range, Multiset.range]
  rw [eval_eq_sum_range' hdeg, hweight, Finset.natCast_card_filter]
  exact Finset.sum_congr rfl fun i _ => by rw [hp i, one_pow, mul_one]

theorem oddWeight_iff {v : Acc} {p : (ZMod 2)[X]} (hp : IsPolyOf v p) : OddWeight v ↔ p.eval 1 = 1 := by
  rw [hp.eval_one, OddWeight, ← Nat.odd_iff, ZMod.natCast_eq_one_iff_odd]

/-! ### The mask's polynomial -/

section

variable {k : Nat} {mask : Acc} {pm : (ZMod 2)[X]} (hm : MaskShape k mask) (hpm : IsPolyOf mask pm)

include hm hpm

theorem MaskShape.natDegree_eq : pm.natDegree = k := by
  have hlead : pm.coeff k = 1 := by rw [hpm k, hm.1, if_pos rfl]
  have hlt : pm.degree < (k + 1 : Nat) := hpm.degree_lt hm.toNat_lt
  refine natDegree_eq_of_le_of_coeff_ne_zero ?_ (by rw [hlead]; decide)
  exact natDegree_le_iff_coeff_eq_zero.mpr ((degree_lt_iff_coeff_zero pm (k + 1)).mp hlt)

theorem MaskShape.monic : pm.Monic := by
  rw [Monic, leadingCoeff, hm.natDegree_eq hpm, hpm k, hm.1, if_pos rfl]

end

/-! ### The step as a polynomial -/

section

variable {k : Nat} {mask : Acc} (h2 : 2 ≤ k) (hk : k ≤ 32) (hm : MaskShape k mask)

include h2 hk hm

/-- The reduction leaves k bits, so the final cut changes nothing (42_checksum.md R140). -/
theorem timesX_eq_reduced {v : Acc} (hv : v.toNat < 2 ^ k) :
    timesX k mask v = if (v <<< 1).getLsbD k then (v <<< 1) ^^^ mask else v <<< 1 := by
  have hshift := toNat_shiftLeft_one hk hv
  have hbit : (v <<< 1).getLsbD k = v.toNat.testBit (k - 1) := by
    rw [BitVec.getLsbD, hshift, testBit_two_mul (by omega)]
  refine BitVec.eq_of_toNat_eq ?_
  rw [toNat_timesX (by omega) hk hm hv, hbit, apply_ite BitVec.toNat, BitVec.toNat_xor, hshift, doubleReduced]

/-- Multiplication by x is multiplication by X, less the mask's polynomial or nothing (47_laws.md R216). -/
theorem exists_isPolyOf_timesX {v : Acc} {pv pm : (ZMod 2)[X]} (hv : v.toNat < 2 ^ k) (hpv : IsPolyOf v pv)
    (hpm : IsPolyOf mask pm) : ∃ c : ZMod 2, IsPolyOf (timesX k mask v) (X * pv + pm * C c) := by
  have htop : v.getLsbD 32 = false :=
    Nat.testBit_lt_two_pow (hv.trans_le (Nat.pow_le_pow_right (by decide) hk))
  have hshift := hpv.shiftLeft_one htop
  rw [timesX_eq_reduced h2 hk hm hv]
  split
  · exact ⟨1, by simpa using hshift.xor hpm⟩
  · exact ⟨0, by simpa using hshift⟩

/-- Of the polynomials that differ from X times a value's by a multiple of the mask's, the step gives the one of smaller
degree. -/
theorem polyOf_timesX {v : Acc} {pv pm ps : (ZMod 2)[X]} (hv : v.toNat < 2 ^ k) (hpv : IsPolyOf v pv)
    (hpm : IsPolyOf mask pm) (hps : IsPolyOf (timesX k mask v) ps) : ps = (X * pv) %ₘ pm := by
  obtain ⟨c, hc⟩ := exists_isPolyOf_timesX h2 hk hm hv hpv hpm
  have hmonic := hm.monic hpm
  have hdeg : ps.degree < pm.degree := by
    rw [degree_eq_natDegree hmonic.ne_zero, hm.natDegree_eq hpm]
    exact hps.degree_lt (timesX_lt k mask v)
  have hsum : ps + pm * C c = X * pv := by
    rw [hps.unique hc, add_assoc, CharTwo.add_self_eq_zero, add_zero]
  exact (div_modByMonic_unique (C c) ps hmonic ⟨hsum, hdeg⟩).2.symm

/-- A fixed point of multiplication by x would make the mask's polynomial divide X + 1 times it, but that is not zero at 1
for a mask of odd weight (47_laws.md R223). -/
theorem eq_zero_of_timesX_eq_self (hodd : OddWeight mask) {v : Acc} (hv : v.toNat < 2 ^ k) (h : timesX k mask v = v) :
    v = 0#33 := by
  have hpv := isPolyOf_polyOf v
  have hpm := isPolyOf_polyOf mask
  obtain ⟨c, hc⟩ := exists_isPolyOf_timesX h2 hk hm hv hpv hpm
  rw [h] at hc
  have heq : polyOf v = X * polyOf v + polyOf mask * C c := hpv.unique hc
  have hzero : c = 0 := by
    have hone := congrArg (eval 1) heq
    simpa [(oddWeight_iff hpm).mp hodd] using hone
  have hfix : (X - 1) * polyOf v = 0 := by
    rw [hzero, C_0, mul_zero, add_zero] at heq
    rw [sub_mul, one_mul, ← heq, sub_self]
  have hpoly : polyOf v = 0 := (mul_eq_zero.mp hfix).resolve_left (X_sub_C_ne_zero 1)
  exact hpv.inj (hpoly ▸ isPolyOf_zero)

/-- The difference that an exchange of two digits makes is not lost by a mask of odd weight (47_laws.md R223). -/
theorem timesX_xor_self_eq_zero_iff (hodd : OddWeight mask) {v : Acc} (hv : v.toNat < 2 ^ k) :
    timesX k mask v ^^^ v = 0#33 ↔ v = 0#33 :=
  ⟨fun h => eq_zero_of_timesX_eq_self h2 hk hm hodd hv (xor_eq_zero_iff.mp h),
    fun h => by rw [h, timesX_zero, BitVec.xor_self]⟩

end

/-- Settles O27: the mask's polynomial is monic of degree k, and the step is the remainder of X times the sum. -/
theorem foldStepMultipliesByXModuloTheMask : Obligations.FoldStepMultipliesByXModuloTheMask := by
  intro k mask acc d pm pa pd ps h2 hk hm ha hd hpm hpa hpd hps
  have hsum := hpa.xor hpd
  have hlt : (acc ^^^ d.setWidth 33).toNat < 2 ^ k := xor_lt ha ((toNat_setWidth_digit d).symm ▸ hd)
  rw [foldStep_eq_timesX] at hps
  exact ⟨hm.natDegree_eq hpm, hsum, polyOf_timesX h2 hk hm hlt hsum hpm hps⟩

/-- Settles O14: 1 is no root of an irreducible polynomial of degree at least 2. -/
theorem irreducibleMasksHaveOddWeight : Obligations.IrreducibleMasksHaveOddWeight := by
  rintro k mask h2 hk hm ⟨p, hp, hirr⟩
  have hroot : ¬ p.IsRoot 1 := hirr.not_isRoot_of_natDegree_ne_one (by rw [hm.natDegree_eq hp]; omega)
  have hcases : ∀ b : ZMod 2, b ≠ 0 → b = 1 := by decide
  exact (oddWeight_iff hp).mpr (hcases _ hroot)

/-- What the order of two digits makes in the fold: x times (x + 1) times their XOR (47_laws.md R219). -/
theorem foldStep_foldStep_xor (k : Nat) (mask c : Acc) (a b : Digit) :
    foldStep k mask (foldStep k mask c a) b ^^^ foldStep k mask (foldStep k mask c b) a =
      timesX k mask (timesX k mask ((a ^^^ b).setWidth 33) ^^^ (a ^^^ b).setWidth 33) := by
  have hinner : timesX k mask (c ^^^ a.setWidth 33) ^^^ timesX k mask (c ^^^ b.setWidth 33) =
      timesX k mask ((a ^^^ b).setWidth 33) := by
    rw [← timesX_xor, setWidth_xor_digit, BitVec.xor_comm c, BitVec.xor_assoc, ← BitVec.xor_assoc c, BitVec.xor_self,
      BitVec.zero_xor]
  rw [← hinner, foldStep_eq_timesX _ _ (foldStep k mask c a), foldStep_eq_timesX _ _ (foldStep k mask c b), ← timesX_xor,
    foldStep_eq_timesX _ _ c a, foldStep_eq_timesX _ _ c b, setWidth_xor_digit]
  congr 1
  ac_rfl

/-- Settles O28: the two orders of folding `a` and `b` differ by x times (x + 1) times their XOR. -/
theorem foldStepSeesEveryExchange : Obligations.FoldStepSeesEveryExchange := by
  intro k mask c a b h2 hk hm hodd _ ha hb
  refine ⟨by rw [foldStep_eq_timesX, foldStep_eq_timesX, BitVec.xor_comm], fun h => ?_⟩
  have hδ : ((a ^^^ b).setWidth 33).toNat < 2 ^ k := by
    rw [toNat_setWidth_digit]
    exact xor_lt ha hb
  have hdiff : timesX k mask (timesX k mask ((a ^^^ b).setWidth 33) ^^^ (a ^^^ b).setWidth 33) = 0#33 := by
    rw [← xor_eq_zero_iff, foldStep_foldStep_xor] at h
    exact h
  have hzero := (timesX_xor_self_eq_zero_iff h2 hk hm hodd hδ).mp
    ((timesX_eq_zero_iff h2 hk hm (xor_lt (timesX_lt k mask _) hδ)).mp hdiff)
  rw [setWidth_xor_digit, xor_eq_zero_iff] at hzero
  exact BitVec.eq_of_toNat_eq (by simpa only [toNat_setWidth_digit] using congrArg BitVec.toNat hzero)

end Sys2Proof.Machine
end

section
/-! The trials of CORR as one list (45_correct.md R175 to R177): the search tries them in order, they are pairwise
different, and of those at one position exactly one verifies (47_laws.md R226, R227). -/

namespace Sys2Proof.Machine

/-! ### Lists of trials -/

/-- The trials of a list one after another (45_correct.md R175). -/
def tryTrials (s : State) (trials : List (List Digit)) (found : List (List Sym)) : List (List Sym) :=
  trials.foldl (fun found trial => tryTrial s trial found) found

@[simp] theorem tryTrials_nil (s : State) (found : List (List Sym)) : tryTrials s [] found = found := rfl

@[simp] theorem tryTrials_cons (s : State) (trial : List Digit) (trials : List (List Digit)) (found : List (List Sym)) :
    tryTrials s (trial :: trials) found = tryTrials s trials (tryTrial s trial found) := rfl

theorem tryTrials_append (s : State) (ts us : List (List Digit)) (found : List (List Sym)) :
    tryTrials s (ts ++ us) found = tryTrials s us (tryTrials s ts found) := List.foldl_append

theorem prefix_tryTrials (s : State) (trials : List (List Digit)) (found : List (List Sym)) :
    found <+: tryTrials s trials found := by
  induction trials generalizing found with
  | nil => exact List.prefix_rfl
  | cons trial trials ih => exact (prefix_tryTrial s trial found).trans (ih _)

/-- A candidate was there before or is the record of a trial that verifies. -/
theorem mem_tryTrials {s : State} {trials : List (List Digit)} {found : List (List Sym)} {r : List Sym}
    (h : r ∈ tryTrials s trials found) :
    r ∈ found ∨ ∃ trial ∈ trials, engineFold s trial = 0#33 ∧ recordOf s trial = r := by
  induction trials generalizing found with
  | nil => exact .inl h
  | cons trial trials ih =>
    rw [tryTrials_cons] at h
    rcases ih h with h | ⟨u, hu, hfold, hrec⟩
    · obtain ⟨hfold, -, heq⟩ | ⟨-, heq⟩ := tryTrial_cases s trial found
      · rw [heq, List.mem_append, List.mem_singleton] at h
        exact h.imp_right fun h => ⟨trial, List.mem_cons_self, hfold, h.symm⟩
      · exact .inl (heq ▸ h)
    · exact .inr ⟨u, List.mem_cons_of_mem _ hu, hfold, hrec⟩

/-- When no two records are equal the search keeps exactly the trials that verify (47_laws.md R227). -/
theorem tryTrials_of_nodup {s : State} {trials : List (List Digit)} {found : List (List Sym)}
    (h : (found ++ trials.map (recordOf s)).Nodup) :
    tryTrials s trials found =
      found ++ (trials.filter fun trial => decide (engineFold s trial = 0#33)).map (recordOf s) := by
  induction trials generalizing found with
  | nil => rw [tryTrials_nil, List.filter_nil, List.map_nil, List.append_nil]
  | cons trial trials ih =>
    have hnew : recordOf s trial ∉ found := fun hmem =>
      (List.disjoint_of_nodup_append h) hmem (List.mem_map_of_mem List.mem_cons_self)
    rw [tryTrials_cons]
    obtain ⟨hfold, -, heq⟩ | ⟨hfail, heq⟩ := tryTrial_cases s trial found
    · rw [heq, ih (by simpa using h), List.filter_cons, if_pos (decide_eq_true hfold), List.map_cons,
        List.append_assoc, List.singleton_append]
    · have hfold : engineFold s trial ≠ 0#33 := hfail.resolve_right hnew
      have hrest : (found ++ trials.map (recordOf s)).Nodup :=
        h.sublist (List.Sublist.append_left (List.sublist_cons_self _ _) _)
      rw [heq, ih hrest, List.filter_cons, if_neg (by simpa using hfold)]

/-! ### The trials of CORR -/

/-- The exchanges that phase 1 tries at the positions of a list (45_correct.md R176). -/
def swapTrials (ds : List Digit) (js : List Nat) : List (List Digit) :=
  (js.filter fun j => decide (ds.getD j 0#32 ≠ ds.getD (j + 1) 0#32)).map (swapTrial ds)

/-- The substitutions that phase 2 tries at position `j` for the digits of a list (45_correct.md R177). -/
def substTrials (ds : List Digit) (j : Nat) (vs : List Nat) : List (List Digit) :=
  (vs.filter fun d => decide (BitVec.ofNat 32 d ≠ ds.getD j 0#32)).map fun d => substTrial ds j (BitVec.ofNat 32 d)

/-- The substitutions that phase 2 tries at the positions of a list (45_correct.md R177). -/
def substTrialsOver (s : State) (ds : List Digit) (js : List Nat) : List (List Digit) :=
  js.flatMap fun j => substTrials ds j (List.range (2 ^ s.k.toNat))

/-- All trials of a CORR in their order (45_correct.md R175). -/
def corrTrials (s : State) (ds : List Digit) : List (List Digit) :=
  swapTrials ds (List.range s.m.toNat) ++ substTrialsOver s ds (List.range (s.m.toNat + 1))

theorem swapTrials_cons (ds : List Digit) (j : Nat) (js : List Nat) :
    swapTrials ds (j :: js) =
      if ds.getD j 0#32 ≠ ds.getD (j + 1) 0#32 then swapTrial ds j :: swapTrials ds js else swapTrials ds js := by
  by_cases h : ds.getD j 0#32 ≠ ds.getD (j + 1) 0#32
  · rw [if_pos h, swapTrials, List.filter_cons, if_pos (decide_eq_true h), List.map_cons, swapTrials]
  · rw [if_neg h, swapTrials, List.filter_cons, if_neg (by rwa [decide_eq_true_eq]), swapTrials]

theorem substTrials_cons (ds : List Digit) (j d : Nat) (vs : List Nat) :
    substTrials ds j (d :: vs) =
      if BitVec.ofNat 32 d ≠ ds.getD j 0#32 then substTrial ds j (BitVec.ofNat 32 d) :: substTrials ds j vs
      else substTrials ds j vs := by
  by_cases h : BitVec.ofNat 32 d ≠ ds.getD j 0#32
  · rw [if_pos h, substTrials, List.filter_cons, if_pos (decide_eq_true h), List.map_cons, substTrials]
  · rw [if_neg h, substTrials, List.filter_cons, if_neg (by rwa [decide_eq_true_eq]), substTrials]

theorem mem_swapTrials {ds trial : List Digit} {js : List Nat} :
    trial ∈ swapTrials ds js ↔ ∃ j ∈ js, ds.getD j 0#32 ≠ ds.getD (j + 1) 0#32 ∧ swapTrial ds j = trial := by
  simp only [swapTrials, List.mem_map, List.mem_filter, decide_eq_true_eq, and_assoc]

theorem mem_substTrials {ds trial : List Digit} {j : Nat} {vs : List Nat} :
    trial ∈ substTrials ds j vs ↔
      ∃ d ∈ vs, BitVec.ofNat 32 d ≠ ds.getD j 0#32 ∧ substTrial ds j (BitVec.ofNat 32 d) = trial := by
  simp only [substTrials, List.mem_map, List.mem_filter, decide_eq_true_eq, and_assoc]

/-- An ascending loop is a fold over its indices (00_scope.md R12). -/
theorem forUpTo_eq_foldl {α : Type} (n : Nat) (f : Nat → α → α) (init : α) :
    forUpTo n f init = (List.range n).foldl (fun a i => f i a) init := by
  induction n with
  | zero => rfl
  | succ n ih => rw [forUpTo_succ, ih, List.range_succ, List.foldl_append, List.foldl_cons, List.foldl_nil]

theorem foldl_transTurn (s : State) (ds : List Digit) (js : List Nat) (found : List (List Sym)) :
    js.foldl (fun a j => transTurn s ds j a) found = tryTrials s (swapTrials ds js) found := by
  induction js generalizing found with
  | nil => rfl
  | cons j js ih =>
    rw [List.foldl_cons, ih, swapTrials_cons, transTurn]
    split <;> rfl

theorem foldl_substTurn (s : State) (ds : List Digit) (j : Nat) (vs : List Nat) (found : List (List Sym)) :
    vs.foldl (fun a d => substTurn s ds j d a) found = tryTrials s (substTrials ds j vs) found := by
  induction vs generalizing found with
  | nil => rfl
  | cons d vs ih =>
    rw [List.foldl_cons, ih, substTrials_cons, substTurn]
    split <;> rfl

theorem foldl_substPosition (s : State) (ds : List Digit) (js : List Nat) (found : List (List Sym)) :
    js.foldl (fun a j => substPosition s ds j a) found = tryTrials s (substTrialsOver s ds js) found := by
  induction js generalizing found with
  | nil => rfl
  | cons j js ih =>
    rw [List.foldl_cons, ih, substPosition, forUpTo_eq_foldl, foldl_substTurn, substTrialsOver, substTrialsOver,
      List.flatMap_cons, tryTrials_append]

/-- The two phases of CORR try the trials of the list in its order (45_correct.md R175). -/
theorem candidates_eq_tryTrials (s : State) (ds : List Digit) : candidates s ds = tryTrials s (corrTrials s ds) [] := by
  rw [candidates, substPhase, transPhase, forUpTo_eq_foldl, forUpTo_eq_foldl, foldl_transTurn, foldl_substPosition,
    corrTrials, tryTrials_append]

/-! ### Where a trial differs from the input -/

/-- The trial has another digit than the input at position `i`. -/
def Differs (ds trial : List Digit) (i : Nat) : Prop := trial.getD i 0#32 ≠ ds.getD i 0#32

theorem getD_set {ds : List Digit} {j : Nat} (hj : j < ds.length) (d : Digit) (i : Nat) :
    (ds.set j d).getD i 0#32 = if i = j then d else ds.getD i 0#32 := by
  rw [List.getD_eq_getElem?_getD, List.getElem?_set]
  by_cases hij : j = i
  · subst hij
    simp [hj]
  · rw [if_neg hij, if_neg (Ne.symm hij), List.getD_eq_getElem?_getD]

theorem differs_swapTrial {ds : List Digit} {j : Nat} (hj : j + 1 < ds.length)
    (hne : ds.getD j 0#32 ≠ ds.getD (j + 1) 0#32) (i : Nat) : Differs ds (swapTrial ds j) i ↔ i = j ∨ i = j + 1 := by
  rw [Differs, swapTrial_getD hj]
  split
  case isTrue h => subst h; simpa using hne.symm
  case isFalse h =>
    split
    case isTrue h' => subst h'; simpa using hne
    case isFalse h' => simp [h, h']

theorem differs_substTrial {ds : List Digit} {j : Nat} (hj : j < ds.length) {d : Digit} (hne : d ≠ ds.getD j 0#32)
    (i : Nat) : Differs ds (substTrial ds j d) i ↔ i = j := by
  rw [Differs, substTrial, getD_set hj]
  split
  case isTrue h => subst h; simpa using hne
  case isFalse h => simp [h]

/-- Two positions and their successors tell two exchanges apart, one position an exchange from a substitution. -/
theorem nodup_swapTrials {ds : List Digit} {m : Nat} (hlen : ds.length = m + 1) : (swapTrials ds (List.range m)).Nodup := by
  refine List.Nodup.map_on ?_ (List.nodup_range.filter _)
  intro i hi j hj heq
  simp only [List.mem_filter, List.mem_range, decide_eq_true_eq] at hi hj
  have hpos (n : Nat) : (n = i ∨ n = i + 1) ↔ (n = j ∨ n = j + 1) := by
    rw [← differs_swapTrial (by omega) hi.2, ← differs_swapTrial (by omega) hj.2, heq]
  have h1 := hpos i
  have h2 := hpos j
  omega

theorem nodup_substTrials {ds : List Digit} {j n : Nat} (hj : j < ds.length) (hn : n ≤ 2 ^ 32) :
    (substTrials ds j (List.range n)).Nodup := by
  refine List.Nodup.map_on ?_ (List.nodup_range.filter _)
  intro a ha b hb heq
  have hab := congrArg (fun t : List Digit => t.getD j 0#32) heq
  simp only [substTrial, getD_set hj, if_true] at hab
  have ha := List.mem_range.mp (List.mem_filter.mp ha).1
  have hb := List.mem_range.mp (List.mem_filter.mp hb).1
  have hval := congrArg BitVec.toNat hab
  rwa [BitVec.toNat_ofNat, BitVec.toNat_ofNat, Nat.mod_eq_of_lt (by omega), Nat.mod_eq_of_lt (by omega)] at hval

/-- No two trials of a CORR are the same sequence (47_laws.md R227). -/
theorem nodup_corrTrials {s : State} {ds : List Digit} (hlen : ds.length = s.m.toNat + 1) (hk : s.k.toNat ≤ 32) :
    (corrTrials s ds).Nodup := by
  have hpow : 2 ^ s.k.toNat ≤ 2 ^ 32 := Nat.pow_le_pow_right (by decide) hk
  refine List.Nodup.append (nodup_swapTrials hlen) (List.nodup_flatMap.mpr ⟨fun j hj => ?_, ?_⟩) ?_
  · exact nodup_substTrials (by rw [hlen]; exact List.mem_range.mp hj) hpow
  · refine List.nodup_range.imp_of_mem fun {i j} hi hj hij t hti htj => hij ?_
    obtain ⟨_, -, hdi, rfl⟩ := mem_substTrials.mp hti
    obtain ⟨_, -, hdj, heq⟩ := mem_substTrials.mp htj
    have hi : i < ds.length := by rw [hlen]; exact List.mem_range.mp hi
    have hj : j < ds.length := by rw [hlen]; exact List.mem_range.mp hj
    exact (differs_substTrial hj hdj i).mp (heq ▸ (differs_substTrial hi hdi i).mpr rfl)
  · intro t hswap hsubst
    obtain ⟨i, hi, hne, rfl⟩ := mem_swapTrials.mp hswap
    obtain ⟨j, hj, hsubst⟩ := List.mem_flatMap.mp hsubst
    obtain ⟨_, -, hd, heq⟩ := mem_substTrials.mp hsubst
    have hi : i + 1 < ds.length := by rw [hlen]; exact Nat.succ_lt_succ (List.mem_range.mp hi)
    have hj : j < ds.length := by rw [hlen]; exact List.mem_range.mp hj
    have hpos (n : Nat) : (n = i ∨ n = i + 1) ↔ n = j := by
      rw [← differs_swapTrial hi hne, ← differs_substTrial hj hd, heq]
    have h1 := (hpos i).mp (.inl rfl)
    have h2 := (hpos (i + 1)).mp (.inr rfl)
    omega

/-! ### Digit lists and their records -/

theorem AreDigits.getD {k : Nat} {ds : List Digit} (h : AreDigits k ds) (j : Nat) : (ds.getD j 0#32).toNat < 2 ^ k := by
  by_cases hj : j < ds.length
  · rw [List.getD_eq_getElem _ _ hj]
    exact h _ (List.getElem_mem hj)
  · rw [List.getD_eq_default _ _ (not_lt.mp hj)]
    exact Nat.two_pow_pos k

theorem AreDigits.set {k : Nat} {ds : List Digit} (h : AreDigits k ds) (j : Nat) {d : Digit} (hd : d.toNat < 2 ^ k) :
    AreDigits k (ds.set j d) := by
  intro e he
  rcases List.mem_or_eq_of_mem_set he with he | rfl
  · exact h e he
  · exact hd

theorem AreDigits.swapTrial {k : Nat} {ds : List Digit} (h : AreDigits k ds) (j : Nat) : AreDigits k (swapTrial ds j) :=
  (h.set j (h.getD (j + 1))).set (j + 1) (h.getD j)

theorem areDigits_of_mem_corrTrials {s : State} {ds trial : List Digit} (h : AreDigits s.k.toNat ds)
    (hmem : trial ∈ corrTrials s ds) : AreDigits s.k.toNat trial := by
  rcases List.mem_append.mp hmem with hmem | hmem
  · obtain ⟨j, -, -, rfl⟩ := mem_swapTrials.mp hmem
    exact h.swapTrial j
  · obtain ⟨j, -, hmem⟩ := List.mem_flatMap.mp hmem
    obtain ⟨d, hd, -, rfl⟩ := mem_substTrials.mp hmem
    exact h.set j (lt_of_le_of_lt (Nat.mod_le _ _) (List.mem_range.mp hd))

theorem length_of_mem_corrTrials {s : State} {ds trial : List Digit} (hmem : trial ∈ corrTrials s ds) :
    trial.length = ds.length := by
  rcases List.mem_append.mp hmem with hmem | hmem
  · obtain ⟨j, -, -, rfl⟩ := mem_swapTrials.mp hmem
    exact swapTrial_length ds j
  · obtain ⟨j, -, hmem⟩ := List.mem_flatMap.mp hmem
    obtain ⟨d, -, -, rfl⟩ := mem_substTrials.mp hmem
    exact substTrial_length ds j _

section

variable {s : State} (hi : s.Inv) (hr : s.ready = true)

include hi hr

theorem State.Inv.two_le_k : 2 ≤ s.k.toNat := by
  obtain ⟨hmask, -⟩ := hi.engine hr
  obtain ⟨hle, es, hes, -⟩ := buildMask_eq_some.mp hmask
  exact ((PolyTable.exists_lookup_iff (Params.polyTable_wf hi.paramsWf)).mp ⟨es, hes⟩).1

/-- The mask of an engine is a mask of its degree (40_maskgen.md R112). -/
theorem State.Inv.maskShape : MaskShape s.k.toNat s.mask := by
  obtain ⟨hmask, -⟩ := hi.engine hr
  obtain ⟨-, es, hes, hval⟩ := buildMask_eq_some.mp hmask
  rw [hval]
  exact maskShape_maskOfExponents (PolyTable.entryOk_of_lookup (Params.polyTable_wf hi.paramsWf) hes) (hi.k_le_thirtyTwo hr)

/-- The alphabet repeats no symbol, so a record determines its digits. -/
theorem recordOf_inj {t u : List Digit} (ht : AreDigits s.k.toNat t) (hu : AreDigits s.k.toNat u)
    (h : recordOf s t = recordOf s u) : t = u := by
  have hlookup := lookupFrom_of_spells hi hr ⟨ht, h⟩ 0
  exact Except.ok.inj (hlookup.symm.trans (lookupFrom_of_spells hi hr ⟨hu, rfl⟩ 0))

theorem nodup_map_recordOf_corrTrials {ds : List Digit} (hds : AreDigits s.k.toNat ds)
    (hlen : ds.length = s.m.toNat + 1) : ((corrTrials s ds).map (recordOf s)).Nodup :=
  List.Nodup.map_on (fun _ ht _ hu => recordOf_inj hi hr (areDigits_of_mem_corrTrials hds ht)
    (areDigits_of_mem_corrTrials hds hu)) (nodup_corrTrials hlen (hi.k_le_thirtyTwo hr))

/-! ### The verifying trials -/

/-- At every position exactly one digit makes the sequence verify (47_laws.md R226). -/
theorem exists_unique_repair {ds : List Digit} (hds : AreDigits s.k.toNat ds) {j : Nat} (hj : j < ds.length) :
    ∃ d : Digit, d.toNat < 2 ^ s.k.toNat ∧ engineFold s (ds.set j d) = 0#33 ∧
      ∀ d' : Digit, d'.toNat < 2 ^ s.k.toNat → engineFold s (ds.set j d') = 0#33 → d' = d := by
  have hk := hi.k_le_thirtyTwo hr
  have hbij := timesXPow_bijOn (hi.two_le_k hr) hk (hi.maskShape hr) (ds.length - j)
  obtain ⟨v, hv, hfold⟩ := hbij.surjOn (fold_lt s.k.toNat s.mask ds)
  have hv' : v.toNat < 2 ^ s.k.toNat := hv
  have hdj := hds.getD j
  have hiff (d : Digit) (hd : d.toNat < 2 ^ s.k.toNat) :
      engineFold s (ds.set j d) = 0#33 ↔ (ds.getD j 0#32 ^^^ d).setWidth 33 = v := by
    have hδ : ((ds.getD j 0#32 ^^^ d).setWidth 33).toNat < 2 ^ s.k.toNat := by
      rw [toNat_setWidth_digit]
      exact xor_lt hdj hd
    rw [engineFold, fold_set s.k.toNat s.mask hj, xor_eq_zero_iff, ← hfold, eq_comm]
    exact hbij.injOn.eq_iff hδ hv
  have hlow : (ds.getD j 0#32 ^^^ v.setWidth 32).toNat < 2 ^ s.k.toNat := xor_lt hdj (by rwa [toNat_setWidth_acc hk hv'])
  refine ⟨ds.getD j 0#32 ^^^ v.setWidth 32, hlow, (hiff _ hlow).mpr ?_, fun d' hd' h => ?_⟩
  · rw [← BitVec.xor_assoc, BitVec.xor_self, BitVec.zero_xor, setWidth_setWidth_acc hk hv']
  · rw [← (hiff d' hd').mp h, BitVec.setWidth_setWidth_of_le _ (by decide), BitVec.setWidth_eq, ← BitVec.xor_assoc,
      BitVec.xor_self, BitVec.zero_xor]

end

/-- A filter that lets one index through. -/
theorem filter_range_eq_singleton {n a : Nat} {p : Nat → Bool} (ha : a < n) (hp : ∀ b < n, p b = true ↔ b = a) :
    (List.range n).filter p = [a] := by
  have hcongr : (List.range n).filter p = (List.range n).filter (· == a) :=
    List.filter_congr fun b hb => by rw [Bool.eq_iff_iff, hp b (List.mem_range.mp hb), beq_iff_eq]
  rw [hcongr, List.filter_beq, List.count_eq_one_of_mem List.nodup_range (List.mem_range.mpr ha), List.replicate_one]

/-- Among the substitutions at one position the verifying one is that of the repairing digit (47_laws.md R226). -/
theorem filter_substTrials {s : State} {ds : List Digit} {j : Nat} {d : Digit} (hk : s.k.toNat ≤ 32)
    (hd : d.toNat < 2 ^ s.k.toNat) (hne : d ≠ ds.getD j 0#32) (hfold : engineFold s (ds.set j d) = 0#33)
    (huniq : ∀ d' : Digit, d'.toNat < 2 ^ s.k.toNat → engineFold s (ds.set j d') = 0#33 → d' = d) :
    (substTrials ds j (List.range (2 ^ s.k.toNat))).filter (fun trial => decide (engineFold s trial = 0#33)) =
      [ds.set j d] := by
  have hofNat : BitVec.ofNat 32 d.toNat = d := by rw [BitVec.ofNat_toNat, BitVec.setWidth_eq]
  rw [substTrials, List.filter_map, List.filter_filter, filter_range_eq_singleton hd, List.map_singleton, substTrial, hofNat]
  intro b hb
  have hb32 : b < 2 ^ 32 := hb.trans_le (Nat.pow_le_pow_right (by decide) hk)
  have hbval : (BitVec.ofNat 32 b).toNat = b := by rw [BitVec.toNat_ofNat, Nat.mod_eq_of_lt hb32]
  simp only [Function.comp_apply, Bool.and_eq_true, decide_eq_true_eq, substTrial]
  constructor
  · rintro ⟨hzero, -⟩
    rw [← huniq _ (by rwa [hbval]) hzero, hbval]
  · rintro rfl
    rw [hofNat]
    exact ⟨hfold, hne⟩

end Sys2Proof.Machine
end

section
/-! The single-error correction search: what CORR does in each of its cases (45_correct.md R175 to R180), what it leaves
(R185, 47_laws.md section 3), and that it finds a valid sequence damaged once (47_laws.md R225). -/

namespace Sys2Proof.Machine

/-! ### The cases of CORR -/

theorem exec_corr (s : State) : exec .corr s = execCorr s := rfl

/-- An error in the input sequence is the first that a CORR on an engine can raise (45_correct.md R175). -/
theorem exec_corr_of_raised {s : State} {e : ErrorCode} {info : Value} (hr : s.ready = true)
    (h : digits s (s.m.toNat + 1) = .error (.raised e info)) : exec .corr s = .next (raise e info s) := by
  rw [exec_corr, execCorr, if_pos hr, h]
  rfl

theorem exec_corr_of_fold_eq_zero {s : State} {ds : List Digit} (hr : s.ready = true)
    (h : digits s (s.m.toNat + 1) = .ok ds) (hfold : engineFold s ds = 0#33) :
    exec .corr s = .next (raise .alreadyValid 0#48 s) := by
  rw [exec_corr, execCorr, if_pos hr, h]
  exact if_pos hfold

theorem exec_corr_of_fold_ne_zero {s : State} {ds : List Digit} (hr : s.ready = true)
    (h : digits s (s.m.toNat + 1) = .ok ds) (hfold : engineFold s ds ≠ 0#33) :
    exec .corr s = storeCandidates s (candidates s ds) := by
  rw [exec_corr, execCorr, if_pos hr, h]
  exact if_neg hfold

/-- The buffer with a checked sequence has its digits for an input (42_checksum.md R142). -/
theorem digits_of_holdsChecked {s : State} {ds : List Digit} (hi : s.Inv) (h : HoldsChecked s ds) :
    digits s (s.m.toNat + 1) = .ok ds := by
  obtain ⟨hr, hsovf, hslen, hspells⟩ := h
  exact digits_of_spells hi hr (wrongLength_eq_false.mpr ⟨hsovf, hslen⟩) hspells

theorem HoldsChecked.isReady {s : State} {ds : List Digit} (h : HoldsChecked s ds) : s.ready = true := h.1

theorem HoldsChecked.areDigits {s : State} {ds : List Digit} (h : HoldsChecked s ds) : AreDigits s.k.toNat ds := by
  obtain ⟨-, -, -, hds, -⟩ := h
  exact hds

theorem HoldsChecked.recordOf_eq {s : State} {ds : List Digit} (h : HoldsChecked s ds) :
    recordOf s ds = seqSymbols s (s.m.toNat + 1) := by
  obtain ⟨-, -, -, -, hsymbols⟩ := h
  exact hsymbols

theorem HoldsChecked.length_eq {s : State} {ds : List Digit} (h : HoldsChecked s ds) : ds.length = s.m.toNat + 1 := by
  rw [← seqSymbols_length s (s.m.toNat + 1), ← h.recordOf_eq, recordOf, List.length_map]

/-- Settles O38: the clauses after READY are the outcomes of `digits`, and a fold that is zero already. -/
theorem corrChecksInOrder : Obligations.CorrChecksInOrder := by
  intro s hi
  refine ⟨decode_corr_word, exec_corr_of_not_ready, fun hr hwrong => ?length, fun hr hsovf hslen p hp hmiss hfirst => ?unknown,
    fun ds hchecked hfold => ?valid⟩
  case length => exact exec_corr_of_raised hr (digits_of_wrongLength ((wrongLength_iff s _).mpr hwrong))
  case unknown =>
    exact exec_corr_of_raised hr
      (digits_of_firstUnknown hi hr (wrongLength_eq_false.mpr ⟨hsovf, hslen⟩) hp hmiss hfirst)
  case valid => exact exec_corr_of_fold_eq_zero hchecked.isReady (digits_of_holdsChecked hi hchecked) hfold

/-! ### The records that CORR finds -/

/-- `f` gives every position the one digit whose substitution there verifies (47_laws.md R226). -/
def Repairs (s : State) (ds : List Digit) (f : Nat → Digit) : Prop :=
  ∀ j ≤ s.m.toNat, (f j).toNat < 2 ^ s.k.toNat ∧ f j ≠ ds.getD j 0#32 ∧ engineFold s (ds.set j (f j)) = 0#33 ∧
    ∀ d : Digit, d.toNat < 2 ^ s.k.toNat → engineFold s (ds.set j d) = 0#33 → d = f j

/-- The exchanges that verify, then the repairing substitutions, in ascending position (45_correct.md R180). -/
def verifyingTrials (s : State) (ds : List Digit) (f : Nat → Digit) : List (List Digit) :=
  (((List.range s.m.toNat).filter fun j =>
      decide (ds.getD j 0#32 ≠ ds.getD (j + 1) 0#32 ∧ engineFold s (swapTrial ds j) = 0#33)).map (swapTrial ds)) ++
    (List.range (s.m.toNat + 1)).map fun j => ds.set j (f j)

/-- The state that a successful CORR leaves (45_correct.md R175, R179). -/
def withCandidates (s : State) (found : List (List Sym)) : State :=
  respond ((BitVec.ofNat 18 found.length).setWidth 48)
    { s with
      cand := writeRecords s.params s.cand 0 found
      ncand := BitVec.ofNat 18 found.length
      cvalid := true }

/-- A sequence that does not verify is unchanged by the substitution of its own digit, so a repair is another digit. -/
theorem exists_repairs {s : State} {ds : List Digit} (hi : s.Inv) (hr : s.ready = true) (hds : AreDigits s.k.toNat ds)
    (hlen : ds.length = s.m.toNat + 1) (hfold : engineFold s ds ≠ 0#33) : ∃ f, Repairs s ds f := by
  have hrepair (j : Nat) : ∃ d : Digit, j ≤ s.m.toNat →
      d.toNat < 2 ^ s.k.toNat ∧ d ≠ ds.getD j 0#32 ∧ engineFold s (ds.set j d) = 0#33 ∧
        ∀ d' : Digit, d'.toNat < 2 ^ s.k.toNat → engineFold s (ds.set j d') = 0#33 → d' = d := by
    by_cases hj : j ≤ s.m.toNat
    · have hlt : j < ds.length := by omega
      obtain ⟨d, hd, hzero, huniq⟩ := exists_unique_repair hi hr hds hlt
      refine ⟨d, fun _ => ⟨hd, ?_, hzero, huniq⟩⟩
      rintro rfl
      rw [List.getD_eq_getElem _ _ hlt, List.set_getElem_self] at hzero
      exact hfold hzero
    · exact ⟨0#32, fun h => absurd h hj⟩
  choose f hf using hrepair
  exact ⟨f, hf⟩

section

variable {s : State} {ds : List Digit} {f : Nat → Digit}

theorem mem_verifyingTrials {trial : List Digit} :
    trial ∈ verifyingTrials s ds f ↔
      (∃ j < s.m.toNat, ds.getD j 0#32 ≠ ds.getD (j + 1) 0#32 ∧ engineFold s (swapTrial ds j) = 0#33 ∧
        swapTrial ds j = trial) ∨
      ∃ j ≤ s.m.toNat, ds.set j (f j) = trial := by
  simp only [verifyingTrials, List.mem_append, List.mem_map, List.mem_filter, List.mem_range, decide_eq_true_eq, and_assoc,
    Nat.lt_succ_iff]

/-- There is one repair for each of the M + 1 positions and at most one exchange for each of the M pairs
(45_correct.md R185). -/
theorem length_verifyingTrials :
    s.m.toNat + 1 ≤ (verifyingTrials s ds f).length ∧ (verifyingTrials s ds f).length ≤ 2 * s.m.toNat + 1 := by
  rw [verifyingTrials, List.length_append, List.length_map, List.length_map, List.length_range]
  have hle := (List.length_filter_le (fun j =>
    decide (ds.getD j 0#32 ≠ ds.getD (j + 1) 0#32 ∧ engineFold s (swapTrial ds j) = 0#33)) (List.range s.m.toNat))
  rw [List.length_range] at hle
  omega

theorem length_of_mem_verifyingTrials (hlen : ds.length = s.m.toNat + 1) {trial : List Digit}
    (h : trial ∈ verifyingTrials s ds f) : trial.length = s.m.toNat + 1 := by
  obtain ⟨j, -, -, -, rfl⟩ | ⟨j, -, rfl⟩ := mem_verifyingTrials.mp h
  · rw [swapTrial_length, hlen]
  · rw [List.length_set, hlen]

/-- Every record has the symbols of M + 1 positions (10_state.md R44). -/
theorem length_of_mem_map_recordOf (hlen : ds.length = s.m.toNat + 1) :
    ∀ r ∈ (verifyingTrials s ds f).map (recordOf s), r.length = s.m.toNat + 1 := by
  intro r hr
  obtain ⟨trial, hmem, rfl⟩ := List.mem_map.mp hr
  rw [recordOf, List.length_map, length_of_mem_verifyingTrials hlen hmem]

variable (hf : Repairs s ds f)

include hf

theorem engineFold_of_mem_verifyingTrials {trial : List Digit} (h : trial ∈ verifyingTrials s ds f) :
    engineFold s trial = 0#33 := by
  obtain ⟨j, -, -, hfold, rfl⟩ | ⟨j, hj, rfl⟩ := mem_verifyingTrials.mp h
  · exact hfold
  · obtain ⟨-, -, hfold, -⟩ := hf j hj
    exact hfold

theorem areDigits_of_mem_verifyingTrials (hds : AreDigits s.k.toNat ds) {trial : List Digit}
    (h : trial ∈ verifyingTrials s ds f) : AreDigits s.k.toNat trial := by
  obtain ⟨j, -, -, -, rfl⟩ | ⟨j, hj, rfl⟩ := mem_verifyingTrials.mp h
  · exact hds.swapTrial j
  · obtain ⟨hd, -⟩ := hf j hj
    exact hds.set j hd

theorem filter_corrTrials (hk : s.k.toNat ≤ 32) :
    (corrTrials s ds).filter (fun trial => decide (engineFold s trial = 0#33)) = verifyingTrials s ds f := by
  rw [corrTrials, List.filter_append, verifyingTrials]
  congr 1
  · rw [swapTrials, List.filter_map, List.filter_filter]
    congr 1
    refine List.filter_congr fun j _ => ?_
    rw [Function.comp_apply, Bool.decide_and, Bool.and_comm]
  · rw [substTrialsOver, List.filter_flatMap, ← List.flatMap_pure_eq_map]
    refine List.flatMap_congr fun j hj => ?_
    obtain ⟨hd, hne, hfold, huniq⟩ := hf j (Nat.lt_succ_iff.mp (List.mem_range.mp hj))
    exact filter_substTrials hk hd hne hfold huniq

/-- The candidates are the records of the trials that verify, in the order of the trials (45_correct.md R175, R180). -/
theorem candidates_eq_verifyingTrials (hi : s.Inv) (hr : s.ready = true) (hds : AreDigits s.k.toNat ds)
    (hlen : ds.length = s.m.toNat + 1) : candidates s ds = (verifyingTrials s ds f).map (recordOf s) := by
  have hnodup : ([] ++ (corrTrials s ds).map (recordOf s)).Nodup := nodup_map_recordOf_corrTrials hi hr hds hlen
  rw [candidates_eq_tryTrials, tryTrials_of_nodup hnodup, List.nil_append, filter_corrTrials hf (hi.k_le_thirtyTwo hr)]

theorem nodup_verifyingTrials (hlen : ds.length = s.m.toNat + 1) (hk : s.k.toNat ≤ 32) :
    (verifyingTrials s ds f).Nodup := by
  rw [← filter_corrTrials hf hk]
  exact (nodup_corrTrials hlen hk).filter _

end

/-! ### CAND after a CORR -/

/-- A CORR that succeeds stores the records of its verifying trials (45_correct.md R175, R179). -/
theorem exec_corr_of_repairs {s : State} {ds : List Digit} {f : Nat → Digit} (hi : s.Inv) (h : HoldsChecked s ds)
    (hfold : engineFold s ds ≠ 0#33) (hf : Repairs s ds f) :
    exec .corr s = .next (withCandidates s ((verifyingTrials s ds f).map (recordOf s))) := by
  have hm : s.m.toNat ≤ s.params.mmax := Nat.le_of_succ_le_succ (hi.m_succ_le_seqSize h.isReady)
  have hlen := (length_verifyingTrials (s := s) (ds := ds) (f := f)).2
  rw [exec_corr_of_fold_ne_zero h.isReady (digits_of_holdsChecked hi h) hfold,
    candidates_eq_verifyingTrials hf hi h.isReady h.areDigits h.length_eq]
  refine storeCandidates_next.mpr ⟨?_, rfl⟩
  rw [List.length_map, candRecords]
  omega

/-- NCAND holds every count of candidates (10_state.md R36). -/
theorem toNat_ncand_of_le {s : State} {n : Nat} (h : n ≤ 2 * s.m.toNat + 1) : (BitVec.ofNat 18 n).toNat = n := by
  have hm := s.m.isLt
  rw [BitVec.toNat_ofNat, Nat.mod_eq_of_lt (by omega)]

section

variable {s : State} {found : List (List Sym)} (hi : s.Inv) (hr : s.ready = true)

include hi hr

/-- Entry by entry, CAND reads the records stored, and elsewhere as before (45_correct.md R179). -/
theorem candEntry_withCandidates (hlen : ∀ r ∈ found, r.length = s.m.toNat + 1) {c e : Nat} (he : e ≤ s.params.mmax) :
    candEntry (withCandidates s found) c e =
      if c < found.length ∧ e ≤ s.m.toNat then (found.getD c []).getD e 0#32 else candEntry s c e := by
  have hread := read_writeRecords hi.candForm.1 0 found
    (fun r hmem => (hlen r hmem).trans_le (hi.m_succ_le_seqSize hr)) c e (Nat.lt_succ_of_le he)
  refine hread.trans ?_
  rw [Nat.zero_add, Nat.sub_zero]
  by_cases hc : c < found.length
  · have hrec : (found.getD c []).length = s.m.toNat + 1 := by
      rw [List.getD_eq_getElem _ _ hc]
      exact hlen _ (List.getElem_mem hc)
    rw [hrec]
    exact if_congr (by omega) rfl rfl
  · rw [if_neg (by omega), if_neg (by omega)]
    rfl

theorem candRecord_withCandidates (hlen : ∀ r ∈ found, r.length = s.m.toNat + 1) {c : Nat} (hc : c < found.length) :
    candRecord (withCandidates s found) c = found.getD c [] := by
  have hm : s.m.toNat ≤ s.params.mmax := Nat.le_of_succ_le_succ (hi.m_succ_le_seqSize hr)
  have hrec : (found.getD c []).length = s.m.toNat + 1 := by
    rw [List.getD_eq_getElem _ _ hc]
    exact hlen _ (List.getElem_mem hc)
  refine List.ext_getElem (by rw [hrec, candRecord, List.length_map, List.length_range]; rfl) fun e he he' => ?_
  have hle : e ≤ s.m.toNat := by omega
  simp only [candRecord, List.getElem_map, List.getElem_range]
  rw [candEntry_withCandidates hi hr hlen (hle.trans hm), if_pos ⟨hc, hle⟩, List.getD_eq_getElem _ _ he']

end

/-- A sequence over the alphabet verifies when its digits fold to zero (43_verify.md R161). -/
theorem verifies_recordOf {s : State} {ds : List Digit} (hi : s.Inv) (hr : s.ready = true) (hds : AreDigits s.k.toNat ds) :
    verifies s (recordOf s ds) = decide (engineFold s ds = 0#33) := by
  have hlookup : lookupFrom s 0 (recordOf s ds) = .ok ds := lookupFrom_of_spells hi hr ⟨hds, rfl⟩ 0
  rw [verifies, hlookup]
  rfl

theorem getD_map_recordOf (s : State) (trials : List (List Digit)) (c : Nat) :
    (trials.map (recordOf s)).getD c [] = recordOf s (trials.getD c []) :=
  List.getD_map trials [] (recordOf s)

/-- What is stored after a CORR that succeeds, seen through the trials: their number, and each one's symbols. -/
theorem candRecord_of_verifyingTrials {s : State} {ds : List Digit} {f : Nat → Digit} (hi : s.Inv) (h : HoldsChecked s ds)
    {c : Nat} (hc : c < (verifyingTrials s ds f).length) :
    candRecord (withCandidates s ((verifyingTrials s ds f).map (recordOf s))) c =
      recordOf s ((verifyingTrials s ds f).getD c []) := by
  rw [candRecord_withCandidates hi h.isReady (length_of_mem_map_recordOf h.length_eq) (by rwa [List.length_map]),
    getD_map_recordOf]

theorem toNat_ncand_withCandidates {s : State} {ds : List Digit} {f : Nat → Digit} :
    (withCandidates s ((verifyingTrials s ds f).map (recordOf s))).ncand.toNat = (verifyingTrials s ds f).length := by
  refine (toNat_ncand_of_le (s := s) ?_).trans (List.length_map _)
  rw [List.length_map]
  exact length_verifyingTrials.2

/-- Settles O39: the digits `f` repair one position each, and CAND holds the records of the verifying trials. -/
theorem corrStoresTheCandidatesInOrder : Obligations.CorrStoresTheCandidatesInOrder := by
  intro s ds hi h hfold
  have hr := h.isReady
  obtain ⟨f, hf⟩ := exists_repairs hi hr h.areDigits h.length_eq hfold
  refine ⟨_, f, verifyingTrials s ds f, exec_corr_of_repairs hi h hfold hf, hf, rfl, ?state,
    toNat_ncand_withCandidates, fun c hc => candRecord_of_verifyingTrials hi h hc, fun c e hc he => ?other⟩
  case state =>
    have hle := (length_verifyingTrials (s := s) (ds := ds) (f := f)).2
    have hm := s.m.isLt
    rw [withCandidates, List.length_map, BitVec.setWidth_ofNat_of_le_of_lt (by decide) (by omega)]
    rfl
  case other =>
    rw [candEntry_withCandidates hi hr (length_of_mem_map_recordOf h.length_eq) he, if_neg]
    rw [List.length_map]
    omega

/-! ### What a CORR leaves -/

/-- The look-up of the buffer's symbols is not changed by a CORR (45_correct.md R182). -/
theorem digits_withCandidates (s : State) (found : List (List Sym)) (n : Nat) :
    digits (withCandidates s found) n = digits s n := by
  unfold digits
  rw [lookupFrom_congr (s := withCandidates s found) (t := s) fun _ _ => rfl]
  rfl

/-- The records stored are those of the trials, so what holds of the trials holds of the records. -/
theorem exists_trial_of_lt_ncand {s : State} {ds : List Digit} {f : Nat → Digit} (hi : s.Inv) (h : HoldsChecked s ds)
    {c : Nat} (hc : c < (withCandidates s ((verifyingTrials s ds f).map (recordOf s))).ncand.toNat) :
    ∃ hlt : c < (verifyingTrials s ds f).length,
      candRecord (withCandidates s ((verifyingTrials s ds f).map (recordOf s))) c =
        recordOf s (verifyingTrials s ds f)[c] := by
  rw [toNat_ncand_withCandidates] at hc
  exact ⟨hc, by rw [candRecord_of_verifyingTrials hi h hc, List.getD_eq_getElem _ _ hc]⟩

/-- Different records have different symbols (47_laws.md R227). -/
theorem candRecord_ne_of_lt {s : State} {ds : List Digit} {f : Nat → Digit} (hi : s.Inv) (h : HoldsChecked s ds)
    (hf : Repairs s ds f) {c d : Nat}
    (hc : c < (withCandidates s ((verifyingTrials s ds f).map (recordOf s))).ncand.toNat) (hdc : d < c) :
    candRecord (withCandidates s ((verifyingTrials s ds f).map (recordOf s))) d ≠
      candRecord (withCandidates s ((verifyingTrials s ds f).map (recordOf s))) c := by
  obtain ⟨hltc, hrecc⟩ := exists_trial_of_lt_ncand hi h hc
  obtain ⟨hltd, hrecd⟩ := exists_trial_of_lt_ncand hi h (hdc.trans hc)
  have hdigits {i : Nat} (hlt : i < (verifyingTrials s ds f).length) : AreDigits s.k.toNat (verifyingTrials s ds f)[i] :=
    areDigits_of_mem_verifyingTrials hf h.areDigits (List.getElem_mem hlt)
  rw [hrecc, hrecd]
  intro heq
  have htrial := recordOf_inj hi h.isReady (hdigits hltd) (hdigits hltc) heq
  have hnodup := nodup_verifyingTrials hf h.length_eq (hi.k_le_thirtyTwo h.isReady)
  exact absurd ((hnodup.getElem_inj_iff).mp htrial) hdc.ne

/-- Every record is a sequence over the alphabet that folds to zero (47_laws.md R228). -/
theorem verifies_candRecord {s : State} {ds : List Digit} {f : Nat → Digit} (hi : s.Inv) (h : HoldsChecked s ds)
    (hf : Repairs s ds f) {c : Nat}
    (hc : c < (withCandidates s ((verifyingTrials s ds f).map (recordOf s))).ncand.toNat) :
    verifies s (candRecord (withCandidates s ((verifyingTrials s ds f).map (recordOf s))) c) = true := by
  obtain ⟨hlt, hrec⟩ := exists_trial_of_lt_ncand hi h hc
  have hmem := List.getElem_mem hlt
  rw [hrec, verifies_recordOf hi h.isReady (areDigits_of_mem_verifyingTrials hf h.areDigits hmem)]
  exact decide_eq_true (engineFold_of_mem_verifyingTrials hf hmem)

/-- Settles O40: the records are those of the verifying trials, and CORR writes nothing that VRFY reads. -/
theorem corrResultIsDistinctAndVerifies : Obligations.CorrResultIsDistinctAndVerifies := by
  intro s t ds hi h hfold hexec
  have hr := h.isReady
  obtain ⟨f, hf⟩ := exists_repairs hi hr h.areDigits h.length_eq hfold
  obtain rfl : withCandidates s ((verifyingTrials s ds f).map (recordOf s)) = t :=
    Host.Outcome.next.inj ((exec_corr_of_repairs hi h hfold hf).symm.trans hexec)
  refine ⟨rfl, ?lower, ?upper, fun c hc => ⟨?length, verifies_candRecord hi h hf hc, ?input,
    fun d hdc => candRecord_ne_of_lt hi h hf hc hdc⟩, rfl, rfl, rfl, rfl, rfl, rfl, ?vrfy⟩
  case lower => rw [toNat_ncand_withCandidates]; exact length_verifyingTrials.1
  case upper => rw [toNat_ncand_withCandidates]; exact length_verifyingTrials.2
  case length => rw [candRecord, List.length_map, List.length_range]; rfl
  case input =>
    intro heq
    have hverifies := verifies_candRecord hi h hf hc
    rw [heq, ← h.recordOf_eq, verifies_recordOf hi hr h.areDigits, decide_eq_true_eq] at hverifies
    exact hfold hverifies
  case vrfy =>
    refine ⟨_, exec_vrfy_of_digits hr ((digits_withCandidates s _ _).trans (digits_of_holdsChecked hi h)), ?_⟩
    have hfold' : engineFold (withCandidates s ((verifyingTrials s ds f).map (recordOf s))) ds ≠ 0#33 := hfold
    rw [if_neg hfold', ← responseWord_ok_zero]
    rfl

/-! ### A valid sequence damaged once (47_laws.md section 2) -/

theorem ext_getD {ds es : List Digit} (hlen : ds.length = es.length) (h : ∀ i, ds.getD i 0#32 = es.getD i 0#32) :
    ds = es := by
  refine List.ext_getElem hlen fun i hi hi' => ?_
  have hget := h i
  rwa [List.getD_eq_getElem _ _ hi, List.getD_eq_getElem _ _ hi'] at hget

/-- An exchange undoes itself. -/
theorem swapTrial_swapTrial {ds : List Digit} {j : Nat} (hj : j + 1 < ds.length) : swapTrial (swapTrial ds j) j = ds := by
  refine ext_getD (by rw [swapTrial_length, swapTrial_length]) fun i => ?_
  have hj' : j + 1 < (swapTrial ds j).length := by rwa [swapTrial_length]
  rw [swapTrial_getD hj', swapTrial_getD hj, swapTrial_getD hj, swapTrial_getD hj]
  split
  case isTrue h => simp [h]
  case isFalse h =>
    split
    case isTrue h' => simp [h']
    case isFalse h' => rfl

/-- The exchange of equal digits changes nothing. -/
theorem swapTrial_of_eq {ds : List Digit} {j : Nat} (hj : j + 1 < ds.length)
    (heq : ds.getD j 0#32 = ds.getD (j + 1) 0#32) : swapTrial ds j = ds := by
  refine ext_getD (swapTrial_length ds j) fun i => ?_
  rw [swapTrial_getD hj]
  split
  case isTrue h => rw [h, heq]
  case isFalse h =>
    split
    case isTrue h' => rw [h', heq]
    case isFalse h' => rfl

theorem set_set_getD {ds : List Digit} {j : Nat} (hj : j < ds.length) (d : Digit) :
    (ds.set j d).set j (ds.getD j 0#32) = ds := by
  rw [List.set_set, List.getD_eq_getElem _ _ hj, List.set_getElem_self]

section

variable {s : State} (hi : s.Inv) (hr : s.ready = true) {orig : List Digit} (horig : AreDigits s.k.toNat orig)
  (hfold : engineFold s orig = 0#33)

include hi hr horig hfold

/-- Only one digit at a position verifies, so another one there is detected (47_laws.md R222). -/
theorem engineFold_set_ne_zero {j : Nat} (hj : j < orig.length) {d : Digit} (hd : d.toNat < 2 ^ s.k.toNat)
    (hne : d ≠ orig.getD j 0#32) : engineFold s (orig.set j d) ≠ 0#33 := by
  obtain ⟨d', -, -, huniq⟩ := exists_unique_repair hi hr horig hj
  have hself : engineFold s (orig.set j (orig.getD j 0#32)) = 0#33 := by
    rwa [List.getD_eq_getElem _ _ hj, List.set_getElem_self]
  intro hzero
  exact hne ((huniq d hd hzero).trans (huniq _ (horig.getD j) hself).symm)

/-- An exchange of unequal digits moves the fold by x^n times (x + 1) times their XOR, which a mask of odd weight does not
lose (47_laws.md R223). -/
theorem engineFold_swapTrial_ne_zero (hodd : OddWeight s.mask) {j : Nat} (hj : j + 1 < orig.length)
    (hne : orig.getD j 0#32 ≠ orig.getD (j + 1) 0#32) : engineFold s (swapTrial orig j) ≠ 0#33 := by
  have h2 := hi.two_le_k hr
  have hk := hi.k_le_thirtyTwo hr
  have hm := hi.maskShape hr
  have hδ : ((orig.getD j 0#32 ^^^ orig.getD (j + 1) 0#32).setWidth 33).toNat < 2 ^ s.k.toNat := by
    rw [toNat_setWidth_digit]
    exact xor_lt (horig.getD j) (horig.getD (j + 1))
  have hfold : fold s.k.toNat s.mask orig = 0#33 := hfold
  rw [engineFold, fold_swapTrial s.k.toNat s.mask hj, hfold, BitVec.zero_xor, ne_eq,
    timesXPow_eq_zero_iff h2 hk hm _ (xor_lt (timesX_lt _ _ _) hδ), timesX_xor_self_eq_zero_iff h2 hk hm hodd hδ,
    setWidth_xor_digit, xor_eq_zero_iff]
  intro heq
  exact hne (BitVec.eq_of_toNat_eq (by simpa only [toNat_setWidth_digit] using congrArg BitVec.toNat heq))

end

/-- The repair at position `j` is the digit of any valid sequence that differs from the input there alone. -/
theorem mem_verifyingTrials_of_set {s : State} {ds : List Digit} {f : Nat → Digit} (hf : Repairs s ds f) {j : Nat}
    (hj : j ≤ s.m.toNat) {d : Digit} (hd : d.toNat < 2 ^ s.k.toNat) (hfold : engineFold s (ds.set j d) = 0#33) :
    ds.set j d ∈ verifyingTrials s ds f := by
  obtain ⟨-, -, -, huniq⟩ := hf j hj
  exact mem_verifyingTrials.mpr (.inr ⟨j, hj, by rw [huniq d hd hfold]⟩)

/-- A valid sequence damaged once does not verify, and it is itself a trial of the damaged one (47_laws.md R225). -/
theorem damaged_fold_ne_zero_and_original_mem {s : State} {orig ds : List Digit} (hi : s.Inv) (h : HoldsChecked s ds)
    (horig : AreDigits s.k.toNat orig) (hlen : orig.length = s.m.toNat + 1) (hfold : engineFold s orig = 0#33)
    (hne : ds ≠ orig)
    (hdamage : (∃ j ≤ s.m.toNat, ∃ d : Digit, ds = orig.set j d) ∨
      (OddWeight s.mask ∧ ∃ j < s.m.toNat, ds = swapTrial orig j)) :
    engineFold s ds ≠ 0#33 ∧ ∀ f, Repairs s ds f → orig ∈ verifyingTrials s ds f := by
  have hr := h.isReady
  rcases hdamage with ⟨j, hj, d, rfl⟩ | ⟨hodd, j, hj, rfl⟩
  · have hlt : j < orig.length := by omega
    have hback := set_set_getD hlt d
    have hd := h.areDigits.getD j
    rw [getD_set hlt, if_pos rfl] at hd
    refine ⟨engineFold_set_ne_zero hi hr horig hfold hlt hd ?_, fun f hf => ?_⟩
    · rintro rfl
      exact hne (by rw [List.getD_eq_getElem _ _ hlt, List.set_getElem_self])
    · have hmem := mem_verifyingTrials_of_set hf hj (horig.getD j) (by rwa [hback])
      rwa [hback] at hmem
  · have hlt : j + 1 < orig.length := by omega
    have hpair : orig.getD j 0#32 ≠ orig.getD (j + 1) 0#32 := fun heq => hne (swapTrial_of_eq hlt heq)
    have hback := swapTrial_swapTrial hlt
    refine ⟨engineFold_swapTrial_ne_zero hi hr horig hfold hodd hlt hpair, fun f _ => ?_⟩
    refine mem_verifyingTrials.mpr (.inl ⟨j, hj, ?_, by rwa [hback], hback⟩)
    rw [swapTrial_getD hlt, swapTrial_getD hlt]
    simpa using hpair.symm

/-- Settles O41: the original is a verifying trial of the damaged sequence, so its record is stored. -/
theorem correctionRecallsTheOriginal : Obligations.CorrectionRecallsTheOriginal := by
  intro s orig ds hi h horig hlen hfold hne hdamage
  obtain ⟨hdsfold, hmem⟩ := damaged_fold_ne_zero_and_original_mem hi h horig hlen hfold hne hdamage
  obtain ⟨f, hf⟩ := exists_repairs hi h.isReady h.areDigits h.length_eq hdsfold
  obtain ⟨c, hc, heq⟩ := List.getElem_of_mem (hmem f hf)
  refine ⟨_, exec_corr_of_repairs hi h hdsfold hf, rfl, c, ?_, ?_⟩
  · rwa [toNat_ncand_withCandidates]
  · rw [candRecord_of_verifyingTrials hi h hc, List.getD_eq_getElem _ _ hc, heq, recordOf]

/-- A VRFY of a checked sequence that does not fold to zero answers 0 (43_verify.md R160). -/
theorem exec_vrfy_false {s : State} {ds : List Digit} (hi : s.Inv) (h : HoldsChecked s ds) (hfold : engineFold s ds ≠ 0#33) :
    ∃ t, exec .vrfy s = .next t ∧ t.responses = s.responses ++ [0x0000000000000000#64] ∧ t.valid = false := by
  have hexec := exec_vrfy_of_holdsChecked hi h
  rw [if_neg hfold, decide_eq_false hfold] at hexec
  exact ⟨_, hexec, congrArg (s.responses ++ [·]) responseWord_ok_zero, rfl⟩

/-- Settles O53: a second digit at a position does not verify. -/
theorem singleSubstitutionIsDetected : Obligations.SingleSubstitutionIsDetected := by
  intro s orig j d hi horig hlen hfold hj hd hne h
  exact exec_vrfy_false hi h (engineFold_set_ne_zero hi h.isReady horig hfold (by omega) hd hne)

/-- Settles O54: an exchange of unequal digits does not verify. -/
theorem adjacentTranspositionIsDetected : Obligations.AdjacentTranspositionIsDetected := by
  intro s orig j hi hodd horig hlen hfold hj hne h
  exact exec_vrfy_false hi h (engineFold_swapTrial_ne_zero hi h.isReady horig hfold hodd (by omega) hne)

end Sys2Proof.Machine
end

section
/-! Everything a command can do, said once (10_state.md R20, the column "written by"): it raises, or it waits for random
words, or it writes what its row names and answers. What commands leave unchanged follows from this. -/

namespace Sys2Proof.Machine

/-! ### What a command writes before it answers -/

/-- `Effect s u i`: `u` is what the command `i` leaves of `s` when it succeeds, but for the response (10_state.md R20). -/
inductive Effect (s : State) : State → Instr → Prop
  | nop : Effect s s .nop
  | clra (hr : s.ready = false) : Effect s { s with alen := 0#33, aovf := false } .clra
  | ldaFull (sym : BitVec 32) (hr : s.ready = false) : Effect s { s with aovf := true } (.lda sym)
  | ldaRoom (sym : BitVec 32) (hr : s.ready = false) (hroom : s.alen.toNat < alphaSize s.params) :
      Effect s { s with alpha := s.alpha.write s.alen.toNat sym, alen := s.alen + 1#33 } (.lda sym)
  | init (k : BitVec 8) (m : BitVec 16) (mask : Acc) (hr : s.ready = false) (hk : buildMask s.params k.toNat = some mask)
      (hm : 1 ≤ m.toNat ∧ m.toNat ≤ s.params.mmax) (hsize : wrongAlphabetSize s k.toNat = false)
      (hdup : firstDuplicate s.alpha (2 ^ k.toNat) = none) : Effect s (startEngine k m mask s) (.init k m)
  | free : Effect s (endEngine s) .free
  | mkmask (k : BitVec 8) : Effect s s (.mkmask k)
  | clrs : Effect s { s with slen := 0#17, sovf := false } .clrs
  | ldsFull (sym : BitVec 32) : Effect s { s with sovf := true } (.lds sym)
  | ldsRoom (sym : BitVec 32) (hroom : s.slen.toNat < seqSize s.params) :
      Effect s { s with seq := s.seq.write s.slen.toNat sym, slen := s.slen + 1#17 } (.lds sym)
  | csum (ic : Bool) (ds : List Digit) (hr : s.ready = true) : Effect s (setResult (engineFold s ds) s) (.csum ic)
  | vrfy (ds : List Digit) (hr : s.ready = true) :
      Effect s { setResult (engineFold s ds) s with valid := zeroTest (engineFold s ds) } .vrfy
  | gen (hr : s.ready = true) (hw : s.m.toNat ≤ s.rand.length) :
      Effect s
        { setResult (engineFold s (drawnDigits s)) s with
          seq := s.seq.writeList 0 (generated s), slen := BitVec.ofNat 17 (s.m.toNat + 1), sovf := false,
          rand := s.rand.drop s.m.toNat, busy := false } .gen
  | corr (ds : List Digit) (hr : s.ready = true) (hds : digits s (s.m.toNat + 1) = .ok ds)
      (hfold : engineFold s ds ≠ 0#33) :
      Effect s
        { s with
          cand := writeRecords s.params s.cand 0 (candidates s ds)
          ncand := BitVec.ofNat 18 (candidates s ds).length
          cvalid := true } .corr
  | rdr (r : BitVec 32) : Effect s s (.rdr r)
  | rda (j : BitVec 32) : Effect s s (.rda j)
  | rds (p : BitVec 32) : Effect s s (.rds p)
  | rdc (c : BitVec 24) (p : BitVec 32) : Effect s s (.rdc c p)
  | clre : Effect s { s with lasterr := 0#8, esticky := 0#16, errinfo := 0#48 } .clre

/-- The three ways in which a command can leave a next state. -/
def Ends (i : Instr) (s t : State) : Prop :=
  (∃ e info, t = raise e info s) ∨ (∃ v u, Effect s u i ∧ t = respond v u) ∨
    (i = .gen ∧ s.ready = true ∧ s.rand.length < s.m.toNat ∧ t = { s with busy := true })

theorem Ends.of_raise {i : Instr} {s t : State} {e : ErrorCode} {info : Value}
    (h : .next (raise e info s) = (.next t : Result)) :
    Ends i s t := .inl ⟨e, info, (Host.Outcome.next.inj h).symm⟩

theorem Ends.of_respond {i : Instr} {s u t : State} {v : Value} (h : .next (respond v u) = (.next t : Result))
    (hu : Effect s u i) : Ends i s t := .inr (.inl ⟨v, u, hu, (Host.Outcome.next.inj h).symm⟩)

/-- A read answers without a write (20_memory.md R65). -/
theorem Ends.of_answerRead {i : Instr} {s t : State} {r : Except Fault Sym} (h : answerRead s r = .next t)
    (hi : Effect s s i) : Ends i s t := by
  obtain ⟨x, -, rfl⟩ := answerRead_next.mp h
  exact .inr (.inl ⟨_, s, hi, rfl⟩)

/-- A command that stops has raised (60_exceptions.md R253). -/
theorem Ends.of_stop {i : Instr} {s t : State} {e : Stop} (h : stopOutcome s e = .next t) : Ends i s t := by
  obtain ⟨c, info, -, rfl⟩ := stopOutcome_next.mp h
  exact .inl ⟨c, info, rfl⟩

theorem ends_lda {sym : Sym} {s t : State} (h : exec (.lda sym) s = .next t) : Ends (.lda sym) s t := by
  rw [exec_lda, execLda] at h
  split at h
  · exact .of_raise h
  · next hr =>
    have hr := Bool.eq_false_iff.mpr hr
    split at h
    · exact .of_respond h (.ldaFull sym hr)
    · split at h
      · cases h
      · next u hu =>
        obtain ⟨hlt, rfl⟩ := writeAlpha_ok.mp hu
        exact .of_respond h (.ldaRoom sym hr hlt)

theorem ends_init {k : BitVec 8} {m : BitVec 16} {s t : State} (h : exec (.init k m) s = .next t) :
    Ends (.init k m) s t := by
  rw [exec_init, execInit] at h
  split at h
  · exact .of_raise h
  · next hr =>
    split at h
    · exact .of_raise h
    · next mask hmask =>
      split at h
      · exact .of_raise h
      · next hm =>
        split at h
        · exact .of_raise h
        · next hsize =>
          split at h
          · exact .of_raise h
          · next hdup =>
            exact .of_respond h (.init k m mask (Bool.eq_false_iff.mpr hr) hmask (by omega)
              (Bool.eq_false_iff.mpr hsize) hdup)

theorem ends_mkmask {k : BitVec 8} {s t : State} (h : exec (.mkmask k) s = .next t) : Ends (.mkmask k) s t := by
  rw [exec_mkmask, execMkmask] at h
  split at h
  · exact .of_raise h
  · exact .of_respond h (.mkmask k)

theorem ends_lds {sym : Sym} {s t : State} (h : exec (.lds sym) s = .next t) : Ends (.lds sym) s t := by
  rw [exec_lds, execLds] at h
  split at h
  · exact .of_respond h (.ldsFull sym)
  · split at h
    · cases h
    · next u hu =>
      obtain ⟨hlt, rfl⟩ := writeSeq_ok.mp hu
      exact .of_respond h (.ldsRoom sym hlt)

theorem ends_csum {ic : Bool} {s t : State} (h : exec (.csum ic) s = .next t) : Ends (.csum ic) s t := by
  rw [exec_csum, execCsum] at h
  split at h
  · next hr =>
    split at h
    · exact .of_stop h
    · next ds hds => exact .of_respond h (.csum ic ds hr)
  · exact .of_raise h

theorem ends_vrfy {s t : State} (h : exec .vrfy s = .next t) : Ends .vrfy s t := by
  rw [exec_vrfy, execVrfy] at h
  split at h
  · next hr =>
    split at h
    · exact .of_stop h
    · next ds hds => exact .of_respond h (.vrfy ds hr)
  · exact .of_raise h

theorem ends_gen {s t : State} (h : exec .gen s = .next t) : Ends .gen s t := by
  rw [exec_gen, execGen] at h
  split at h
  · next hr =>
    split at h
    · next hw => exact .inr (.inr ⟨rfl, hr, hw, (Host.Outcome.next.inj h).symm⟩)
    · next hw =>
      split at h
      · cases h
      · split at h
        · cases h
        · exact .of_respond h (.gen hr (not_lt.mp hw))
  · exact .of_raise h

theorem ends_corr {s t : State} (h : exec .corr s = .next t) : Ends .corr s t := by
  rw [exec_corr, execCorr] at h
  split at h
  · next hr =>
    split at h
    · exact .of_stop h
    · next ds hds =>
      split at h
      · exact .of_raise h
      · next hfold =>
        obtain ⟨-, rfl⟩ := storeCandidates_next.mp h
        exact .inr (.inl ⟨_, _, .corr ds hr hds hfold, rfl⟩)
  · exact .of_raise h

theorem ends_rdr {r : BitVec 32} {s t : State} (h : exec (.rdr r) s = .next t) : Ends (.rdr r) s t := by
  rw [exec_rdr, execRdr] at h
  split at h
  · exact .of_respond h (.rdr r)
  · exact .of_raise h

/-- Every command that leaves a next state has raised, or has written what its row names and answered, or waits. -/
theorem ends_of_exec {i : Instr} {s t : State} (h : exec i s = .next t) : Ends i s t := by
  cases i with
  | nop => exact .of_respond h .nop
  | clra =>
    cases hr : s.ready with
    | true => exact .of_raise ((exec_clra_of_ready hr).symm.trans h)
    | false => exact .of_respond ((exec_clra_of_not_ready hr).symm.trans h) (.clra hr)
  | lda sym => exact ends_lda h
  | init k m => exact ends_init h
  | free => exact .of_respond h .free
  | mkmask k => exact ends_mkmask h
  | clrs => exact .of_respond h .clrs
  | lds sym => exact ends_lds h
  | csum ic => exact ends_csum h
  | vrfy => exact ends_vrfy h
  | gen => exact ends_gen h
  | corr => exact ends_corr h
  | rdr r => exact ends_rdr h
  | rda j =>
    change (if s.alen.toNat ≤ j.toNat then _ else _) = _ at h
    split at h
    · exact .of_raise h
    · exact .of_answerRead h (.rda j)
  | rds p =>
    change (if s.slen.toNat ≤ p.toNat then _ else _) = _ at h
    split at h
    · exact .of_raise h
    · exact .of_answerRead h (.rds p)
  | rdc c p =>
    change (if s.cvalid = false ∨ s.ncand.toNat ≤ c.toNat ∨ s.m.toNat < p.toNat then _ else _) = _ at h
    split at h
    · exact .of_raise h
    · exact .of_answerRead h (.rdc c p)
  | clre => exact .of_respond h .clre

/-! ### What an effect leaves unchanged -/

section

variable {i : Instr} {s u : State} (h : Effect s u i)

include h

/-- No command touches the parameters, the host's inputs or the responses given (10_state.md R52). -/
theorem Effect.ports : u.params = s.params ∧ u.host = s.host ∧ u.responses = s.responses := by
  cases h <;> exact ⟨rfl, rfl, rfl⟩

theorem Effect.engine (hi : i.mnemonic ∉ ["INIT", "FREE"]) :
    u.ready = s.ready ∧ u.k = s.k ∧ u.m = s.m ∧ u.mask = s.mask := by
  cases h with
  | init | free => simp [Instr.mnemonic] at hi
  | _ => exact ⟨rfl, rfl, rfl, rfl⟩

theorem Effect.stagingArea (hi : i.mnemonic ∉ ["LDA", "CLRA"]) : u.aovf = s.aovf ∧ u.alen = s.alen := by
  cases h with
  | ldaFull | ldaRoom | clra => simp [Instr.mnemonic] at hi
  | _ => exact ⟨rfl, rfl⟩

theorem Effect.alpha (hi : i.mnemonic ≠ "LDA") : u.alpha = s.alpha := by
  cases h with
  | ldaRoom => exact absurd rfl hi
  | _ => rfl

theorem Effect.sequenceLength (hi : i.mnemonic ∉ ["LDS", "CLRS", "GEN"]) : u.sovf = s.sovf ∧ u.slen = s.slen := by
  cases h with
  | ldsFull | ldsRoom | clrs | gen => simp [Instr.mnemonic] at hi
  | _ => exact ⟨rfl, rfl⟩

theorem Effect.seq (hi : i.mnemonic ∉ ["LDS", "GEN"]) : u.seq = s.seq := by
  cases h with
  | ldsRoom | gen => simp [Instr.mnemonic] at hi
  | _ => rfl

theorem Effect.valid (hi : i.mnemonic ∉ ["VRFY", "FREE"]) : u.valid = s.valid := by
  cases h with
  | vrfy | free => simp [Instr.mnemonic] at hi
  | _ => rfl

theorem Effect.candidateCount (hi : i.mnemonic ∉ ["CORR", "FREE"]) : u.cvalid = s.cvalid ∧ u.ncand = s.ncand := by
  cases h with
  | corr | free => simp [Instr.mnemonic] at hi
  | _ => exact ⟨rfl, rfl⟩

theorem Effect.cand (hi : i.mnemonic ≠ "CORR") : u.cand = s.cand := by
  cases h with
  | corr => exact absurd rfl hi
  | _ => rfl

theorem Effect.result (hi : i.mnemonic ∉ ["CSUM", "VRFY", "GEN", "FREE"]) : u.rdig = s.rdig ∧ u.rsym = s.rsym := by
  cases h with
  | csum | vrfy | gen | free => simp [Instr.mnemonic] at hi
  | _ => exact ⟨rfl, rfl⟩

/-- CLRE alone writes the error registers without a `raise` (46_access.md R205). -/
theorem Effect.errors (hi : i ≠ .clre) : u.lasterr = s.lasterr ∧ u.esticky = s.esticky ∧ u.errinfo = s.errinfo := by
  cases h with
  | clre => exact absurd rfl hi
  | _ => exact ⟨rfl, rfl, rfl⟩

/-- Only GEN takes random words (44_generate.md R166). -/
theorem Effect.randomWords (hi : i.mnemonic ≠ "GEN") : u.rand = s.rand ∧ u.busy = s.busy := by
  cases h with
  | gen => exact absurd rfl hi
  | _ => exact ⟨rfl, rfl⟩

/-- While an engine exists CLRA, LDA and INIT have no effect, so nothing but FREE changes it (41_construct.md R127). -/
theorem Effect.engine_of_ready (hr : s.ready = true) (hi : i ≠ .free) :
    u.ready = true ∧ u.k = s.k ∧ u.m = s.m ∧ u.mask = s.mask ∧ u.alen = s.alen ∧ u.alpha = s.alpha := by
  cases h with
  | clra hr' | ldaFull _ hr' | ldaRoom _ hr' | init _ _ _ hr' => cases hr.symm.trans hr'
  | free => exact absurd rfl hi
  | _ => exact ⟨hr, rfl, rfl, rfl, rfl, rfl⟩

/-- A read writes nothing (20_memory.md R65). -/
theorem Effect.of_read (hi : i.mnemonic ∈ ["RDR", "RDA", "RDS", "RDC"]) : u = s := by
  cases h with
  | rdr | rda | rds | rdc => rfl
  | _ => simp [Instr.mnemonic] at hi

end

/-! ### The answer of a command -/

/-- Settles O8: the three ways in which a command ends are the three of the statement. -/
theorem everyCommandAnswersOnceOrRaises : Obligations.EveryCommandAnswersOnceOrRaises := by
  intro i s t h
  obtain ⟨e, info, rfl⟩ | ⟨v, u, hu, rfl⟩ | ⟨hi, -, hw, ht⟩ := ends_of_exec h
  · exact .inr (.inl ⟨e, info, rfl, errorCode_ne_zero e⟩)
  · obtain ⟨-, -, hresp⟩ := hu.ports
    exact .inl ⟨v, congrArg (· ++ [responseWord 0#8 v]) hresp, fun hi => hu.errors hi⟩
  · exact .inr (.inr ⟨hi, hw, ht⟩)

/-- The bit of the error is set and none is cleared (10_state.md R38). -/
theorem raise_esticky_bits (e : ErrorCode) (info : Value) (s : State) :
    (∀ b, s.esticky.getLsbD b = true → (raise e info s).esticky.getLsbD b = true) ∧
      (raise e info s).esticky.getLsbD (errorCode e).toNat = true := by
  have hle := (errorCode_le_ten e).2
  rw [raise_esticky]
  refine ⟨fun b hb => by rw [BitVec.getLsbD_or, hb, Bool.true_or], ?_⟩
  rw [BitVec.getLsbD_or, ← BitVec.twoPow_eq, BitVec.getLsbD_twoPow]
  simp
  omega

/-- Settles O9: a success keeps the error registers, a `raise` writes all three, and a GEN that waits gives no response. -/
theorem estickyOnlyAccumulates : Obligations.EstickyOnlyAccumulates := by
  intro i s t h hi
  obtain ⟨e, info, rfl⟩ | ⟨v, u, hu, rfl⟩ | ⟨-, -, -, rfl⟩ := ends_of_exec h
  · obtain ⟨hkeep, hset⟩ := raise_esticky_bits e info s
    refine ⟨hkeep, fun v hans => ?_, fun c v _ hans => ?_⟩
    · exact absurd (append_responseWord_inj hans).1 (errorCode_ne_zero e)
    · obtain ⟨rfl, rfl⟩ := append_responseWord_inj hans
      exact ⟨rfl, rfl, hset⟩
  · obtain ⟨hlast, hsticky, -⟩ := hu.errors hi
    obtain ⟨-, -, hresp⟩ := hu.ports
    refine ⟨fun b hb => by rwa [respond_esticky, hsticky], fun _ _ => ⟨hlast, hsticky⟩, fun c w hc hans => ?_⟩
    rw [respond_responses, hresp] at hans
    exact absurd (append_responseWord_inj hans).1.symm hc
  · exact ⟨fun _ hb => hb, fun _ _ => ⟨rfl, rfl⟩,
      fun c v _ hans => absurd (List.self_eq_append_right.mp hans) (List.cons_ne_nil _ _)⟩

/-- Settles O59: a `raise` writes the error registers alone, a waiting GEN its own bit, and an effect what its row names. -/
theorem onlyTheNamedCommandsWrite : Obligations.OnlyTheNamedCommandsWrite := by
  intro i s t h
  obtain ⟨e, info, rfl⟩ | ⟨v, u, hu, rfl⟩ | ⟨rfl, -, -, rfl⟩ := ends_of_exec h
  · exact ⟨rfl, rfl, fun _ => ⟨rfl, rfl, rfl, rfl⟩, fun _ => ⟨rfl, rfl⟩, fun _ => ⟨rfl, rfl⟩, fun _ => rfl,
      fun _ => ⟨rfl, rfl⟩, fun _ => ⟨rfl, rfl⟩, fun _ => .inr ⟨e, info, rfl⟩, fun _ _ => rfl, fun _ _ => rfl,
      fun _ _ => rfl, fun _ => ⟨rfl, rfl⟩⟩
  · obtain ⟨hparams, hhost, -⟩ := hu.ports
    exact ⟨hparams, hhost, hu.engine, hu.stagingArea, hu.sequenceLength, hu.valid, hu.candidateCount, hu.result,
      fun hi => .inl (hu.errors (ne_of_apply_ne _ hi)), fun hi a => congrArg (Memory.read · a) (hu.alpha hi),
      fun hi a => congrArg (Memory.read · a) (hu.seq hi), fun hi a => congrArg (Memory.read · a) (hu.cand hi),
      hu.randomWords⟩
  · exact ⟨rfl, rfl, fun _ => ⟨rfl, rfl, rfl, rfl⟩, fun _ => ⟨rfl, rfl⟩, fun _ => ⟨rfl, rfl⟩, fun _ => rfl,
      fun _ => ⟨rfl, rfl⟩, fun _ => ⟨rfl, rfl⟩, fun _ => .inl ⟨rfl, rfl, rfl⟩, fun _ _ => rfl, fun _ _ => rfl,
      fun _ _ => rfl, fun hi => absurd rfl hi⟩

/-! ### The engine until FREE -/

/-- INDEX reads the alphabet and K alone (10_state.md R45). -/
theorem index_congr {s t : State} (halpha : t.alpha = s.alpha) (hk : t.k = s.k) (x : Sym) : index t x = index s x := by
  rw [index, index, halpha, hk]

theorem engine_of_exec_of_ready {i : Instr} {s t : State} (hr : s.ready = true) (hi : i ≠ .free) (h : exec i s = .next t) :
    t.ready = true ∧ t.k = s.k ∧ t.m = s.m ∧ t.mask = s.mask ∧ t.alen = s.alen ∧ t.alpha = s.alpha := by
  obtain ⟨e, info, rfl⟩ | ⟨v, u, hu, rfl⟩ | ⟨-, -, -, rfl⟩ := ends_of_exec h
  · exact ⟨hr, rfl, rfl, rfl, rfl, rfl⟩
  · exact hu.engine_of_ready hr hi
  · exact ⟨hr, rfl, rfl, rfl, rfl, rfl⟩

/-- A presented word that is not FREE leaves the engine alone, accepted or not (41_construct.md R127). -/
theorem engine_of_step_of_ready {s t : State} {w : Word64} {rest : List HostInput} (hr : s.ready = true)
    (hh : s.host = .command w :: rest) (hw : decode w ≠ .ok .free) (h : step s = .next t) :
    t.ready = true ∧ t.k = s.k ∧ t.m = s.m ∧ t.mask = s.mask ∧ t.alen = s.alen ∧ t.alpha = s.alpha := by
  cases hb : s.busy with
  | true =>
    have hgen : step s = exec .gen s := by simp [step, nextActivity, hh, hb]
    exact engine_of_exec_of_ready (i := .gen) hr nofun (hgen.symm.trans h)
  | false =>
    cases hd : decode w with
    | ok i =>
      have hfree : i ≠ .free := fun hi => hw (hi ▸ hd)
      exact engine_of_exec_of_ready (s := { s with host := rest }) hr hfree ((step_of_decode_ok hd hb hh).symm.trans h)
    | error e =>
      cases (step_of_decode_error hd hb hh).symm.trans h
      exact ⟨hr, rfl, rfl, rfl, rfl, rfl⟩

/-- Settles O21: with READY = 1 the three commands that build an engine are turned away, and no other effect reaches it. -/
theorem engineIsLockedUntilFree : Obligations.EngineIsLockedUntilFree := by
  refine ⟨fun s k m x hr => ?locked, fun s t i hr hi h => ?command,
    fun s t w rest hr hh hw h => engine_of_step_of_ready hr hh hw h⟩
  case locked =>
    simp only [List.forall_mem_cons]
    exact ⟨exec_clra_of_ready hr, exec_lda_of_ready hr, exec_init_of_ready hr, List.forall_mem_nil _⟩
  case command =>
    obtain ⟨hready, hk, hm, hmask, halen, halpha⟩ := engine_of_exec_of_ready hr hi h
    exact ⟨hready, hk, hm, hmask, halen, halpha, index_congr halpha hk⟩

/-! ### Reads (20_memory.md R65) -/

/-- An answer of status OK is not the answer of a `raise`. -/
theorem raise_ne_respond (e : ErrorCode) (info v : Value) (s : State) : raise e info s ≠ respond v s :=
  fun h => errorCode_ne_zero e (append_responseWord_inj (congrArg State.responses h)).1

theorem readReg_respond (w : Value) (s : State) (r : Nat) : readReg (respond w s) r = readReg s r := by
  rw [readReg_eq_getElem?, readReg_eq_getElem?]
  rfl

/-- A read that succeeds answers the same once more (20_memory.md R65). -/
theorem read_again {i : Instr} {s : State} {v : Value} (hi : i.mnemonic ∈ ["RDR", "RDA", "RDS", "RDC"])
    (h : exec i s = .next (respond v s)) (w : Value) : exec i (respond w s) = .next (respond v (respond w s)) := by
  have hraise (e : ErrorCode) (info : Value) : (.next (raise e info s) : Result) ≠ .next (respond v s) :=
    fun hne => raise_ne_respond e info v s (Host.Outcome.next.inj hne)
  have hanswer {r : Except Fault Sym} (hr : answerRead s r = .next (respond v s)) :
      answerRead (respond w s) r = .next (respond v (respond w s)) := by
    obtain ⟨x, rfl, hx⟩ := answerRead_next.mp hr
    have hv := (append_responseWord_inj (congrArg State.responses hx)).2
    rw [answerRead_ok, hv]
  cases i with
  | rdr r =>
    rw [exec_rdr, execRdr] at h ⊢
    rw [readReg_respond]
    split at h
    · have hv := (append_responseWord_inj (congrArg State.responses (Host.Outcome.next.inj h))).2
      rw [hv]
    · exact absurd h (hraise _ _)
  | rda j =>
    by_cases hj : s.alen.toNat ≤ j.toNat
    · exact absurd ((exec_rda_of_ge hj).symm.trans h) (hraise _ _)
    · exact (if_neg hj).trans (hanswer ((if_neg hj).symm.trans h))
  | rds p =>
    by_cases hp : s.slen.toNat ≤ p.toNat
    · exact absurd ((exec_rds_of_ge hp).symm.trans h) (hraise _ _)
    · exact (if_neg hp).trans (hanswer ((if_neg hp).symm.trans h))
  | rdc c p =>
    by_cases hc : s.cvalid = false ∨ s.ncand.toNat ≤ c.toNat ∨ s.m.toNat < p.toNat
    · exact absurd ((exec_rdc_of_unreadable hc).symm.trans h) (hraise _ _)
    · exact (if_neg hc).trans (hanswer ((if_neg hc).symm.trans h))
  | _ => simp [Instr.mnemonic] at hi

/-- Settles O51: a read has no effect but its response, and reads nothing that the response changes. -/
theorem readsAreIdempotent : Obligations.ReadsAreIdempotent := by
  intro i s t v hi h hans
  obtain ⟨e, info, rfl⟩ | ⟨w, u, hu, rfl⟩ | ⟨rfl, -⟩ := ends_of_exec h
  · exact absurd (append_responseWord_inj hans).1 (errorCode_ne_zero e)
  · obtain rfl := hu.of_read hi
    obtain ⟨-, rfl⟩ := append_responseWord_inj hans
    exact ⟨rfl, read_again hi h w⟩
  · simp [Instr.mnemonic] at hi

end Sys2Proof.Machine
end

section
/-! The invariant of the reachable states (10_state.md R50): the reset state meets it, every effect of a command keeps it,
and under it no access of a command leaves its memory (20_memory.md R63). -/

namespace Sys2Proof.Machine

/-! ### What the invariant reads -/

/-- Whether a sequence verifies depends on the alphabet, K and MASK alone (43_verify.md R161). -/
theorem verifies_congr {s t : State} (halpha : t.alpha = s.alpha) (hk : t.k = s.k) (hmask : t.mask = s.mask)
    (xs : List Sym) : verifies t xs = verifies s xs := by
  rw [verifies, verifies, lookupFrom_congr fun x _ => index_congr halpha hk x]
  simp only [engineFold, hk, hmask]

section

variable {s : State} (hi : s.Inv)

include hi

/-- Records that are left alone with their alphabet and mask still verify (10_state.md R50 e). -/
theorem State.Inv.candidatesVerify_of_eq {t : State} (halpha : t.alpha = s.alpha) (hk : t.k = s.k) (hmask : t.mask = s.mask)
    (hcvalid : t.cvalid = s.cvalid) (hncand : t.ncand = s.ncand) (hrec : ∀ c, candRecord t c = candRecord s c) :
    t.cvalid = true → ∀ c < t.ncand.toNat, verifies t (candRecord t c) = true := by
  intro hc c hlt
  rw [hcvalid] at hc
  rw [hncand] at hlt
  rw [hrec, verifies_congr halpha hk hmask]
  exact hi.candidatesVerify hc c hlt

/-- The invariant says nothing of the ports (10_state.md R52). -/
theorem State.Inv.withPorts (host : List HostInput) (rand : List (BitVec 32)) (responses : List Word64) :
    State.Inv { s with host := host, rand := rand, responses := responses } :=
  { hi with candidatesVerify := hi.candidatesVerify_of_eq rfl rfl rfl rfl rfl fun _ => rfl }

theorem State.Inv.respond (v : Value) : (respond v s).Inv := hi.withPorts s.host s.rand _

theorem State.Inv.withBusy {b : Bool} (hb : b = true → s.ready = true) : State.Inv { s with busy := b } :=
  { hi with
    candidatesVerify := hi.candidatesVerify_of_eq rfl rfl rfl rfl rfl fun _ => rfl
    waiting := hb }

/-! ### Errors -/

/-- A `raise` leaves a code from 1 to 10 in LASTERR, with its bit in ESTICKY (10_state.md R50 g). -/
theorem State.Inv.raise (e : ErrorCode) (info : Value) : (raise e info s).Inv := by
  obtain ⟨-, -, hzero, habove, -⟩ := hi.errors
  obtain ⟨hone, hten⟩ := errorCode_le_ten e
  have hbit (b : Nat) : (Machine.raise e info s).esticky.getLsbD b =
      (s.esticky.getLsbD b || decide ((errorCode e).toNat < 16 ∧ (errorCode e).toNat = b)) := by
    rw [raise_esticky, BitVec.getLsbD_or, ← BitVec.twoPow_eq, BitVec.getLsbD_twoPow, Bool.decide_and]
  exact { hi with
    candidatesVerify := hi.candidatesVerify_of_eq rfl rfl rfl rfl rfl fun _ => rfl
    errors := by
      refine ⟨hten, fun h => absurd h (errorCode_ne_zero e), ?_, fun b hb hten' => ?_,
        fun _ => (raise_esticky_bits e info s).2⟩
      · rw [hbit, hzero, Bool.false_or, decide_eq_false]
        omega
      · rw [hbit, habove b hb hten', Bool.false_or, decide_eq_false]
        omega }

theorem State.Inv.clearErrors : State.Inv { s with lasterr := 0#8, esticky := 0#16, errinfo := 0#48 } :=
  { hi with
    candidatesVerify := hi.candidatesVerify_of_eq rfl rfl rfl rfl rfl fun _ => rfl
    errors := ⟨Nat.zero_le _, fun _ => rfl, BitVec.getLsbD_zero, fun _ _ _ => BitVec.getLsbD_zero, fun h => absurd rfl h⟩ }

/-! ### The staging area and the engine (41_construct.md) -/

theorem State.Inv.cvalid_of_not_ready (hr : s.ready = false) : s.cvalid = false := by
  obtain ⟨-, -, -, -, hcvalid, -⟩ := hi.noEngine hr
  exact hcvalid

/-- Without an engine the staging area is bounded by its memory and nothing else (10_state.md R50 c). -/
theorem State.Inv.withStaging (hr : s.ready = false) {alpha : Memory} {alen : BitVec 33} {aovf : Bool}
    (hform : alpha.wf = true ∧ alpha.below (alphaSize s.params) = true) (hlen : alen.toNat ≤ alphaSize s.params) :
    State.Inv { s with alpha := alpha, alen := alen, aovf := aovf } :=
  have hnot {p : Prop} (h : s.ready = true) : p := nomatch hr.symm.trans h
  { hi with
    alphaForm := hform
    engine := fun h => hnot h
    distinct := fun h => hnot h
    lengths := ⟨hlen, hi.lengths.2⟩
    candidatesVerify := fun hc => nomatch (hi.cvalid_of_not_ready hr).symm.trans hc
    result := fun h => hnot h }

/-- The checks of INIT are what an engine needs (41_construct.md R122 to R124, 10_state.md R50 b). -/
theorem State.Inv.startEngine (hr : s.ready = false) {k : BitVec 8} {m : BitVec 16} {mask : Acc}
    (hk : buildMask s.params k.toNat = some mask) (hm : 1 ≤ m.toNat ∧ m.toNat ≤ s.params.mmax)
    (hsize : wrongAlphabetSize s k.toNat = false) (hdup : firstDuplicate s.alpha (2 ^ k.toNat) = none) :
    (startEngine k m mask s).Inv := by
  obtain ⟨-, -, -, -, hcvalid, -, hrdig, hrsym⟩ := hi.noEngine hr
  obtain ⟨haovf, halen⟩ := wrongAlphabetSize_eq_false.mp hsize
  have hsupported : supported s.params k.toNat = true := (isSome_buildMask _ _).symm.trans (Option.isSome_of_eq_some hk)
  have hk6 : (k.setWidth 6).toNat = k.toNat := toNat_setWidth_of_supported hi.paramsWf hsupported
  exact { hi with
    noEngine := nofun
    engine := fun _ => by
      rw [startEngine_k, hk6]
      exact ⟨hk, hm.1, hm.2, halen, haovf⟩
    distinct := fun _ => by
      rw [startEngine_k, hk6]
      exact firstDuplicate_eq_none.mp hdup
    candidateCount := fun hc => nomatch hcvalid.symm.trans hc
    candidatesVerify := fun hc => nomatch hcvalid.symm.trans hc
    candidatesDistinct := fun hc => nomatch hcvalid.symm.trans hc
    result := fun _ => ⟨by rw [startEngine_rdig, hrdig]; exact Nat.two_pow_pos _, .inl ⟨hrdig, hrsym⟩⟩
    waiting := fun _ => rfl }

/-- FREE leaves the state without an engine, and it does not run while a GEN waits (41_construct.md R125). -/
theorem State.Inv.endEngine (hb : s.busy = false) : (endEngine s).Inv :=
  { hi with
    noEngine := fun _ => ⟨rfl, rfl, rfl, rfl, rfl, rfl, rfl, rfl⟩
    engine := nofun
    distinct := nofun
    noCandidates := fun _ => rfl
    candidateCount := nofun
    candidatesVerify := nofun
    candidatesDistinct := nofun
    result := nofun
    waiting := fun h => nomatch hb.symm.trans h }

/-! ### The sequence buffer and the result registers (42_checksum.md, 43_verify.md) -/

theorem State.Inv.withSequence {seq : Memory} {slen : BitVec 17} {sovf : Bool}
    (hform : seq.wf = true ∧ seq.below (seqSize s.params) = true) (hlen : slen.toNat ≤ seqSize s.params) :
    State.Inv { s with seq := seq, slen := slen, sovf := sovf } :=
  { hi with
    seqForm := hform
    lengths := ⟨hi.lengths.1, hlen⟩
    candidatesVerify := hi.candidatesVerify_of_eq rfl rfl rfl rfl rfl fun _ => rfl }

/-- The result of a fold is a digit and its symbol (10_state.md R50 f). -/
theorem State.Inv.setResult (hr : s.ready = true) {acc : Acc} (hacc : acc.toNat < 2 ^ s.k.toNat) : (setResult acc s).Inv := by
  have hdig := toNat_setWidth_acc (hi.k_le_thirtyTwo hr) hacc
  exact { hi with
    noEngine := fun h => nomatch hr.symm.trans h
    candidatesVerify := hi.candidatesVerify_of_eq rfl rfl rfl rfl rfl fun _ => rfl
    result := fun _ => by
      refine ⟨by rwa [setResult_rdig, hdig], .inr ?_⟩
      rw [setResult_rsym, setResult_rdig, symbolOf, hdig]
      rfl }

theorem State.Inv.withValid (hr : s.ready = true) (v : Bool) : State.Inv { s with valid := v } :=
  { hi with
    noEngine := fun h => nomatch hr.symm.trans h
    candidatesVerify := hi.candidatesVerify_of_eq rfl rfl rfl rfl rfl fun _ => rfl }

/-! ### The candidates (45_correct.md) -/

/-- Digits that a look-up gives spell what was looked up. -/
theorem spells_of_lookupFrom (hr : s.ready = true) {p : Nat} {xs : List Sym} {ds : List Digit}
    (h : lookupFrom s p xs = .ok ds) : Spells s ds xs := by
  have hmap := lookupFrom_ok.mp h
  clear h
  induction xs generalizing ds with
  | nil =>
    obtain rfl : ds = [] := List.map_eq_nil_iff.mp hmap.symm
    exact ⟨fun _ hd => absurd hd List.not_mem_nil, rfl⟩
  | cons x xs ih =>
    cases ds with
    | nil => cases hmap
    | cons d ds =>
      obtain ⟨hx, hxs⟩ := List.cons_eq_cons.mp hmap
      obtain ⟨hd, rfl⟩ := (index_eq_some hi hr).mp hx
      obtain ⟨hds, rfl⟩ := ih hxs
      exact ⟨List.forall_mem_cons.mpr ⟨hd, hds⟩, rfl⟩

theorem holdsChecked_of_digits (hr : s.ready = true) {ds : List Digit} (h : digits s (s.m.toNat + 1) = .ok ds) :
    HoldsChecked s ds := by
  obtain ⟨hlen, -, -, hlookup⟩ := digits_ok.mp h
  obtain ⟨hsovf, hslen⟩ := wrongLength_eq_false.mp hlen
  exact ⟨hr, hsovf, hslen, spells_of_lookupFrom hi hr hlookup⟩

/-- What CORR stores are distinct verifying records, between M + 1 and 2·M + 1 of them (10_state.md R50 e). -/
theorem State.Inv.withCandidates {ds : List Digit} (h : HoldsChecked s ds) (hfold : engineFold s ds ≠ 0#33) :
    (withCandidates s (candidates s ds)).Inv := by
  have hr := h.isReady
  obtain ⟨f, hf⟩ := exists_repairs hi hr h.areDigits h.length_eq hfold
  rw [candidates_eq_verifyingTrials hf hi hr h.areDigits h.length_eq]
  have hcount := toNat_ncand_withCandidates (s := s) (ds := ds) (f := f)
  obtain ⟨hlow, hhigh⟩ := length_verifyingTrials (s := s) (ds := ds) (f := f)
  have hm : s.m.toNat ≤ s.params.mmax := Nat.le_of_succ_le_succ (hi.m_succ_le_seqSize hr)
  refine { hi with
    candForm := ⟨wf_writeRecords hi.candForm.1 _ _, below_writeRecords hi.candForm.2 _ _
      (fun r hmem => (length_of_mem_map_recordOf h.length_eq r hmem).trans_le (hi.m_succ_le_seqSize hr)) ?fits⟩
    noEngine := fun h => nomatch hr.symm.trans h
    noCandidates := nofun
    candidateCount := fun _ => ⟨hr, by rwa [hcount], by rwa [hcount]⟩
    candidatesVerify := fun _ c hc =>
      (verifies_congr (s := s) (t := Machine.withCandidates s _) rfl rfl rfl _).trans (verifies_candRecord hi h hf hc)
    candidatesDistinct := fun _ c hc d hdc => candRecord_ne_of_lt hi h hf hc hdc }
  rw [List.length_map, candRecords]
  omega

end

/-! ### Every step keeps the invariant -/

/-- Whatever a command writes, the invariant holds of it; a FREE does not run while a GEN waits. -/
theorem State.Inv.effect {i : Instr} {s u : State} (hi : s.Inv) (h : Effect s u i) (hb : i = .free → s.busy = false) :
    u.Inv := by
  obtain ⟨halen, hslen⟩ := hi.lengths
  cases h with
  | nop | mkmask | rdr | rda | rds | rdc => exact hi
  | clra hr => exact hi.withStaging hr hi.alphaForm (Nat.zero_le _)
  | ldaFull _ hr => exact hi.withStaging hr hi.alphaForm halen
  | ldaRoom sym hr hroom =>
    refine hi.withStaging hr ⟨Memory.wf_write hi.alphaForm.1 _ _, Memory.below_write hi.alphaForm.2 hroom sym⟩ ?_
    rwa [toNat_alen_succ hi.paramsWf hroom]
  | init k m mask hr hk hm hsize hdup => exact hi.startEngine hr hk hm hsize hdup
  | free => exact hi.endEngine (hb rfl)
  | clrs => exact hi.withSequence hi.seqForm (Nat.zero_le _)
  | ldsFull => exact hi.withSequence hi.seqForm hslen
  | ldsRoom sym hroom =>
    refine hi.withSequence ⟨Memory.wf_write hi.seqForm.1 _ _, Memory.below_write hi.seqForm.2 hroom sym⟩ ?_
    rwa [toNat_slen_succ hi.paramsWf hroom]
  | csum ic ds hr => exact hi.setResult hr (fold_lt _ _ _)
  | vrfy ds hr => exact (hi.setResult hr (fold_lt _ _ _)).withValid hr _
  | gen hr hw =>
    have hfits : 0 + (generated s).length ≤ seqSize s.params := by
      rw [Nat.zero_add, length_generated hw]
      exact hi.m_succ_le_seqSize hr
    have hslen : (BitVec.ofNat 17 (s.m.toNat + 1)).toNat ≤ seqSize s.params :=
      (Nat.mod_le _ _).trans (hi.m_succ_le_seqSize hr)
    exact (((hi.setResult hr (fold_lt _ _ _)).withSequence
      ⟨Memory.wf_writeList hi.seqForm.1 _ _, Memory.below_writeList hi.seqForm.2 hfits⟩ hslen).withPorts _ _ _).withBusy nofun
  | corr ds hr hds hfold =>
    exact (hi.withCandidates (holdsChecked_of_digits hi hr hds) hfold).withPorts s.host s.rand s.responses
  | clre => exact hi.clearErrors

theorem State.Inv.exec {i : Instr} {s t : State} (hi : s.Inv) (hb : i = .free → s.busy = false)
    (h : exec i s = .next t) : t.Inv := by
  obtain ⟨e, info, rfl⟩ | ⟨v, u, hu, rfl⟩ | ⟨-, hr, -, rfl⟩ := ends_of_exec h
  · exact hi.raise e info
  · exact (hi.effect hu hb).respond v
  · exact hi.withBusy fun _ => hr

/-- The reset state, whatever the parameters: nothing is readable and no engine exists (10_state.md R51). -/
theorem inv_resetOf {p : Params} (hp : p.wf = true) : (State.resetOf p).Inv where
  paramsWf := hp
  alphaForm := ⟨rfl, rfl⟩
  seqForm := ⟨rfl, rfl⟩
  candForm := ⟨rfl, rfl⟩
  noEngine _ := ⟨rfl, rfl, rfl, rfl, rfl, rfl, rfl, rfl⟩
  engine := nofun
  distinct := nofun
  lengths := ⟨Nat.zero_le _, Nat.zero_le _⟩
  noCandidates _ := rfl
  candidateCount := nofun
  candidatesVerify := nofun
  candidatesDistinct := nofun
  result := nofun
  errors := ⟨Nat.zero_le _, fun _ => rfl, BitVec.getLsbD_zero, fun _ _ _ => BitVec.getLsbD_zero, fun h => absurd rfl h⟩
  waiting := nofun

theorem defaultParams_wf : defaultParams.wf = true := by decide

/-- Settles O56: the default parameters are well formed, and the reset state of all such parameters meets the invariant. -/
theorem resetMeetsTheInvariant : Obligations.ResetMeetsTheInvariant :=
  ⟨fun _ => inv_resetOf, inv_resetOf defaultParams_wf⟩

theorem State.Inv.hardReset {s : State} (hi : s.Inv) (rand : List (BitVec 32)) : (hardReset s rand).Inv :=
  (inv_resetOf hi.paramsWf).withPorts s.host rand s.responses

/-- Settles O55: a step is nothing, a command, a `raise` or a reset, and each keeps the invariant. -/
theorem everyStepKeepsTheInvariant : Obligations.EveryStepKeepsTheInvariant := by
  intro s t hi h
  obtain ⟨-, -, hstep⟩ | ⟨-, -, hstep⟩ | ⟨w, rest, hb, -, ⟨i, -, hstep⟩ | ⟨e, -, hstep⟩⟩ | ⟨ws, rest, -, -, hstep⟩ :=
    step_cases s
  all_goals rw [hstep] at h
  · exact Host.Outcome.next.inj h ▸ hi
  · exact hi.exec (i := .gen) nofun h
  · exact (hi.withPorts rest s.rand s.responses).exec (fun _ => hb) h
  · exact Host.Outcome.next.inj h ▸ (hi.withPorts rest s.rand s.responses).raise _ _
  · exact Host.Outcome.next.inj h ▸ (hi.withPorts rest s.rand s.responses).hardReset ws

/-! ### No step faults -/

section

variable {s : State} (hi : s.Inv)

include hi

/-- On an engine the input sequence is read whole or raises an error; no access leaves a memory (20_memory.md R63). -/
theorem digits_ok_or_raised (hr : s.ready = true) (n : Nat) :
    (∃ ds, digits s n = .ok ds) ∨ ∃ e info, digits s n = .error (.raised e info) := by
  cases hlen : wrongLength s n with
  | true => exact .inr ⟨_, _, digits_of_wrongLength hlen⟩
  | false =>
    rw [digits_eq_lookupFrom hi hr hlen]
    cases h : lookupFrom s 0 (seqSymbols s n) with
    | ok ds => exact .inl ⟨ds, rfl⟩
    | error e =>
      obtain ⟨q, -, rfl, -⟩ := lookupFrom_error.mp h
      exact .inr ⟨_, _, rfl⟩

theorem exists_exec_lda (sym : Sym) : ∃ t, exec (.lda sym) s = .next t := by
  cases hr : s.ready with
  | true => exact ⟨_, exec_lda_of_ready hr⟩
  | false =>
    rcases hi.lengths.1.eq_or_lt with hfull | hroom
    · exact ⟨_, exec_lda_of_full hr hfull⟩
    · exact ⟨_, exec_lda_of_room hr hroom⟩

theorem exists_exec_lds (sym : Sym) : ∃ t, exec (.lds sym) s = .next t := by
  rcases hi.lengths.2.eq_or_lt with hfull | hroom
  · exact ⟨_, exec_lds_of_full hfull⟩
  · exact ⟨_, exec_lds_of_room hroom⟩

omit hi in
theorem exists_exec_init (k : BitVec 8) (m : BitVec 16) : ∃ t, exec (.init k m) s = .next t := by
  rw [exec_init, execInit]
  split
  · exact ⟨_, rfl⟩
  · split
    · exact ⟨_, rfl⟩
    · split
      · exact ⟨_, rfl⟩
      · split
        · exact ⟨_, rfl⟩
        · split <;> exact ⟨_, rfl⟩

theorem exists_exec_csum (ic : Bool) : ∃ t, exec (.csum ic) s = .next t := by
  cases hr : s.ready with
  | false => exact ⟨_, exec_csum_of_not_ready hr⟩
  | true =>
    obtain ⟨ds, hds⟩ | ⟨e, info, hds⟩ := digits_ok_or_raised hi hr (s.m.toNat + ic.toNat)
    · exact ⟨_, exec_csum_of_digits hr hds⟩
    · exact ⟨_, exec_csum_of_raised hr hds⟩

theorem exists_exec_vrfy : ∃ t, exec .vrfy s = .next t := by
  cases hr : s.ready with
  | false => exact ⟨_, exec_vrfy_of_not_ready hr⟩
  | true =>
    obtain ⟨ds, hds⟩ | ⟨e, info, hds⟩ := digits_ok_or_raised hi hr (s.m.toNat + 1)
    · exact ⟨_, exec_vrfy_of_digits hr hds⟩
    · exact ⟨_, exec_vrfy_of_raised hr hds⟩

theorem exists_exec_gen : ∃ t, exec .gen s = .next t := by
  cases hr : s.ready with
  | false => exact ⟨_, exec_gen_of_not_ready hr⟩
  | true =>
    rcases Nat.lt_or_ge s.rand.length s.m.toNat with hw | hw
    · exact ⟨_, by rw [exec_gen, execGen, if_pos hr, if_pos hw]⟩
    · exact ⟨_, exec_gen_of_words hi hr hw⟩

/-- CAND has room for every candidate, since there are at most 2·M + 1 of them (45_correct.md R185). -/
theorem exists_exec_corr : ∃ t, exec .corr s = .next t := by
  cases hr : s.ready with
  | false => exact ⟨_, exec_corr_of_not_ready hr⟩
  | true =>
    obtain ⟨ds, hds⟩ | ⟨e, info, hds⟩ := digits_ok_or_raised hi hr (s.m.toNat + 1)
    · by_cases hfold : engineFold s ds = 0#33
      · exact ⟨_, exec_corr_of_fold_eq_zero hr hds hfold⟩
      · have h := holdsChecked_of_digits hi hr hds
        obtain ⟨f, hf⟩ := exists_repairs hi hr h.areDigits h.length_eq hfold
        exact ⟨_, exec_corr_of_repairs hi h hfold hf⟩
    · exact ⟨_, exec_corr_of_raised hr hds⟩

/-- Under the invariant every command leaves a next state (60_exceptions.md R240). -/
theorem exists_exec (i : Instr) : ∃ t, exec i s = .next t := by
  cases i with
  | nop => exact ⟨_, exec_nop s⟩
  | clra =>
    cases hr : s.ready with
    | true => exact ⟨_, exec_clra_of_ready hr⟩
    | false => exact ⟨_, exec_clra_of_not_ready hr⟩
  | lda sym => exact exists_exec_lda hi sym
  | init k m => exact exists_exec_init k m
  | free => exact ⟨_, exec_free s⟩
  | mkmask k =>
    cases h : buildMask s.params k.toNat with
    | none => exact ⟨_, exec_mkmask_of_buildMask_none h⟩
    | some mask => exact ⟨_, exec_mkmask_of_buildMask_some h⟩
  | clrs => exact ⟨_, exec_clrs s⟩
  | lds sym => exact exists_exec_lds hi sym
  | csum ic => exact exists_exec_csum hi ic
  | vrfy => exact exists_exec_vrfy hi
  | gen => exact exists_exec_gen hi
  | corr => exact exists_exec_corr hi
  | rdr r =>
    cases h : readReg s r.toNat with
    | some v => exact ⟨_, exec_rdr_of_readReg h⟩
    | none => exact ⟨_, exec_rdr_of_gt ((readReg_eq_none s _).mp h)⟩
  | rda j =>
    rcases Nat.lt_or_ge j.toNat s.alen.toNat with hj | hj
    · exact ⟨_, exec_rda_of_lt hi hj⟩
    · exact ⟨_, exec_rda_of_ge hj⟩
  | rds p =>
    rcases Nat.lt_or_ge p.toNat s.slen.toNat with hp | hp
    · exact ⟨_, exec_rds_of_lt hi hp⟩
    · exact ⟨_, exec_rds_of_ge hp⟩
  | rdc c p =>
    by_cases h : s.cvalid = false ∨ s.ncand.toNat ≤ c.toNat ∨ s.m.toNat < p.toNat
    · exact ⟨_, exec_rdc_of_unreadable h⟩
    · obtain ⟨hvalid, hc, hp⟩ : s.cvalid = true ∧ c.toNat < s.ncand.toNat ∧ p.toNat ≤ s.m.toNat := by
        simpa only [not_or, Bool.not_eq_false, not_le, not_lt] using h
      exact ⟨_, exec_rdc_of_readable hi hvalid hc hp⟩
  | clre => exact ⟨_, exec_clre s⟩

end

/-- Settles O57: every step is a next state, or a command on a state of the invariant. -/
theorem noStepFaultsUnderTheInvariant : Obligations.NoStepFaultsUnderTheInvariant := by
  intro s hi
  obtain ⟨-, -, h⟩ | ⟨-, -, h⟩ | ⟨w, rest, -, -, ⟨i, -, h⟩ | ⟨e, -, h⟩⟩ | ⟨ws, rest, -, -, h⟩ := step_cases s
  · exact ⟨_, h⟩
  · exact h ▸ exists_exec hi .gen
  · exact h ▸ exists_exec (hi.withPorts rest s.rand s.responses) i
  · exact ⟨_, h⟩
  · exact ⟨_, h⟩

/-! ### The soft reset (70_reset_and_hazards.md R270) -/

/-- What FREE; CLRA; CLRS; CLRE leaves: the constants apart, every readable register is 0. -/
def softReset (s : State) : State :=
  respond 0#48 { respond 0#48 { respond 0#48 { respond 0#48 (endEngine s) with alen := 0#33, aovf := false } with
    slen := 0#17, sovf := false } with lasterr := 0#8, esticky := 0#16, errinfo := 0#48 }

theorem runOk_softReset (s : State) : runOk [.free, .clra, .clrs, .clre] s = some (softReset s) := rfl

theorem regFile_softReset (s : State) :
    regFile (softReset s) = idReg :: (caps s.params).setWidth 48 :: List.replicate 12 0#48 := by
  have hstatus : status (softReset s) = 0#5 := BitVec.eq_of_toNat_eq (toNat_status _)
  rw [regFile, hstatus]
  rfl

/-- Settles O12: the four commands leave `softReset`, whose register file is zero above the constants. -/
theorem softResetZeroesEveryReadableRegister : Obligations.SoftResetZeroesEveryReadableRegister := by
  intro s
  refine ⟨softReset s, runOk_softReset s, fun r hlo hhi => ?_⟩
  obtain ⟨n, rfl⟩ := Nat.exists_eq_add_of_le' hlo
  have hn : n < 12 := by omega
  rw [readReg_eq_getElem?, regFile_softReset, List.getElem?_cons_succ, List.getElem?_cons_succ,
    List.getElem?_replicate_of_lt hn]

end Sys2Proof.Machine
end

section
/-! The small-step CORR (45_correct.md R181): between CHECK and IDLE it works through the list of trials, one at most per
step, so what stands in it at any point is told by the trials behind it and those ahead. -/

namespace Sys2Proof.Machine

/-! ### The trials ahead -/

/-- The trials that a search of the input `ds` still has ahead at a stage of its iterator (10_state.md R48). -/
def trialsAhead (s : State) (ds : List Digit) : Phase → Nat → Nat → List (List Digit)
  | .trans, j, _ => swapTrials ds (List.range' j (s.m.toNat - j)) ++ substTrialsOver s ds (List.range (s.m.toNat + 1))
  | .subst, j, sub =>
    if j ≤ s.m.toNat then
      substTrials ds j (List.range' sub (2 ^ s.k.toNat - sub)) ++ substTrialsOver s ds (List.range' (j + 1) (s.m.toNat - j))
    else []
  | .idle, _, _ => []
  | .check, _, _ => []
  | .done, _, _ => []

theorem range'_sub_of_lt {i n : Nat} (h : i < n) : List.range' i (n - i) = i :: List.range' (i + 1) (n - (i + 1)) := by
  rw [show n - i = n - (i + 1) + 1 by omega, List.range'_succ]

theorem trialsAhead_trans_zero (s : State) (ds : List Digit) (sub : Nat) : trialsAhead s ds .trans 0 sub = corrTrials s ds := by
  rw [trialsAhead, corrTrials, Nat.sub_zero, ← List.range_eq_range']

section

variable {s : State} {ds : List Digit} {j sub : Nat}

theorem trialsAhead_trans_of_lt (h : j < s.m.toNat) :
    trialsAhead s ds .trans j sub =
      if ds.getD j 0#32 ≠ ds.getD (j + 1) 0#32 then swapTrial ds j :: trialsAhead s ds .trans (j + 1) sub
      else trialsAhead s ds .trans (j + 1) sub := by
  rw [trialsAhead, trialsAhead, range'_sub_of_lt h, swapTrials_cons]
  split <;> rfl

/-- All trials at a position, then those at the positions after it. -/
theorem trialsAhead_subst_zero (h : j ≤ s.m.toNat + 1) :
    trialsAhead s ds .subst j 0 = substTrialsOver s ds (List.range' j (s.m.toNat + 1 - j)) := by
  rw [trialsAhead]
  split
  case isTrue hle =>
    rw [range'_sub_of_lt (Nat.lt_add_one_of_le hle), Nat.add_sub_add_right, Nat.sub_zero, ← List.range_eq_range']
    rfl
  case isFalse hgt =>
    rw [show s.m.toNat + 1 - j = 0 by omega]
    rfl

theorem trialsAhead_trans_end : trialsAhead s ds .trans s.m.toNat sub = trialsAhead s ds .subst 0 0 := by
  rw [trialsAhead_subst_zero (Nat.zero_le _), trialsAhead, Nat.sub_self, Nat.sub_zero, ← List.range_eq_range']
  rfl

theorem trialsAhead_subst_end (h : j ≤ s.m.toNat) :
    trialsAhead s ds .subst j (2 ^ s.k.toNat) = trialsAhead s ds .subst (j + 1) 0 := by
  rw [trialsAhead_subst_zero (by omega), trialsAhead, if_pos h, Nat.sub_self, Nat.add_sub_add_right]
  rfl

theorem trialsAhead_subst_of_lt (h : j ≤ s.m.toNat) (hsub : sub < 2 ^ s.k.toNat) :
    trialsAhead s ds .subst j sub =
      if BitVec.ofNat 32 sub ≠ ds.getD j 0#32 then
        substTrial ds j (BitVec.ofNat 32 sub) :: trialsAhead s ds .subst j (sub + 1)
      else trialsAhead s ds .subst j (sub + 1) := by
  simp only [trialsAhead, if_pos h]
  rw [range'_sub_of_lt hsub, substTrials_cons]
  split <;> rfl

theorem trialsAhead_subst_over : trialsAhead s ds .subst (s.m.toNat + 1) sub = [] :=
  if_neg (Nat.not_succ_le_self _)

end

/-! ### A stage of the search -/

/-- `r` is a stage of the search of the input `ds`: the trials are those behind, which made the candidates found and the
folds counted, and those ahead. -/
structure CorrStage (s : State) (ds : List Digit) (r : CorrRegs) : Prop where
  dbuf : r.dbuf = ds
  phase : r.phase = .trans ∨ r.phase = .subst ∨ r.phase = .done
  j_le : r.j ≤ s.m.toNat + 1
  j_le_of_trans : r.phase = .trans → r.j ≤ s.m.toNat
  sub_le : r.phase ≠ .trans → r.sub ≤ 2 ^ s.k.toNat
  sub_eq : r.phase = .subst → r.j = s.m.toNat + 1 → r.sub = 0
  behind : ∃ behind, corrTrials s ds = behind ++ trialsAhead s ds r.phase r.j r.sub ∧ r.found = tryTrials s behind [] ∧
    r.folds = 1 + behind.length

/-- The small steps that a stage is from IDLE (45_correct.md R187). -/
def stepsAhead (s : State) : Phase → Nat → Nat → Nat
  | .trans, j, _ => (s.m.toNat - j) + 1 + (s.m.toNat + 1) * (2 ^ s.k.toNat + 1) + 2
  | .subst, j, sub => (s.m.toNat + 1 - j) * (2 ^ s.k.toNat + 1) - sub + 2
  | .done, _, _ => 1
  | .idle, _, _ => 0
  | .check, _, _ => 0

/-- `q` is one small step nearer to IDLE than `r`. -/
def StepNearer (s : State) (q r : CorrRegs) : Prop :=
  stepsAhead s q.phase q.j q.sub + 1 = stepsAhead s r.phase r.j r.sub

/-- The iterator after CHECK (45_correct.md R181). -/
theorem corrStage_start (s : State) (ds : List Digit) (dead : CorrRegs) :
    CorrStage s ds { corrAccept dead with phase := .trans, j := 0, dbuf := ds, found := [], folds := 1 } where
  dbuf := rfl
  phase := .inl rfl
  j_le := Nat.zero_le _
  j_le_of_trans _ := Nat.zero_le _
  sub_le h := absurd rfl h
  sub_eq := nofun
  behind := ⟨[], (trialsAhead_trans_zero s ds dead.sub).symm, rfl, rfl⟩

section

variable {s : State} {ds : List Digit} {r : CorrRegs}

/-- What is behind a stage and one more trial is behind the next. -/
theorem CorrStage.behind_cons (h : CorrStage s ds r) {trial : List Digit} {ahead : List (List Digit)}
    (heq : trialsAhead s ds r.phase r.j r.sub = trial :: ahead) :
    ∃ behind, corrTrials s ds = behind ++ ahead ∧ tryTrial s trial r.found = tryTrials s behind [] ∧
      r.folds + 1 = 1 + behind.length := by
  obtain ⟨behind, htrials, hfound, hfolds⟩ := h.behind
  refine ⟨behind ++ [trial], ?_, ?_, ?_⟩
  · rw [htrials, heq, List.append_assoc, List.singleton_append]
  · rw [hfound, tryTrials_append, tryTrials_cons, tryTrials_nil]
  · rw [hfolds, List.length_append, List.length_singleton, Nat.add_assoc]

/-- A small step at TRANS leaves a stage one step nearer to IDLE. -/
theorem CorrStage.trans (h : CorrStage s ds r) (hp : r.phase = .trans) :
    CorrStage s ds (corrTrans s r) ∧ StepNearer s (corrTrans s r) r := by
  obtain ⟨phase, j, sub, dbuf, trial, found, folds⟩ := r
  obtain rfl : phase = .trans := hp
  obtain rfl : dbuf = ds := h.dbuf
  have hle : j ≤ s.m.toNat := h.j_le_of_trans rfl
  unfold corrTrans
  split
  case isTrue hj =>
    have hj : j = s.m.toNat := hj
    have hahead : trialsAhead s dbuf .trans j sub = trialsAhead s dbuf .subst 0 0 := hj ▸ trialsAhead_trans_end
    refine ⟨⟨rfl, .inr (.inl rfl), Nat.zero_le _, nofun, fun _ => Nat.zero_le _, fun _ _ => rfl, hahead ▸ h.behind⟩, ?_⟩
    simp only [StepNearer, stepsAhead, Nat.sub_zero]
    omega
  case isFalse hj =>
    have hlt : j < s.m.toNat := lt_of_le_of_ne hle hj
    have hahead := trialsAhead_trans_of_lt (ds := dbuf) (sub := sub) hlt
    have hnearer : stepsAhead s .trans (j + 1) sub + 1 = stepsAhead s .trans j sub := by
      simp only [stepsAhead]
      omega
    split
    case isTrue hne =>
      exact ⟨⟨rfl, .inl rfl, Nat.le_succ_of_le hlt, fun _ => hlt, h.sub_le, nofun,
        h.behind_cons (hahead.trans (if_pos hne))⟩, hnearer⟩
    case isFalse heq =>
      exact ⟨⟨rfl, .inl rfl, Nat.le_succ_of_le hlt, fun _ => hlt, h.sub_le, nofun,
        hahead.trans (if_neg heq) ▸ h.behind⟩, hnearer⟩

/-- A small step at SUBST leaves a stage one step nearer to IDLE. -/
theorem CorrStage.subst (h : CorrStage s ds r) (hp : r.phase = .subst) :
    CorrStage s ds (corrSubst s r) ∧ StepNearer s (corrSubst s r) r := by
  obtain ⟨phase, j, sub, dbuf, trial, found, folds⟩ := r
  obtain rfl : phase = .subst := hp
  obtain rfl : dbuf = ds := h.dbuf
  have hsub : sub ≤ 2 ^ s.k.toNat := h.sub_le Phase.noConfusion
  have hjle : j ≤ s.m.toNat + 1 := h.j_le
  unfold corrSubst
  split
  case isTrue hj =>
    have hj : j = s.m.toNat + 1 := hj
    have hahead : trialsAhead s dbuf .subst j sub = trialsAhead s dbuf .done j sub := hj ▸ trialsAhead_subst_over
    have hzero : sub = 0 := h.sub_eq rfl hj
    refine ⟨⟨rfl, .inr (.inr rfl), hjle, nofun, fun _ => hsub, nofun, hahead ▸ h.behind⟩, ?_⟩
    simp only [StepNearer, stepsAhead, hj, hzero, Nat.sub_self, Nat.zero_mul]
  case isFalse hj =>
    have hle : j ≤ s.m.toNat := Nat.le_of_lt_succ (lt_of_le_of_ne hjle hj)
    have hrows : (s.m.toNat + 1 - j) * (2 ^ s.k.toNat + 1) =
        (s.m.toNat + 1 - (j + 1)) * (2 ^ s.k.toNat + 1) + (2 ^ s.k.toNat + 1) := by
      rw [show s.m.toNat + 1 - j = s.m.toNat + 1 - (j + 1) + 1 by omega, Nat.succ_mul]
    split
    case isTrue hfull =>
      have hfull : sub = 2 ^ s.k.toNat := hfull
      have hahead : trialsAhead s dbuf .subst j sub = trialsAhead s dbuf .subst (j + 1) 0 :=
        hfull ▸ trialsAhead_subst_end hle
      refine ⟨⟨rfl, .inr (.inl rfl), Nat.succ_le_succ hle, nofun, fun _ => Nat.zero_le _, fun _ _ => rfl,
        hahead ▸ h.behind⟩, ?_⟩
      simp only [StepNearer, stepsAhead]
      omega
    case isFalse hnotfull =>
      have hlt : sub < 2 ^ s.k.toNat := lt_of_le_of_ne hsub hnotfull
      have hahead := trialsAhead_subst_of_lt (ds := dbuf) hle hlt
      have hnearer : stepsAhead s .subst j (sub + 1) + 1 = stepsAhead s .subst j sub := by
        simp only [stepsAhead]
        omega
      split
      case isTrue hne =>
        exact ⟨⟨rfl, .inr (.inl rfl), hjle, nofun, fun _ => hlt, fun _ hq => absurd hq hj,
          h.behind_cons (hahead.trans (if_pos hne))⟩, hnearer⟩
      case isFalse heq =>
        exact ⟨⟨rfl, .inr (.inl rfl), hjle, nofun, fun _ => hlt, fun _ hq => absurd hq hj,
          hahead.trans (if_neg heq) ▸ h.behind⟩, hnearer⟩

/-- At the last stage all trials are behind (45_correct.md R180, R184). -/
theorem CorrStage.done (h : CorrStage s ds r) (hp : r.phase = .done) :
    r.found = candidates s ds ∧ r.folds = 1 + (corrTrials s ds).length := by
  obtain ⟨behind, htrials, hfound, hfolds⟩ := h.behind
  have hall : corrTrials s ds = behind := by rw [htrials, hp]; exact List.append_nil _
  rw [candidates_eq_tryTrials, hall]
  exact ⟨hfound, hfolds⟩

/-- A small step from a stage leads to the next, or ends the command with the candidates of the input. -/
theorem CorrStage.micro (h : CorrStage s ds r) :
    (∃ r', corrMicro s r = .running r' ∧ CorrStage s ds r' ∧ StepNearer s r' r) ∨
      corrMicro s r = .ended (storeCandidates s (candidates s ds)) (1 + (corrTrials s ds).length) ∧
        stepsAhead s r.phase r.j r.sub = 1 := by
  rcases h.phase with hp | hp | hp
  · exact .inl ⟨_, by rw [corrMicro, hp], h.trans hp⟩
  · exact .inl ⟨_, by rw [corrMicro, hp], h.subst hp⟩
  · obtain ⟨hfound, hfolds⟩ := h.done hp
    exact .inr ⟨by rw [corrMicro, hp, hfound, hfolds], by rw [hp]; rfl⟩

/-- With enough small steps the search ends (45_correct.md R187). -/
theorem CorrStage.runCorr_ended {fuel : Nat} (h : CorrStage s ds r) (hfuel : stepsAhead s r.phase r.j r.sub ≤ fuel) :
    runCorr s fuel r = .ended (storeCandidates s (candidates s ds)) (1 + (corrTrials s ds).length) := by
  induction fuel generalizing r with
  | zero =>
    obtain ⟨r', -, -, hsteps⟩ | ⟨-, hsteps⟩ := h.micro
    · rw [StepNearer] at hsteps
      omega
    · omega
  | succ fuel ih =>
    rw [runCorr_succ]
    obtain ⟨r', hmicro, hstage, hsteps⟩ | ⟨hmicro, -⟩ := h.micro
    · rw [StepNearer] at hsteps
      rw [hmicro]
      exact ih hstage (by omega)
    · rw [hmicro]

/-- However far the search goes, it stands at a stage. -/
theorem CorrStage.of_runCorr {fuel : Nat} {r' : CorrRegs} (h : CorrStage s ds r) (hrun : runCorr s fuel r = .running r') :
    CorrStage s ds r' := by
  induction fuel generalizing r with
  | zero => exact CorrStatus.running.inj hrun ▸ h
  | succ fuel ih =>
    rw [runCorr_succ] at hrun
    obtain ⟨q, hmicro, hstage, -⟩ | ⟨hmicro, -⟩ := h.micro
    · rw [hmicro] at hrun
      exact ih hstage hrun
    · rw [hmicro] at hrun
      cases hrun

end

/-! ### The accepted command -/

/-- CHECK ends as the command does, or begins a search that will end as the command does (45_correct.md R175, R181). -/
theorem corrMicro_accept (s : State) (dead : CorrRegs) :
    (∃ folds, corrMicro s (corrAccept dead) = .ended (exec .corr s) folds) ∨
      ∃ ds r, digits s (s.m.toNat + 1) = .ok ds ∧ engineFold s ds ≠ 0#33 ∧
        exec .corr s = storeCandidates s (candidates s ds) ∧ corrMicro s (corrAccept dead) = .running r ∧
        CorrStage s ds r ∧ stepsAhead s r.phase r.j r.sub + 1 ≤ corrStepBound s := by
  have hcheck : corrMicro s (corrAccept dead) = corrCheck s (corrAccept dead) := rfl
  rw [hcheck, corrCheck]
  split
  case isFalse hr => exact .inl ⟨_, by rw [exec_corr_of_not_ready (Bool.eq_false_iff.mpr hr)]⟩
  case isTrue hr =>
    split
    case h_1 e he => exact .inl ⟨_, by rw [exec_corr, execCorr, if_pos hr, he]⟩
    case h_2 ds hds =>
      split
      case isTrue hfold => exact .inl ⟨_, by rw [exec_corr_of_fold_eq_zero hr hds hfold]⟩
      case isFalse hfold =>
        refine .inr ⟨ds, _, hds, hfold, exec_corr_of_fold_ne_zero hr hds hfold, rfl, corrStage_start s ds dead, ?_⟩
        have hpos := Nat.two_pow_pos s.k.toNat
        rw [stepsAhead, corrStepBound, Nat.succ_mul (s.m.toNat + 1)]
        simp only
        omega

/-- Settles O44: CHECK ends at once as the command does, or the search works off its trials within the bound. -/
theorem smallStepCorrReachesTheCommand : Obligations.SmallStepCorrReachesTheCommand := by
  intro s dead
  refine ⟨rfl, ?_⟩
  obtain ⟨n, hn⟩ : ∃ n, corrStepBound s = n + 1 := ⟨_, (Nat.succ_pred (by rw [corrStepBound]; omega)).symm⟩
  rw [hn, runCorr_succ]
  obtain ⟨folds, hmicro⟩ | ⟨ds, r, -, -, hexec, hmicro, hstage, hsteps⟩ := corrMicro_accept s dead
  · exact ⟨folds, by rw [hmicro]⟩
  · exact ⟨_, by rw [hmicro, hexec]; exact hstage.runCorr_ended (by omega)⟩

section

variable {s : State} {ds : List Digit} (hi : s.Inv) (h : HoldsChecked s ds) (hfold : engineFold s ds ≠ 0#33)
  (dead : CorrRegs)

include hi h hfold

/-- On a checked sequence that does not verify, CHECK begins its search. -/
theorem exists_corrStage_of_holdsChecked :
    ∃ r, corrMicro s (corrAccept dead) = .running r ∧ CorrStage s ds r ∧
      stepsAhead s r.phase r.j r.sub + 1 ≤ corrStepBound s := by
  have hexec := exec_corr_of_fold_ne_zero h.isReady (digits_of_holdsChecked hi h) hfold
  obtain ⟨folds, hmicro⟩ | ⟨es, r, hes, -, -, hmicro, hstage, hsteps⟩ := corrMicro_accept s dead
  · have hcheck : corrMicro s (corrAccept dead) = corrCheck s (corrAccept dead) := rfl
    rw [hcheck, corrCheck, if_pos h.isReady, digits_of_holdsChecked hi h] at hmicro
    simp only [if_neg hfold] at hmicro
    cases hmicro
  · obtain rfl : es = ds := Except.ok.inj (hes.symm.trans (digits_of_holdsChecked hi h))
    exact ⟨r, hmicro, hstage, hsteps⟩

/-- After CHECK the small-step CORR stands at a stage of its search. -/
theorem corrStage_of_runCorr {fuel : Nat} {r : CorrRegs} (hrun : runCorr s fuel (corrAccept dead) = .running r)
    (hp : r.phase ≠ .check) : CorrStage s ds r := by
  obtain ⟨q, hmicro, hstage, -⟩ := exists_corrStage_of_holdsChecked hi h hfold dead
  cases fuel with
  | zero => exact absurd (CorrStatus.running.inj hrun ▸ rfl) hp
  | succ fuel =>
    rw [runCorr_succ, hmicro] at hrun
    exact hstage.of_runCorr hrun

end

/-! ### No repetition -/

/-- The trial ahead is none of those behind, so its record is not among the candidates (47_laws.md R227). -/
theorem CorrStage.present_eq_false {s : State} {ds : List Digit} {r : CorrRegs} (hi : s.Inv) (h : HoldsChecked s ds)
    (hstage : CorrStage s ds r) {trial : List Digit} {ahead : List (List Digit)}
    (heq : trialsAhead s ds r.phase r.j r.sub = trial :: ahead) : present s r.found trial = false := by
  obtain ⟨behind, htrials, hfound, -⟩ := hstage.behind
  rw [heq] at htrials
  have hnodup := nodup_corrTrials h.length_eq (hi.k_le_thirtyTwo h.isReady)
  rw [htrials] at hnodup
  have hdigits {t : List Digit} (ht : t ∈ behind ++ trial :: ahead) : AreDigits s.k.toNat t :=
    areDigits_of_mem_corrTrials h.areDigits (htrials ▸ ht)
  rw [present, ← Bool.not_eq_true, List.contains_iff_mem, hfound]
  intro hmem
  obtain hnil | ⟨t, ht, -, hrec⟩ := mem_tryTrials hmem
  · exact absurd hnil List.not_mem_nil
  · have htrial := recordOf_inj hi h.isReady (hdigits (List.mem_append_left _ ht))
      (hdigits (List.mem_append_right _ List.mem_cons_self)) hrec
    exact List.disjoint_of_nodup_append hnodup ht (htrial ▸ List.mem_cons_self)

/-- Settles O43: the trial of the statement is the first of those ahead. -/
theorem deduplicationNeverSucceeds : Obligations.DeduplicationNeverSucceeds := by
  intro s ds fuel dead r hi h hfold hrun
  refine ⟨fun hp hj hne _ => ?_, fun hp hj hsub hne _ => ?_⟩
  · have hstage := corrStage_of_runCorr hi h hfold dead hrun (by rw [hp]; exact Phase.noConfusion)
    rw [hstage.dbuf] at hne ⊢
    exact hstage.present_eq_false hi h (by rw [hp, trialsAhead_trans_of_lt hj, if_pos hne])
  · have hstage := corrStage_of_runCorr hi h hfold dead hrun (by rw [hp]; exact Phase.noConfusion)
    rw [hstage.dbuf] at hne ⊢
    exact hstage.present_eq_false hi h (by rw [hp, trialsAhead_subst_of_lt hj hsub, if_pos hne])

/-! ### The number of folds -/

/-- At each position every digit but the one there is tried (45_correct.md R177). -/
theorem length_substTrials {ds : List Digit} {k j : Nat} (hk : k ≤ 32) (hds : AreDigits k ds) :
    (substTrials ds j (List.range (2 ^ k))).length = 2 ^ k - 1 := by
  have hone : ((List.range (2 ^ k)).filter fun d => !decide (BitVec.ofNat 32 d ≠ ds.getD j 0#32)).length = 1 := by
    rw [filter_range_eq_singleton (hds.getD j), List.length_singleton]
    intro b hb
    have hb32 : b < 2 ^ 32 := hb.trans_le (Nat.pow_le_pow_right (by decide) hk)
    rw [Bool.not_eq_true', decide_eq_false_iff_not, not_not, ← BitVec.toNat_inj, BitVec.toNat_ofNat, Nat.mod_eq_of_lt hb32]
  have hsplit := List.length_eq_length_filter_add (l := List.range (2 ^ k)) fun d => decide (BitVec.ofNat 32 d ≠ ds.getD j 0#32)
  rw [hone, List.length_range] at hsplit
  rw [substTrials, List.length_map]
  omega

/-- One fold per unequal pair, and 2^K − 1 at each of the M + 1 positions (45_correct.md R184). -/
theorem length_corrTrials {s : State} {ds : List Digit} (hk : s.k.toNat ≤ 32) (hds : AreDigits s.k.toNat ds) :
    (corrTrials s ds).length = unequalPairs ds s.m.toNat + (s.m.toNat + 1) * (2 ^ s.k.toNat - 1) := by
  rw [corrTrials, List.length_append, swapTrials, List.length_map, unequalPairs, substTrialsOver, List.length_flatMap,
    List.map_congr_left fun j _ => length_substTrials (j := j) hk hds, List.map_const', List.sum_replicate,
    List.length_range, smul_eq_mul]

/-- Settles O45: the folds are those of CHECK and of the trials, and the ranges are those of a stage. -/
theorem smallStepCorrCountsItsFolds : Obligations.SmallStepCorrCountsItsFolds := by
  intro s ds dead hi h hfold
  refine ⟨?folds, fun fuel r hrun hp => ?ranges⟩
  case folds =>
    obtain ⟨r, hmicro, hstage, hsteps⟩ := exists_corrStage_of_holdsChecked hi h hfold dead
    have hexec := exec_corr_of_fold_ne_zero h.isReady (digits_of_holdsChecked hi h) hfold
    obtain ⟨n, hn⟩ : ∃ n, corrStepBound s = n + 1 := ⟨_, (Nat.succ_pred (by omega)).symm⟩
    rw [hn, runCorr_succ, hmicro, hexec, Nat.add_assoc, ← length_corrTrials (hi.k_le_thirtyTwo h.isReady) h.areDigits]
    exact hstage.runCorr_ended (by omega)
  case ranges =>
    have hstage := corrStage_of_runCorr hi h hfold dead hrun hp
    refine ⟨hstage.j_le, ?_, hstage.sub_le⟩
    obtain ⟨behind, htrials, hfound, -⟩ := hstage.behind
    obtain ⟨f, hf⟩ := exists_repairs hi h.isReady h.areDigits h.length_eq hfold
    have hprefix : r.found <+: candidates s ds := by
      rw [candidates_eq_tryTrials, htrials, tryTrials_append, hfound]
      exact prefix_tryTrials s _ _
    calc r.found.length
        ≤ (candidates s ds).length := hprefix.length_le
      _ = (verifyingTrials s ds f).length := by
        rw [candidates_eq_verifyingTrials hf hi h.isReady h.areDigits h.length_eq, List.length_map]
      _ ≤ 2 * s.m.toNat + 1 := length_verifyingTrials.2

end Sys2Proof.Machine
end

section
/-! The small-step fold (42_checksum.md R146), and resets: between commands, during one, and between two small steps
(70_reset_and_hazards.md R270, R272). -/

namespace Sys2Proof.Machine

/-! ### The fold symbol by symbol -/

/-- One more micro-step at the end of a run that still goes on. -/
theorem runFold_succ_of_running {s : State} {n fuel : Nat} {r r' : FoldRegs} (h : runFold s n fuel r = .running r') :
    runFold s n (fuel + 1) r = foldMicro s n r' := by
  have hlast : runFoldInputs s n [.go] r' = foldMicro s n r' := by
    rw [runFoldInputs, foldInput]
    cases foldMicro s n r' <;> rfl
  rw [runFold, List.replicate_succ', runFoldInputs_append]
  rw [runFold] at h
  rw [h]
  exact hlast

/-- A fold that has met a symbol outside the alphabet takes no further step. -/
theorem runFold_unknown_of_le {s : State} {n fuel fuel' p : Nat} {r : FoldRegs} (h : runFold s n fuel r = .unknown p)
    (hle : fuel ≤ fuel') : runFold s n fuel' r = .unknown p := by
  obtain ⟨d, rfl⟩ := Nat.exists_eq_add_of_le hle
  rw [runFold] at h
  rw [runFold, List.replicate_add, runFoldInputs_append, h]

/-- As far as the symbols have digits, ACC is the fold of the digits before P (10_state.md R46, 42_checksum.md R146). -/
theorem runFold_running {s : State} {n : Nat} {ds : List Digit} {p : Nat} (hp : p ≤ n) (hlen : p ≤ ds.length)
    (hdigit : ∀ q < p, index s (s.seq.read q) = some (ds.getD q 0#32)) :
    runFold s n p foldStart = .running { acc := engineFold s (ds.take p), p := p } := by
  induction p with
  | zero => rfl
  | succ p ih =>
    have hrun := ih (by omega) (by omega) fun q hq => hdigit q (by omega)
    have htake : ds.take (p + 1) = ds.take p ++ [ds.getD p 0#32] := by
      rw [List.take_succ_eq_append_getElem (by omega), List.getD_eq_getElem _ _ (by omega)]
    have hfold : engineFold s (ds.take p ++ [ds.getD p 0#32]) =
        foldStep s.k.toNat s.mask (engineFold s (ds.take p)) (ds.getD p 0#32) := fold_concat _ _ _ _
    rw [runFold_succ_of_running hrun, foldMicro, if_pos (by exact hp), hdigit p p.lt_succ_self, htake, hfold]

/-- The digit of every symbol looked up, position by position. -/
theorem index_seq_of_lookupFrom {s : State} {n : Nat} {ds : List Digit} (h : lookupFrom s 0 (seqSymbols s n) = .ok ds) :
    ds.length = n ∧ ∀ q < n, index s (s.seq.read q) = some (ds.getD q 0#32) := by
  have hmap := lookupFrom_ok.mp h
  have hlen : ds.length = n := by simpa using (congrArg List.length hmap).symm
  refine ⟨hlen, fun q hq => ?_⟩
  have hget := congrArg (fun l : List (Option Digit) => l.getD q none) hmap
  rw [← seqSymbols_getD hq]
  simpa [List.getD_eq_getElem?_getD, List.getElem?_eq_getElem, hq, hlen] using hget

/-- The digits of the symbols before the first one that is not in the alphabet. -/
def knownDigits (s : State) (n : Nat) : List Digit := (List.range n).map fun q => (index s (s.seq.read q)).getD 0#32

theorem index_seq_eq_knownDigits {s : State} {n q : Nat} (hq : q < n) (h : index s (s.seq.read q) ≠ none) :
    index s (s.seq.read q) = some ((knownDigits s n).getD q 0#32) := by
  obtain ⟨d, hd⟩ := Option.ne_none_iff_exists'.mp h
  have hlt : q < (knownDigits s n).length := by rwa [knownDigits, List.length_map, List.length_range]
  rw [List.getD_eq_getElem _ _ hlt]
  simp only [knownDigits, List.getElem_map, List.getElem_range, hd, Option.getD_some]

/-- Settles O46: the fold runs through the symbols that have digits, and one more micro-step meets the end or the first
symbol that has none. -/
theorem smallStepFoldReachesTheFold : Obligations.SmallStepFoldReachesTheFold := by
  intro s n _ _
  refine ⟨fun ds hds => ?known, fun e he => ?unknown⟩
  case known =>
    obtain ⟨hlen, hdigit⟩ := index_seq_of_lookupFrom hds
    have hrun (p : Nat) (hp : p ≤ n) :=
      runFold_running hp (hlen.symm ▸ hp) fun q hq => hdigit q (hq.trans_le hp)
    refine ⟨?_, fun p hp => ⟨hrun p hp, fold_lt _ _ _⟩⟩
    rw [runFold_succ_of_running (hrun n le_rfl), foldMicro, if_neg (lt_irrefl n), List.take_of_length_le hlen.le]
  case unknown =>
    obtain ⟨q, hq, rfl, hmiss, hhits⟩ := lookupFrom_error.mp he
    rw [seqSymbols_length] at hq
    rw [seqSymbols_getD hq] at hmiss
    have hdigit (i : Nat) (hi : i < q) : index s (s.seq.read i) = some ((knownDigits s q).getD i 0#32) :=
      index_seq_eq_knownDigits hi (seqSymbols_getD (s := s) (hi.trans hq) ▸ hhits i hi)
    have hrun := runFold_running hq.le (by rw [knownDigits, List.length_map, List.length_range]) hdigit
    have hstop : runFold s n (q + 1) foldStart = .unknown q := by
      rw [runFold_succ_of_running hrun, foldMicro, if_pos (by exact hq), hmiss]
    exact ⟨q, hq, by rw [Nat.zero_add], runFold_unknown_of_le hstop (by omega)⟩

/-! ### Resets -/

/-- Every reset the port sees gives the reset state, whatever ran (70_reset_and_hazards.md R270, R272). -/
theorem exists_step_of_reset {s : State} {rest : List HostInput}
    (hh : s.host = .reset :: rest ∨ ∃ w drawn, s.host = .resetDuring w drawn :: rest) :
    ∃ ws, ws <:+ s.rand ∧ step s = .next (hardReset { s with host := rest } ws) := by
  obtain ⟨-, hnil, -⟩ | ⟨-, hnil, -⟩ | ⟨w, rest', -, hcmd, -⟩ | ⟨ws, rest', hws, hreset, hstep⟩ := step_cases s
  · rcases hh with hh | ⟨w, drawn, hh⟩ <;> rw [hh] at hnil <;> cases hnil
  · rcases hh with hh | ⟨w, drawn, hh⟩ <;> rw [hh] at hnil <;> simp at hnil
  · rcases hh with hh | ⟨w, drawn, hh⟩ <;> rw [hh] at hcmd <;> cases hcmd
  · have hrest : rest' = rest := by
      rcases hh with hh | ⟨w, drawn, hh⟩ <;> rw [hh] at hreset <;> simpa [eq_comm] using hreset
    exact ⟨ws, hws, hrest ▸ hstep⟩

/-- Only a GEN takes random words, so a reset during another command loses none (44_generate.md R165, R166). -/
theorem randAfterResetDuring_of_ne_gen {s : State} {w : Word64} (hb : s.busy = false) (hw : decode w ≠ .ok .gen)
    (drawn : Nat) : randAfterResetDuring w drawn s = s.rand := by
  have hdraws : drawsWords w s = false := by
    unfold drawsWords
    split
    · next h => exact absurd h hw
    · rfl
  rw [randAfterResetDuring, hb, hdraws]
  rfl

/-- A small-step CORR that was abandoned met a reset. -/
theorem runCorrInputs_abandoned {s t : State} {xs : List MicroInput} {r : CorrRegs}
    (h : runCorrInputs s xs r = .abandoned t) : .reset ∈ xs ∧ t = microReset s := by
  induction xs generalizing r with
  | nil => cases h
  | cons x xs ih =>
    rw [runCorrInputs] at h
    cases hx : corrInput s r x with
    | running r' =>
      rw [hx] at h
      exact (ih h).imp_left (List.mem_cons_of_mem x)
    | ended o n =>
      rw [hx] at h
      cases h
    | abandoned u =>
      rw [hx] at h
      obtain ⟨rfl, rfl⟩ := corrInput_abandoned.mp hx
      exact ⟨List.mem_cons_self, (CorrStatus.abandoned.inj h).symm⟩

/-- A small-step fold that was abandoned met a reset. -/
theorem runFoldInputs_abandoned {s t : State} {n : Nat} {xs : List MicroInput} {r : FoldRegs}
    (h : runFoldInputs s n xs r = .abandoned t) : .reset ∈ xs ∧ t = microReset s := by
  induction xs generalizing r with
  | nil => cases h
  | cons x xs ih =>
    rw [runFoldInputs] at h
    cases hx : foldInput s n r x with
    | running r' =>
      rw [hx] at h
      exact (ih h).imp_left (List.mem_cons_of_mem x)
    | done acc d =>
      rw [hx] at h
      cases h
    | unknown p =>
      rw [hx] at h
      cases h
    | abandoned u =>
      rw [hx] at h
      obtain ⟨rfl, rfl⟩ := foldInput_abandoned.mp hx
      exact ⟨List.mem_cons_self, (FoldStatus.abandoned.inj h).symm⟩

/-- Settles O11: a reset on the port is one step, a reset between small steps ends them, and its target is one state. -/
theorem resetFromEveryStateGivesTheResetState : Obligations.ResetFromEveryStateGivesTheResetState := by
  refine ⟨fun s rest hh => exists_step_of_reset hh, fun s w drawn rest hb hh hw => ?during,
    fun s xs r => ⟨fun r' hrun => ?corr, fun t => runCorrInputs_abandoned⟩,
    fun s n xs r => ⟨fun r' hrun => ?fold, fun t => runFoldInputs_abandoned⟩⟩
  case during =>
    have hstep : step s = .next (hardReset { s with host := rest } (randAfterResetDuring w drawn s)) := by
      simp only [step, nextActivity, hh]
    rw [hstep, randAfterResetDuring_of_ne_gen hb hw]
    rfl
  case corr =>
    rw [runCorrInputs_append, hrun]
    rfl
  case fold =>
    rw [runFoldInputs_append, hrun]
    rfl

end Sys2Proof.Machine
end

section
/-! What memory holds outside the readable entries is never seen (10_state.md R42 to R44): two states that differ only there
answer every input alike and go on differing only there. -/

namespace Sys2Proof.Machine

/-! ### States that differ in their memories alone -/

/-- `s` with other memories. -/
def State.withMemories (s : State) (alpha seq cand : Memory) : State := { s with alpha := alpha, seq := seq, cand := cand }

/-- States that agree differ in their memories alone. -/
theorem State.Agree.exists_memories {s t : State} (h : s.Agree t) : ∃ alpha seq cand, t = s.withMemories alpha seq cand := by
  obtain ⟨hparams, ⟨hready, haovf, hsovf, hvalid, hcvalid⟩, ⟨hk, hm, hmask⟩, ⟨halen, hslen, hncand⟩,
    ⟨hlasterr, hesticky, herrinfo⟩, ⟨hrdig, hrsym⟩, ⟨hbusy, hhost, hrand, hresponses⟩, -, -, -⟩ := h
  refine ⟨t.alpha, t.seq, t.cand, ?_⟩
  cases t
  simp only [State.withMemories, *]

theorem State.Agree.refl (s : State) : s.Agree s where
  params := rfl
  flags := ⟨rfl, rfl, rfl, rfl, rfl⟩
  engine := ⟨rfl, rfl, rfl⟩
  lengths := ⟨rfl, rfl, rfl⟩
  errors := ⟨rfl, rfl, rfl⟩
  result := ⟨rfl, rfl⟩
  ports := ⟨rfl, rfl, rfl, rfl⟩
  alpha _ _ := rfl
  seq _ _ := rfl
  cand _ _ _ _ _ := rfl

/-- Agreement on what is readable, for a state with other memories. -/
theorem agree_withMemories {s : State} {alpha seq cand : Memory} (halpha : ∀ i < s.alen.toNat, s.alpha.read i = alpha.read i)
    (hseq : ∀ i < s.slen.toNat, s.seq.read i = seq.read i)
    (hcand : s.cvalid = true → ∀ c < s.ncand.toNat, ∀ p ≤ s.m.toNat,
      s.cand.read (candKey s.params c p) = cand.read (candKey s.params c p)) :
    s.Agree (s.withMemories alpha seq cand) :=
  { State.Agree.refl s with alpha := halpha, seq := hseq, cand := hcand }

theorem indexBelow_congr {a b : Memory} {n : Nat} (x : Sym) (h : ∀ i < n, a.read i = b.read i) :
    indexBelow a x n = indexBelow b x n := by
  induction n with
  | zero => rfl
  | succ n ih => rw [indexBelow, indexBelow, ih fun i hi => h i (hi.trans n.lt_succ_self), h n n.lt_succ_self]

theorem firstDuplicate_congr {a b : Memory} {n : Nat} (h : ∀ i < n, a.read i = b.read i) :
    firstDuplicate a n = firstDuplicate b n := by
  induction n with
  | zero => rfl
  | succ n ih =>
    have hbelow : ∀ i < n, a.read i = b.read i := fun i hi => h i (hi.trans n.lt_succ_self)
    rw [firstDuplicate, firstDuplicate, ih hbelow, h n n.lt_succ_self, indexBelow_congr _ hbelow]

theorem exec_gen_of_few_words {s : State} (hr : s.ready = true) (hw : s.rand.length < s.m.toNat) :
    exec .gen s = .next { s with busy := true } := by
  rw [exec_gen, execGen, if_pos hr, if_pos hw]

/-- A word drawn is cut to K bits (44_generate.md R167). -/
theorem areDigits_drawnDigits {s : State} (hi : s.Inv) (hr : s.ready = true) : AreDigits s.k.toNat (drawnDigits s) := by
  refine List.forall_mem_map.mpr fun r _ => ?_
  rw [drawnDigit_toNat (hi.k_le_thirtyTwo hr)]
  exact Nat.mod_lt _ (Nat.two_pow_pos _)

/-- The entry appended to both memories becomes readable in both. -/
theorem read_write_congr {a b : Memory} {n i : Nat} (ha : a.wf = true) (hb : b.wf = true)
    (h : ∀ i < n, a.read i = b.read i) (x : Sym) (hi : i < n + 1) : (a.write n x).read i = (b.write n x).read i := by
  rw [Memory.read_write ha, Memory.read_write hb]
  split
  · rfl
  · exact h i (by omega)

/-! ### What the datapath reads (42_checksum.md, 44_generate.md, 45_correct.md) -/

section

variable {s : State} {alpha seq cand : Memory} (hi : s.Inv) (ha : s.Agree (s.withMemories alpha seq cand))

include hi ha

section

variable (hr : s.ready = true)

include hr

/-- With an engine the alphabet is readable (10_state.md R50 b). -/
theorem alpha_read_eq_of_agree {i : Nat} (h : i < 2 ^ s.k.toNat) : alpha.read i = s.alpha.read i := by
  obtain ⟨-, -, -, halen, -⟩ := hi.engine hr
  exact (ha.alpha i (halen ▸ h)).symm

theorem index_withMemories (x : Sym) : index (s.withMemories alpha seq cand) x = index s x :=
  congrArg (Option.map _) (indexBelow_congr x fun _ h => alpha_read_eq_of_agree hi ha hr h)

theorem recordOf_withMemories {ds : List Digit} (hds : AreDigits s.k.toNat ds) :
    recordOf (s.withMemories alpha seq cand) ds = recordOf s ds :=
  List.map_congr_left fun d hd => alpha_read_eq_of_agree hi ha hr (hds d hd)

theorem symbolOfAcc_withMemories (ds : List Digit) :
    symbolOfAcc (s.withMemories alpha seq cand) (engineFold (s.withMemories alpha seq cand) ds) =
      symbolOfAcc s (engineFold s ds) :=
  alpha_read_eq_of_agree hi ha hr (fold_lt _ _ _)

/-- Both states get the same digit and the same symbol (42_checksum.md R145). -/
theorem setResult_withMemories (ds : List Digit) :
    setResult (engineFold (s.withMemories alpha seq cand) ds) (s.withMemories alpha seq cand) =
      (setResult (engineFold s ds) s).withMemories alpha seq cand :=
  congrArg (fun x => { s.withMemories alpha seq cand with rdig := (engineFold s ds).setWidth 32, rsym := x })
    (symbolOfAcc_withMemories hi ha hr ds)

theorem generated_withMemories : generated (s.withMemories alpha seq cand) = generated s :=
  congrArg₂ (· ++ [·]) (recordOf_withMemories hi ha hr (areDigits_drawnDigits hi hr))
    (symbolOfAcc_withMemories hi ha hr (drawnDigits s))

/-- A sequence of the right length is readable, so both states look the same symbols up (42_checksum.md R142). -/
theorem digits_withMemories (n : Nat) : digits (s.withMemories alpha seq cand) n = digits s n := by
  cases hlen : wrongLength s n with
  | true => exact (digits_of_wrongLength (s := s.withMemories alpha seq cand) hlen).trans (digits_of_wrongLength hlen).symm
  | false =>
    obtain ⟨-, hslen⟩ := wrongLength_eq_false.mp hlen
    have hsymbols : seqSymbols (s.withMemories alpha seq cand) n = seqSymbols s n := List.map_congr_left fun p hp => by
      rw [Nat.zero_add]
      exact (ha.seq p (hslen ▸ List.mem_range.mp hp)).symm
    have hlookup := lookupFrom_congr (xs := seqSymbols s n) (fun x _ => index_withMemories hi ha hr x) 0
    exact congrArg (fun o => if wrongLength s n then _ else if seqSize s.params < n then _
      else if alphaSize s.params < 2 ^ s.k.toNat then _ else o) (hsymbols ▸ hlookup)

end

end

/-! ### Both states do the same -/

/-- Both states answer the command with a next state, and these agree. -/
def Mirrors (i : Instr) (s t : State) : Prop := ∃ s' t', exec i s = .next s' ∧ exec i t = .next t' ∧ s'.Agree t'

theorem State.Agree.respond {s t : State} (h : s.Agree t) (v : Value) : (respond v s).Agree (respond v t) := by
  obtain ⟨hbusy, hhost, hrand, hresponses⟩ := h.ports
  exact { h with ports := ⟨hbusy, hhost, hrand, congrArg (· ++ _) hresponses⟩ }

theorem State.Agree.raise {s t : State} (h : s.Agree t) (e : ErrorCode) (info : Value) :
    (raise e info s).Agree (raise e info t) := by
  obtain ⟨hbusy, hhost, hrand, hresponses⟩ := h.ports
  obtain ⟨-, hesticky, -⟩ := h.errors
  exact { h with
    errors := ⟨rfl, congrArg (· ||| _) hesticky, rfl⟩
    ports := ⟨hbusy, hhost, hrand, congrArg (· ++ _) hresponses⟩ }

theorem Mirrors.of_respond {i : Instr} {s t u u' : State} {v : Value} (hs : exec i s = .next (respond v u))
    (ht : exec i t = .next (respond v u')) (h : u.Agree u') : Mirrors i s t :=
  ⟨_, _, hs, ht, h.respond v⟩

theorem Mirrors.of_raise {i : Instr} {s t : State} {e : ErrorCode} {info : Value} (hs : exec i s = .next (raise e info s))
    (ht : exec i t = .next (raise e info t)) (h : s.Agree t) : Mirrors i s t :=
  ⟨_, _, hs, ht, h.raise e info⟩

section

variable {s : State} {alpha seq cand : Memory} (hi : s.Inv) (ht : (s.withMemories alpha seq cand).Inv)
  (ha : s.Agree (s.withMemories alpha seq cand))

include ha

theorem mirrors_clra : Mirrors .clra s (s.withMemories alpha seq cand) := by
  cases hr : s.ready with
  | true => exact .of_raise (exec_clra_of_ready hr) (exec_clra_of_ready hr) ha
  | false =>
    exact .of_respond (exec_clra_of_not_ready hr) (exec_clra_of_not_ready hr)
      (agree_withMemories (s := { s with alen := 0#33, aovf := false }) nofun ha.seq ha.cand)

include hi in
theorem mirrors_init (k : BitVec 8) (m : BitVec 16) : Mirrors (.init k m) s (s.withMemories alpha seq cand) := by
  cases hr : s.ready with
  | true => exact .of_raise (exec_init_of_ready hr) (exec_init_of_ready hr) ha
  | false =>
    cases hk : buildMask s.params k.toNat with
    | none =>
      have hk := buildMask_eq_none.mp hk
      exact .of_raise (exec_init_of_unsupported hr hk) (exec_init_of_unsupported hr hk) ha
    | some mask =>
      by_cases hm : m.toNat < 1 ∨ s.params.mmax < m.toNat
      · exact .of_raise (exec_init_of_invalidPayload hr hk hm) (exec_init_of_invalidPayload hr hk hm) ha
      · cases hsize : wrongAlphabetSize s k.toNat with
        | true => exact .of_raise (exec_init_of_wrongSize hr hk hm hsize) (exec_init_of_wrongSize hr hk hm hsize) ha
        | false =>
          obtain ⟨-, halen⟩ := wrongAlphabetSize_eq_false.mp hsize
          have hsame : firstDuplicate alpha (2 ^ k.toNat) = firstDuplicate s.alpha (2 ^ k.toNat) :=
            (firstDuplicate_congr fun i h => ha.alpha i (halen ▸ h)).symm
          cases hdup : firstDuplicate s.alpha (2 ^ k.toNat) with
          | some i =>
            have ht := exec_init_of_duplicate (s := s.withMemories alpha seq cand) hr hk hm hsize (hsame.trans hdup)
            exact .of_raise (exec_init_of_duplicate hr hk hm hsize hdup) ht ha
          | none =>
            have hcvalid := hi.cvalid_of_not_ready hr
            have ht := exec_init_of_distinct (s := s.withMemories alpha seq cand) hr hk hm hsize (hsame.trans hdup)
            exact .of_respond (exec_init_of_distinct hr hk hm hsize hdup) ht
              (agree_withMemories (s := startEngine k m mask s) ha.alpha ha.seq fun h => nomatch hcvalid.symm.trans h)

omit ha in
/-- No numbered register stands in a memory (46_access.md R201). -/
theorem readReg_withMemories (r : Nat) : readReg (s.withMemories alpha seq cand) r = readReg s r := by
  rw [readReg_eq_getElem?, readReg_eq_getElem?]
  rfl

theorem mirrors_mkmask (k : BitVec 8) : Mirrors (.mkmask k) s (s.withMemories alpha seq cand) := by
  cases h : buildMask s.params k.toNat with
  | none => exact .of_raise (exec_mkmask_of_buildMask_none h) (exec_mkmask_of_buildMask_none h) ha
  | some mask => exact .of_respond (exec_mkmask_of_buildMask_some h) (exec_mkmask_of_buildMask_some h) ha

include hi

section

include ht

theorem mirrors_lda (sym : Sym) : Mirrors (.lda sym) s (s.withMemories alpha seq cand) := by
  cases hr : s.ready with
  | true => exact .of_raise (exec_lda_of_ready hr) (exec_lda_of_ready hr) ha
  | false =>
    rcases hi.lengths.1.eq_or_lt with hfull | hroom
    · exact .of_respond (exec_lda_of_full hr hfull) (exec_lda_of_full hr hfull)
        (agree_withMemories (s := { s with aovf := true }) ha.alpha ha.seq ha.cand)
    · refine .of_respond (exec_lda_of_room hr hroom) (exec_lda_of_room hr hroom)
        (agree_withMemories (s := { s with alpha := s.alpha.write s.alen.toNat sym, alen := s.alen + 1#33 })
          (fun i h => ?_) ha.seq ha.cand)
      have hlt : i < s.alen.toNat + 1 := toNat_alen_succ hi.paramsWf hroom ▸ h
      exact read_write_congr hi.alphaForm.1 ht.alphaForm.1 ha.alpha sym hlt

theorem mirrors_lds (sym : Sym) : Mirrors (.lds sym) s (s.withMemories alpha seq cand) := by
  rcases hi.lengths.2.eq_or_lt with hfull | hroom
  · exact .of_respond (exec_lds_of_full hfull) (exec_lds_of_full hfull)
      (agree_withMemories (s := { s with sovf := true }) ha.alpha ha.seq ha.cand)
  · refine .of_respond (exec_lds_of_room hroom) (exec_lds_of_room hroom)
      (agree_withMemories (s := { s with seq := s.seq.write s.slen.toNat sym, slen := s.slen + 1#17 })
        ha.alpha (fun i h => ?_) ha.cand)
    have hlt : i < s.slen.toNat + 1 := toNat_slen_succ hi.paramsWf hroom ▸ h
    exact read_write_congr hi.seqForm.1 ht.seqForm.1 ha.seq sym hlt

end

theorem mirrors_csum (ic : Bool) : Mirrors (.csum ic) s (s.withMemories alpha seq cand) := by
  cases hr : s.ready with
  | false => exact .of_raise (exec_csum_of_not_ready hr) (exec_csum_of_not_ready hr) ha
  | true =>
    have hsame := digits_withMemories hi ha hr (s.m.toNat + ic.toNat)
    obtain ⟨ds, hds⟩ | ⟨e, info, hds⟩ := digits_ok_or_raised hi hr (s.m.toNat + ic.toNat)
    · have ht := exec_csum_of_digits (s := s.withMemories alpha seq cand) hr (hsame.trans hds)
      rw [setResult_withMemories hi ha hr, symbolOfAcc_withMemories hi ha hr] at ht
      exact .of_respond (exec_csum_of_digits hr hds) ht
        (agree_withMemories (s := setResult (engineFold s ds) s) ha.alpha ha.seq ha.cand)
    · exact .of_raise (exec_csum_of_raised hr hds) (exec_csum_of_raised hr (hsame.trans hds)) ha

theorem mirrors_vrfy : Mirrors .vrfy s (s.withMemories alpha seq cand) := by
  cases hr : s.ready with
  | false => exact .of_raise (exec_vrfy_of_not_ready hr) (exec_vrfy_of_not_ready hr) ha
  | true =>
    have hsame := digits_withMemories hi ha hr (s.m.toNat + 1)
    obtain ⟨ds, hds⟩ | ⟨e, info, hds⟩ := digits_ok_or_raised hi hr (s.m.toNat + 1)
    · have ht := exec_vrfy_of_digits (s := s.withMemories alpha seq cand) hr (hsame.trans hds)
      rw [setResult_withMemories hi ha hr] at ht
      exact .of_respond (exec_vrfy_of_digits hr hds) ht
        (agree_withMemories (s := { setResult (engineFold s ds) s with valid := decide (engineFold s ds = 0#33) })
          ha.alpha ha.seq ha.cand)
    · exact .of_raise (exec_vrfy_of_raised hr hds) (exec_vrfy_of_raised hr (hsame.trans hds)) ha

include ht

omit ha in
/-- Both states read a record stored alike (45_correct.md R179). -/
theorem candEntry_withCandidates_congr (hr : s.ready = true) {found : List (List Sym)}
    (hlen : ∀ r ∈ found, r.length = s.m.toNat + 1) {c e : Nat} (hc : c < found.length) (he : e ≤ s.m.toNat) :
    candEntry (withCandidates s found) c e = candEntry (withCandidates (s.withMemories alpha seq cand) found) c e := by
  have hm : e ≤ s.params.mmax := he.trans (Nat.le_of_succ_le_succ (hi.m_succ_le_seqSize hr))
  have hentry := candEntry_withCandidates ht (found := found) hr hlen (c := c) hm
  rw [candEntry_withCandidates hi hr hlen hm, if_pos ⟨hc, he⟩]
  exact (hentry.trans (if_pos ⟨hc, he⟩)).symm

theorem mirrors_gen : Mirrors .gen s (s.withMemories alpha seq cand) := by
  cases hr : s.ready with
  | false => exact .of_raise (exec_gen_of_not_ready hr) (exec_gen_of_not_ready hr) ha
  | true =>
    rcases Nat.lt_or_ge s.rand.length s.m.toNat with hw | hw
    · exact ⟨_, _, exec_gen_of_few_words hr hw, exec_gen_of_few_words hr hw,
        agree_withMemories (s := { s with busy := true }) ha.alpha ha.seq ha.cand⟩
    · have hexec := exec_gen_of_words ht hr hw
      rw [setResult_withMemories hi ha hr, symbolOfAcc_withMemories hi ha hr, generated_withMemories hi ha hr] at hexec
      refine .of_respond (exec_gen_of_words hi hr hw) hexec (agree_withMemories (s := { setResult _ s with
        seq := s.seq.writeList 0 (generated s), slen := BitVec.ofNat 17 (s.m.toNat + 1), sovf := false,
        rand := s.rand.drop s.m.toNat, busy := false }) ha.alpha (fun i h => ?_) ha.cand)
      have hle : i ≤ s.m.toNat := Nat.lt_succ_iff.mp (h.trans_le (Nat.mod_le _ _))
      rw [read_writeList_generated hw hi.seqForm.1, read_writeList_generated hw ht.seqForm.1, if_pos hle, if_pos hle]

/-- Both states find the same records and store them in the same places (45_correct.md R179). -/
theorem mirrors_corr : Mirrors .corr s (s.withMemories alpha seq cand) := by
  cases hr : s.ready with
  | false => exact .of_raise (exec_corr_of_not_ready hr) (exec_corr_of_not_ready hr) ha
  | true =>
    have hsame := digits_withMemories hi ha hr (s.m.toNat + 1)
    obtain ⟨ds, hds⟩ | ⟨e, info, hds⟩ := digits_ok_or_raised hi hr (s.m.toNat + 1)
    · by_cases hfold : engineFold s ds = 0#33
      · exact .of_raise (exec_corr_of_fold_eq_zero hr hds hfold)
          (exec_corr_of_fold_eq_zero (s := s.withMemories alpha seq cand) hr (hsame.trans hds) hfold) ha
      · have h := holdsChecked_of_digits hi hr hds
        obtain ⟨f, hf⟩ := exists_repairs hi hr h.areDigits h.length_eq hfold
        have hrecords : (verifyingTrials s ds f).map (recordOf (s.withMemories alpha seq cand)) =
            (verifyingTrials s ds f).map (recordOf s) := List.map_congr_left fun trial htrial =>
          recordOf_withMemories hi ha hr (areDigits_of_mem_verifyingTrials hf h.areDigits htrial)
        have hexec := exec_corr_of_repairs ht (holdsChecked_of_digits ht hr (hsame.trans hds)) hfold hf
        rw [show verifyingTrials (s.withMemories alpha seq cand) ds f = verifyingTrials s ds f from rfl, hrecords] at hexec
        exact ⟨_, _, exec_corr_of_repairs hi h hfold hf, hexec,
          agree_withMemories ha.alpha ha.seq fun _ c hc e he =>
            candEntry_withCandidates_congr hi ht hr (length_of_mem_map_recordOf h.length_eq) (hc.trans_le (Nat.mod_le _ _)) he⟩
    · exact .of_raise (exec_corr_of_raised hr hds) (exec_corr_of_raised hr (hsame.trans hds)) ha

theorem mirrors_reads {i : Instr} (hmem : i.mnemonic ∈ ["RDR", "RDA", "RDS", "RDC"]) :
    Mirrors i s (s.withMemories alpha seq cand) := by
  cases i with
  | rdr r =>
    cases h : readReg s r.toNat with
    | some v => exact .of_respond (exec_rdr_of_readReg h) (exec_rdr_of_readReg ((readReg_withMemories r.toNat).trans h)) ha
    | none =>
      have h := (readReg_eq_none s _).mp h
      exact .of_raise (exec_rdr_of_gt h) (exec_rdr_of_gt h) ha
  | rda j =>
    rcases Nat.lt_or_ge j.toNat s.alen.toNat with hj | hj
    · exact .of_respond (exec_rda_of_lt hi hj) (ha.alpha _ hj ▸ exec_rda_of_lt ht hj) ha
    · exact .of_raise (exec_rda_of_ge hj) (exec_rda_of_ge hj) ha
  | rds p =>
    rcases Nat.lt_or_ge p.toNat s.slen.toNat with hp | hp
    · exact .of_respond (exec_rds_of_lt hi hp) (ha.seq _ hp ▸ exec_rds_of_lt ht hp) ha
    · exact .of_raise (exec_rds_of_ge hp) (exec_rds_of_ge hp) ha
  | rdc c p =>
    by_cases h : s.cvalid = false ∨ s.ncand.toNat ≤ c.toNat ∨ s.m.toNat < p.toNat
    · exact .of_raise (exec_rdc_of_unreadable h) (exec_rdc_of_unreadable h) ha
    · obtain ⟨hvalid, hc, hp⟩ : s.cvalid = true ∧ c.toNat < s.ncand.toNat ∧ p.toNat ≤ s.m.toNat := by
        simpa only [not_or, Bool.not_eq_false, not_le, not_lt] using h
      exact .of_respond (exec_rdc_of_readable hi hvalid hc hp)
        (ha.cand hvalid _ hc _ hp ▸ exec_rdc_of_readable ht hvalid hc hp) ha
  | _ => simp [Instr.mnemonic] at hmem

/-- Every command does the same to two states that differ in unreadable entries alone. -/
theorem mirrors (i : Instr) : Mirrors i s (s.withMemories alpha seq cand) := by
  cases i with
  | nop => exact .of_respond (exec_nop _) (exec_nop _) ha
  | clra => exact mirrors_clra ha
  | lda sym => exact mirrors_lda hi ht ha sym
  | init k m => exact mirrors_init hi ha k m
  | free => exact .of_respond (exec_free _) (exec_free _) (agree_withMemories (s := endEngine s) ha.alpha ha.seq nofun)
  | mkmask k => exact mirrors_mkmask ha k
  | clrs =>
    exact .of_respond (exec_clrs _) (exec_clrs _)
      (agree_withMemories (s := { s with slen := 0#17, sovf := false }) ha.alpha nofun ha.cand)
  | lds sym => exact mirrors_lds hi ht ha sym
  | csum ic => exact mirrors_csum hi ha ic
  | vrfy => exact mirrors_vrfy hi ha
  | gen => exact mirrors_gen hi ht ha
  | corr => exact mirrors_corr hi ht ha
  | rdr | rda | rds | rdc => exact mirrors_reads hi ht ha (by simp [Instr.mnemonic])
  | clre =>
    exact .of_respond (exec_clre _) (exec_clre _)
      (agree_withMemories (s := { s with lasterr := 0#8, esticky := 0#16, errinfo := 0#48 }) ha.alpha ha.seq ha.cand)

end

/-- A command on two states of the invariant that agree (10_state.md R42 to R44). -/
theorem State.Agree.exec {i : Instr} {s t s' : State} (ha : s.Agree t) (hi : s.Inv) (ht : t.Inv) (h : exec i s = .next s') :
    ∃ t', exec i t = .next t' ∧ s'.Agree t' := by
  obtain ⟨alpha, seq, cand, rfl⟩ := ha.exists_memories
  obtain ⟨u, t', hu, ht', hagree⟩ := mirrors hi ht ha i
  exact ⟨t', ht', Host.Outcome.next.inj (hu.symm.trans h) ▸ hagree⟩

theorem State.Agree.withHost {s t : State} (h : s.Agree t) (host : List HostInput) :
    State.Agree { s with host := host } { t with host := host } := by
  obtain ⟨hbusy, -, hrand, hresponses⟩ := h.ports
  exact { h with ports := ⟨hbusy, rfl, hrand, hresponses⟩ }

/-- While a GEN waits nothing but a reset is taken from the port (44_generate.md R166). -/
theorem step_of_busy {s : State} (hb : s.busy = true) (hh : s.host = [] ∨ ∃ w rest, s.host = .command w :: rest) :
    step s = exec .gen s := by
  obtain hh | ⟨w, rest, hh⟩ := hh <;> simp only [step, nextActivity, hh, hb, if_true]

/-- A reset of either kind leads to the same state, since it keeps no memory (70_reset_and_hazards.md R271). -/
theorem step_reset_withMemories {s : State} {rest : List HostInput}
    (hh : s.host = .reset :: rest ∨ ∃ w drawn, s.host = .resetDuring w drawn :: rest) (alpha seq cand : Memory) :
    step (s.withMemories alpha seq cand) = step s := by
  obtain hh | ⟨w, drawn, hh⟩ := hh
  all_goals
    have hh' : (s.withMemories alpha seq cand).host = _ := hh
    rw [step, step, nextActivity, nextActivity, hh, hh']
    rfl

/-- Settles O58: both states take the same input, and commands, errors and resets all keep the agreement. -/
theorem unreadableEntriesAreUnobservable : Obligations.UnreadableEntriesAreUnobservable := by
  intro s t s' hi ht ha h
  obtain ⟨alpha, seq, cand, rfl⟩ := ha.exists_memories
  obtain ⟨hb, hh, hstep⟩ | ⟨hb, hh, hstep⟩ | ⟨w, rest, hb, hh, ⟨i, hd, hstep⟩ | ⟨e, hd, hstep⟩⟩ | ⟨_, rest, -, hh, -⟩ :=
    step_cases s
  case' inr.inr.inr => exact ⟨s', (step_reset_withMemories hh alpha seq cand).trans h, .refl s'⟩
  all_goals rw [hstep] at h
  case inl => exact ⟨_, step_of_no_input hb hh, Host.Outcome.next.inj h ▸ ha⟩
  case inr.inl =>
    rw [step_of_busy (s := s.withMemories alpha seq cand) hb hh]
    exact ha.exec hi ht h
  case inr.inr.inl.inl =>
    rw [step_of_decode_ok (s := s.withMemories alpha seq cand) hd hb hh]
    exact (ha.withHost rest).exec (hi.withPorts _ _ _) (ht.withPorts _ _ _) h
  case inr.inr.inl.inr =>
    exact ⟨_, step_of_decode_error hd hb hh, Host.Outcome.next.inj h ▸ (ha.withHost rest).raise _ _⟩

end Sys2Proof.Machine
end

section
/-! Checked sequences: the check digit is the one digit that closes a payload (47_laws.md R220), what GEN leaves
(44_generate.md R165), and what the buffer holds once a list of symbols has been loaded (30_encoding.md R98). -/

namespace Sys2Proof.Machine

/-! ### Memories written entry by entry -/

theorem Memory.writeList_concat (mem : Memory) (base : Nat) (xs : List Sym) (x : Sym) :
    mem.writeList base (xs ++ [x]) = (mem.writeList base xs).write (base + xs.length) x := by
  induction xs generalizing mem base with
  | nil => rfl
  | cons y ys ih =>
    rw [List.cons_append, Memory.writeList, Memory.writeList, ih, List.length_cons, Nat.add_right_comm, Nat.add_assoc]

theorem Memory.readList_writeList {mem : Memory} (h : mem.wf = true) (xs : List Sym) :
    (mem.writeList 0 xs).readList 0 xs.length = xs := by
  refine List.ext_getElem (Memory.length_readList _ _ _) fun p hp hp' => ?_
  rw [← List.getD_eq_getElem _ 0#32, ← List.getD_eq_getElem _ 0#32, Memory.getD_readList _ _ _ _ hp', Nat.zero_add,
    Memory.read_writeList h, if_pos ⟨p.zero_le, (Nat.zero_add xs.length).symm ▸ hp'⟩, Nat.sub_zero]

theorem Memory.readList_write_succ {mem : Memory} (h : mem.wf = true) (n : Nat) (x : Sym) :
    (mem.write n x).readList 0 (n + 1) = mem.readList 0 n ++ [x] := by
  have hold : ∀ p ∈ List.range n, (mem.write n x).read (0 + p) = mem.read (0 + p) := fun p hp => by
    rw [Nat.zero_add, Memory.read_write h, if_neg (List.mem_range.mp hp).ne]
  rw [Memory.readList, List.range_succ, List.map_append, List.map_congr_left hold, List.map_singleton, Nat.zero_add,
    Memory.read_write h, if_pos rfl, Memory.readList]

/-! ### The check digit (42_checksum.md R145) -/

/-- The digit that CSUM leaves in RDIG for the payload `ds`. -/
def checkDigit (s : State) (ds : List Digit) : Digit := (engineFold s ds).setWidth 32

theorem AreDigits.concat {k : Nat} {ds : List Digit} (hds : AreDigits k ds) {d : Digit} (hd : d.toNat < 2 ^ k) :
    AreDigits k (ds ++ [d]) := List.forall_mem_append.mpr ⟨hds, List.forall_mem_singleton.mpr hd⟩

section

variable {s : State} (hi : s.Inv) (hr : s.ready = true)

include hi hr

theorem toNat_checkDigit (ds : List Digit) : (checkDigit s ds).toNat = (engineFold s ds).toNat :=
  toNat_setWidth_acc (hi.k_le_thirtyTwo hr) (fold_lt _ _ _)

theorem checkDigit_lt (ds : List Digit) : (checkDigit s ds).toNat < 2 ^ s.k.toNat := by
  rw [toNat_checkDigit hi hr]
  exact fold_lt _ _ _

theorem symbolOf_checkDigit (ds : List Digit) : symbolOf s (checkDigit s ds) = symbolOfAcc s (engineFold s ds) :=
  congrArg s.alpha.read (toNat_checkDigit hi hr ds)

/-- The check digit, and no other, closes the payload (47_laws.md R220). -/
theorem engineFold_concat_eq_zero_iff {ds : List Digit} {d : Digit} (hd : d.toNat < 2 ^ s.k.toNat) :
    engineFold s (ds ++ [d]) = 0#33 ↔ d = checkDigit s ds := by
  rw [engineFold, fold_concat, foldStep_eq_zero_iff (hi.two_le_k hr) (hi.k_le_thirtyTwo hr) (hi.maskShape hr)
    (fold_lt _ _ _) hd, ← BitVec.toNat_inj, toNat_checkDigit hi hr, eq_comm]
  rfl

end

/-! ### What GEN leaves (44_generate.md R165) -/

/-- The state after a GEN whose words were there. -/
def afterGen (s : State) : State :=
  respond ((symbolOfAcc s (engineFold s (drawnDigits s))).setWidth 48)
    { setResult (engineFold s (drawnDigits s)) s with
      seq := s.seq.writeList 0 (generated s)
      slen := BitVec.ofNat 17 (s.m.toNat + 1)
      sovf := false
      rand := s.rand.drop s.m.toNat
      busy := false }

theorem exec_gen_eq_afterGen {s : State} (hi : s.Inv) (hr : s.ready = true) (hw : s.m.toNat ≤ s.rand.length) :
    exec .gen s = .next (afterGen s) := exec_gen_of_words hi hr hw

section

variable {s : State} (hi : s.Inv) (hr : s.ready = true)

include hi hr

/-- The digits of the sequence that GEN writes. -/
theorem generated_eq_recordOf : generated s = recordOf s (drawnDigits s ++ [checkDigit s (drawnDigits s)]) := by
  rw [generated, recordOf, List.map_append, List.map_singleton, symbolOf_checkDigit hi hr]

theorem holdsChecked_afterGen (hw : s.m.toNat ≤ s.rand.length) :
    HoldsChecked (afterGen s) (drawnDigits s ++ [checkDigit s (drawnDigits s)]) := by
  have hslen : (BitVec.ofNat 17 (s.m.toNat + 1)).toNat = s.m.toNat + 1 :=
    Nat.mod_eq_of_lt (by have := s.m.isLt; omega)
  refine ⟨hr, rfl, hslen, (areDigits_drawnDigits hi hr).concat (checkDigit_lt hi hr _), ?_⟩
  have hread := Memory.readList_writeList hi.seqForm.1 (generated s)
  rw [length_generated hw] at hread
  exact (generated_eq_recordOf hi hr).symm.trans hread.symm

end

/-- Settles O36: the last digit that GEN writes is the check digit of those before it. -/
theorem generatedSequenceVerifies : Obligations.GeneratedSequenceVerifies := by
  intro s hi hr hw
  have hgen := exec_gen_eq_afterGen hi hr hw
  have hverify := exec_vrfy_of_holdsChecked (hi.exec (i := .gen) nofun hgen) (holdsChecked_afterGen hi hr hw)
  have hzero : engineFold (afterGen s) (drawnDigits s ++ [checkDigit s (drawnDigits s)]) = 0#33 :=
    (engineFold_concat_eq_zero_iff hi hr (checkDigit_lt hi hr _)).mpr rfl
  rw [hzero, if_pos rfl, decide_eq_true rfl] at hverify
  exact ⟨_, _, hgen, hverify, congrArg (_ ++ [·]) (by decide), rfl, rfl⟩

/-- Settles O35: a GEN that waits is the same GEN again, and the waiting bit is no input of a GEN that completes. -/
theorem genWaitsForRandomWords : Obligations.GenWaitsForRandomWords := by
  refine ⟨fun s => exec_gen_of_few_words, fun s hb hr hw hh => ?_, fun s ws hi hb hw hh => ?_⟩
  · rw [step_of_busy hb hh, exec_gen_of_few_words hr hw, ← hb]
  · have hr := hi.waiting hb
    have hwords : State.Inv { s with rand := s.rand ++ ws } := hi.withPorts s.host (s.rand ++ ws) s.responses
    have hstep := step_of_busy (s := { s with rand := s.rand ++ ws }) hb hh
    exact ⟨afterGen { s with rand := s.rand ++ ws }, hstep.trans (exec_gen_eq_afterGen hwords hr hw), rfl, rfl,
      exec_gen_eq_afterGen (hwords.withBusy nofun) hr hw⟩

end Sys2Proof.Machine
end

section
/-! Loading the sequence buffer: one more symbol, or a whole list, and what an operation that follows sees of it
(42_checksum.md R144, 47_laws.md R220, R228). -/

namespace Sys2Proof.Machine

/-! ### Spelling -/

/-- In a distinct alphabet a sequence has one spelling (10_state.md R50 b). -/
theorem Spells.unique {s : State} {ds ds' : List Digit} {xs : List Sym} (h : Spells s ds xs) (hi : s.Inv)
    (hr : s.ready = true) (h' : Spells s ds' xs) : ds = ds' :=
  Except.ok.inj ((lookupFrom_of_spells hi hr h 0).symm.trans (lookupFrom_of_spells hi hr h' 0))

theorem Spells.of_concat {s : State} {ds : List Digit} {xs : List Sym} {x : Sym} (h : Spells s ds (xs ++ [x])) :
    ∃ ds' d, ds = ds' ++ [d] ∧ Spells s ds' xs ∧ d.toNat < 2 ^ s.k.toNat ∧ symbolOf s d = x := by
  obtain ⟨hds, hmap⟩ := h
  obtain ⟨ds', last, rfl, hmap', hlast⟩ := List.map_eq_append_iff.mp hmap
  obtain ⟨d, rfl, hx⟩ := List.map_eq_singleton_iff.mp hlast
  obtain ⟨hds', hd⟩ := List.forall_mem_append.mp hds
  exact ⟨ds', d, rfl, ⟨hds', hmap'⟩, hd d List.mem_cons_self, hx⟩

theorem spells_of_verifies {s : State} (hi : s.Inv) (hr : s.ready = true) {xs : List Sym} (h : verifies s xs = true) :
    ∃ ds, Spells s ds xs ∧ engineFold s ds = 0#33 := by
  rw [verifies] at h
  cases hlookup : lookupFrom s 0 xs with
  | error _ => rw [hlookup] at h; cases h
  | ok ds =>
    rw [hlookup] at h
    exact ⟨ds, spells_of_lookupFrom hi hr hlookup, of_decide_eq_true h⟩

/-! ### One more symbol (42_checksum.md R144) -/

/-- The state after an LDS that finds room. -/
def afterLds (s : State) (x : Sym) : State :=
  respond ((s.slen + 1#17).setWidth 48) { s with seq := s.seq.write s.slen.toNat x, slen := s.slen + 1#17 }

section

variable {s : State} (hi : s.Inv) (hr : s.ready = true) (hsovf : s.sovf = false) (hslen : s.slen.toNat = s.m.toNat)

include hi hr hslen

/-- A payload leaves room for its check symbol (10_state.md R50 b). -/
theorem slen_lt_of_payload : s.slen.toNat < seqSize s.params := hslen.trans_lt (hi.m_succ_le_seqSize hr)

theorem exec_lds_of_payload (x : Sym) : exec (.lds x) s = .next (afterLds s x) :=
  exec_lds_of_room (slen_lt_of_payload hi hr hslen)

theorem slen_afterLds (x : Sym) : (afterLds s x).slen.toNat = s.m.toNat + 1 := by
  rw [← hslen]
  exact toNat_slen_succ hi.paramsWf (slen_lt_of_payload hi hr hslen)

theorem slen_succ_of_payload : s.slen + 1#17 = BitVec.ofNat 17 (s.m.toNat + 1) := by
  have h : (s.slen + 1#17).toNat = s.m.toNat + 1 := slen_afterLds hi hr hslen 0#32
  rw [← h, BitVec.ofNat_toNat, BitVec.setWidth_eq]

/-- The answer of the LDS is the length M + 1 (42_checksum.md R144). -/
theorem getLast?_responses_afterLds (x : Sym) :
    (afterLds s x).responses.getLast? = some (responseWord 0#8 (BitVec.ofNat 48 (s.m.toNat + 1))) := by
  have h : (s.slen + 1#17).toNat = s.m.toNat + 1 := slen_afterLds hi hr hslen x
  rw [afterLds, respond_responses, List.getLast?_concat, ← h, BitVec.ofNat_toNat]

omit hr in
theorem seqSymbols_afterLds (x : Sym) : seqSymbols (afterLds s x) (s.m.toNat + 1) = seqSymbols s s.m.toNat ++ [x] := by
  rw [seqSymbols, afterLds, respond_seq, hslen, Memory.readList_write_succ hi.seqForm.1, seqSymbols]

/-- Of the sequences that begin with a payload only the one that ends with its check symbol verifies (47_laws.md R220). -/
theorem eq_checkSymbol_of_holdsChecked_afterLds {ds ds' : List Digit} {x : Sym} (h : Spells s ds (seqSymbols s s.m.toNat))
    (h' : HoldsChecked (afterLds s x) ds') (hfold : engineFold s ds' = 0#33) : x = symbolOfAcc s (engineFold s ds) := by
  obtain ⟨-, -, -, hspell'⟩ := h'
  have hspell : Spells s ds' (seqSymbols s s.m.toNat ++ [x]) := seqSymbols_afterLds hi hslen x ▸ hspell'
  obtain ⟨payload, d, rfl, hpayload, hd, rfl⟩ := hspell.of_concat
  rw [h.unique hi hr hpayload, (engineFold_concat_eq_zero_iff hi hr hd).mp hfold, symbolOf_checkDigit hi hr]

include hsovf

/-- A payload and one more alphabet symbol are a checked sequence. -/
theorem holdsChecked_afterLds {ds : List Digit} {d : Digit} (h : Spells s ds (seqSymbols s s.m.toNat))
    (hd : d.toNat < 2 ^ s.k.toNat) : HoldsChecked (afterLds s (symbolOf s d)) (ds ++ [d]) := by
  obtain ⟨hds, hspell⟩ := h
  refine ⟨hr, hsovf, slen_afterLds hi hr hslen _, hds.concat hd, ?_⟩
  refine Eq.trans ?_ (seqSymbols_afterLds hi hslen _).symm
  rw [List.map_append, List.map_singleton, ← hspell]
  rfl

end

/-- A VRFY answers 1 only for a checked sequence that folds to zero (43_verify.md R161). -/
theorem holdsChecked_of_answer_one {s t : State} (hi : s.Inv) (h : exec .vrfy s = .next t)
    (hans : t.responses = s.responses ++ [0x0000000000000001#64]) : ∃ ds, HoldsChecked s ds ∧ engineFold s ds = 0#33 := by
  have hone : (0x0000000000000001#64 : Word64) = responseWord 0#8 1#48 := by decide
  rw [hone] at hans
  cases hr : s.ready with
  | false =>
    rw [exec_vrfy_of_not_ready hr] at h
    obtain ⟨hcode, -⟩ := append_responseWord_inj (Host.Outcome.next.inj h ▸ hans)
    exact absurd hcode (by decide)
  | true =>
    obtain ⟨ds, hds⟩ | ⟨e, info, hds⟩ := digits_ok_or_raised hi hr (s.m.toNat + 1)
    · rw [exec_vrfy_of_digits hr hds] at h
      obtain ⟨-, hvalue⟩ := append_responseWord_inj (Host.Outcome.next.inj h ▸ hans)
      exact ⟨ds, holdsChecked_of_digits hi hr hds, of_not_not fun hne => absurd (if_neg hne ▸ hvalue) (by decide)⟩
    · rw [exec_vrfy_of_raised hr hds] at h
      obtain ⟨hcode, -⟩ := append_responseWord_inj (Host.Outcome.next.inj h ▸ hans)
      exact absurd hcode (errorCode_ne_zero e)

/-- A checked sequence that folds to zero verifies (43_verify.md R160, R161). -/
theorem exec_vrfy_true {s : State} {ds : List Digit} (hi : s.Inv) (h : HoldsChecked s ds) (hfold : engineFold s ds = 0#33) :
    ∃ t, exec .vrfy s = .next t ∧ t.responses = s.responses ++ [0x0000000000000001#64] ∧ t.valid = true ∧ t.rdig = 0#32 := by
  have hexec := exec_vrfy_of_holdsChecked hi h
  rw [hfold, if_pos rfl, decide_eq_true rfl] at hexec
  exact ⟨_, hexec, congrArg (s.responses ++ [·]) (by decide), rfl, rfl⟩

/-! ### The check symbol appended (47_laws.md R220) -/

/-- The state after a CSUM of the payload `ds` (42_checksum.md R145). -/
def afterCsum (s : State) (ds : List Digit) : State :=
  respond ((symbolOfAcc s (engineFold s ds)).setWidth 48) (setResult (engineFold s ds) s)

section

variable {s : State} {ds : List Digit} (hi : s.Inv) (hr : s.ready = true) (hsovf : s.sovf = false)
  (hslen : s.slen.toNat = s.m.toNat) (h : Spells s ds (seqSymbols s s.m.toNat))

include hi hr hsovf hslen h

theorem exec_csum_of_payload : exec (.csum false) s = .next (afterCsum s ds) :=
  exec_csum_of_digits (ic := false) hr (digits_of_spells hi hr (wrongLength_eq_false.mpr ⟨hsovf, hslen⟩) h)

theorem inv_afterCsum : (afterCsum s ds).Inv :=
  hi.exec (i := .csum false) nofun (exec_csum_of_payload hi hr hsovf hslen h)

/-- The payload and the symbol that CSUM answers are a checked sequence that folds to zero. -/
theorem holdsChecked_afterLds_rsym :
    HoldsChecked (afterLds (afterCsum s ds) (afterCsum s ds).rsym) (ds ++ [checkDigit (afterCsum s ds) ds]) := by
  have hia := inv_afterCsum hi hr hsovf hslen h
  have hcheck := holdsChecked_afterLds (s := afterCsum s ds) hia hr hsovf hslen h (checkDigit_lt hia hr ds)
  rwa [symbolOf_checkDigit hia hr] at hcheck

end

/-- Settles O52: the check digit is the one digit that closes the payload, and only an alphabet symbol can. -/
theorem checksumRoundTrip : Obligations.ChecksumRoundTrip := by
  intro s ds hi hr hsovf hslen hspell
  have hia := inv_afterCsum hi hr hsovf hslen hspell
  have hlds (x : Sym) : exec (.lds x) (afterCsum s ds) = .next (afterLds (afterCsum s ds) x) :=
    exec_lds_of_payload hia hr hslen x
  have hib (x : Sym) : (afterLds (afterCsum s ds) x).Inv := hia.exec (i := .lds x) nofun (hlds x)
  have hzero := (engineFold_concat_eq_zero_iff hia hr (checkDigit_lt hia hr ds)).mpr rfl
  obtain ⟨u, hvrfy, hans, hvalid, -⟩ :=
    exec_vrfy_true (hib _) (holdsChecked_afterLds_rsym hi hr hsovf hslen hspell) hzero
  refine ⟨_, _, u, exec_csum_of_payload hi hr hsovf hslen hspell, rfl, hlds _, hvrfy, hans, hvalid,
    fun x hx b u' hb hu hone => hx ?_⟩
  obtain rfl := Host.Outcome.next.inj ((hlds x).symm.trans hb)
  obtain ⟨ds', hds', hfold⟩ := holdsChecked_of_answer_one (hib x) hu hone
  exact eq_checkSymbol_of_holdsChecked_afterLds hia hr hslen hspell hds' hfold

/-! ### A whole list (30_encoding.md R98) -/

theorem loadResponses_succ (n size : Nat) :
    loadResponses (n + 1) size = loadResponses n size ++ [responseWord 0#8 (BitVec.ofNat 48 (min (n + 1) size))] := by
  rw [loadResponses, loadResponses, List.range_succ, List.map_append, List.map_singleton, List.cons_append]

/-- The state after LOADSEQ of `xs`: what fits is in SEQ, and SOVF says whether any symbol was dropped. -/
def loadedSeq (s : State) (xs : List Sym) : State :=
  { s with
    seq := s.seq.writeList 0 (xs.take (seqSize s.params))
    slen := BitVec.ofNat 17 (min xs.length (seqSize s.params))
    sovf := decide (seqSize s.params < xs.length)
    responses := s.responses ++ loadResponses xs.length (seqSize s.params) }

theorem exec_clrs_eq_loadedSeq (s : State) : exec .clrs s = .next (loadedSeq s []) := by
  rw [exec_clrs, loadedSeq, List.take_nil, List.length_nil, Nat.zero_min]
  rfl

section

variable {s : State} (hp : s.params.wf = true)

include hp

theorem toNat_slen_loadedSeq (xs : List Sym) : (loadedSeq s xs).slen.toNat = min xs.length (seqSize s.params) := by
  have := seqSize_le hp
  exact Nat.mod_eq_of_lt (by omega)

theorem loadedSeq_concat_of_full {xs : List Sym} (x : Sym) (hfull : seqSize s.params ≤ xs.length) :
    loadedSeq s (xs ++ [x]) =
      respond ((loadedSeq s xs).slen.setWidth 48) { loadedSeq s xs with sovf := true } := by
  have hslen := toNat_slen_loadedSeq hp xs
  rw [min_eq_right hfull] at hslen
  have hmin : min (xs.length + 1) (seqSize s.params) = seqSize s.params := min_eq_right (by omega)
  rw [← BitVec.ofNat_toNat, hslen]
  simp only [loadedSeq, respond, List.length_append, List.length_singleton, loadResponses_succ, hmin, min_eq_right hfull,
    List.take_append_of_le_length hfull, decide_eq_true (Nat.lt_succ_of_le hfull), List.append_assoc]

theorem loadedSeq_concat_of_room {xs : List Sym} (x : Sym) (hroom : xs.length < seqSize s.params) :
    loadedSeq s (xs ++ [x]) =
      respond (((loadedSeq s xs).slen + 1#17).setWidth 48)
        { loadedSeq s xs with
          seq := (loadedSeq s xs).seq.write (loadedSeq s xs).slen.toNat x
          slen := (loadedSeq s xs).slen + 1#17 } := by
  have hslen := toNat_slen_loadedSeq hp xs
  rw [min_eq_left hroom.le] at hslen
  have hsucc := toNat_slen_succ (s := loadedSeq s xs) hp (hslen.trans_lt hroom)
  have hmin : min (xs.length + 1) (seqSize s.params) = xs.length + 1 := min_eq_left hroom
  have hslen' : (loadedSeq s xs).slen + 1#17 = BitVec.ofNat 17 (xs.length + 1) := by
    rw [← hslen, ← hsucc, BitVec.ofNat_toNat, BitVec.setWidth_eq]
  rw [← BitVec.ofNat_toNat, hsucc, hslen, hslen']
  simp only [loadedSeq, respond, List.length_append, List.length_singleton, loadResponses_succ, hmin,
    List.take_of_length_le hroom.le, List.take_of_length_le (l := xs ++ [x]) (List.length_append.trans_le hroom),
    Memory.writeList_concat, Nat.zero_add, decide_eq_false hroom.not_gt, decide_eq_false (Nat.not_lt_of_le hroom),
    List.append_assoc]

/-- Each LDS goes on with the list (42_checksum.md R144). -/
theorem exec_lds_loadedSeq (xs : List Sym) (x : Sym) :
    exec (.lds x) (loadedSeq s xs) = .next (loadedSeq s (xs ++ [x])) := by
  have hslen := toNat_slen_loadedSeq hp xs
  rcases Nat.lt_or_ge xs.length (seqSize s.params) with hroom | hfull
  · rw [exec_lds_of_room (hslen.trans_lt (min_lt_of_left_lt hroom)), loadedSeq_concat_of_room hp x hroom]
  · rw [exec_lds_of_full (hslen.trans (min_eq_right hfull)), loadedSeq_concat_of_full hp x hfull]

omit hp in
theorem runOk_append (is js : List Instr) (s : State) : runOk (is ++ js) s = (runOk is s).bind (runOk js) := by
  induction is generalizing s with
  | nil => rfl
  | cons i is ih =>
    rw [List.cons_append, runOk, runOk]
    cases exec i s with
    | next t => exact ih t
    | fault _ | refused _ => rfl

omit hp in
theorem runOk_singleton {i : Instr} {t u : State} (h : exec i t = .next u) : runOk [i] t = some u := by
  rw [runOk, h]
  rfl

omit hp in
theorem loadSeqCommands_concat (xs : List Sym) (x : Sym) :
    loadSeqCommands (xs ++ [x]) = loadSeqCommands xs ++ [.lds x] := by
  rw [loadSeqCommands, loadSeqCommands, List.map_append, List.map_singleton, List.cons_append]

theorem runOk_loadSeqCommands (xs : List Sym) : runOk (loadSeqCommands xs) s = some (loadedSeq s xs) := by
  induction xs using List.reverseRecOn with
  | nil => exact runOk_singleton (exec_clrs_eq_loadedSeq s)
  | append_singleton xs x ih =>
    rw [loadSeqCommands_concat, runOk_append, ih]
    exact runOk_singleton (exec_lds_loadedSeq hp xs x)

end

section

variable {s : State} (hi : s.Inv) {xs : List Sym}

include hi

theorem inv_loadedSeq : (loadedSeq s xs).Inv := by
  have hfits : 0 + (xs.take (seqSize s.params)).length ≤ seqSize s.params := by
    rw [Nat.zero_add, List.length_take]
    exact min_le_left _ _
  exact ((hi.withSequence
    ⟨Memory.wf_writeList hi.seqForm.1 _ _, Memory.below_writeList hi.seqForm.2 hfits⟩
    ((toNat_slen_loadedSeq hi.paramsWf xs).trans_le (min_le_right _ _))).withPorts s.host s.rand _)

theorem seqSymbols_loadedSeq (hfits : xs.length ≤ seqSize s.params) : seqSymbols (loadedSeq s xs) xs.length = xs := by
  rw [seqSymbols, loadedSeq, List.take_of_length_le hfits]
  exact Memory.readList_writeList hi.seqForm.1 xs

/-- A loaded list of the right length is a checked sequence. -/
theorem holdsChecked_loadedSeq (hr : s.ready = true) {ds : List Digit} (hlen : xs.length = s.m.toNat + 1)
    (h : Spells s ds xs) : HoldsChecked (loadedSeq s xs) ds := by
  have hfits : xs.length ≤ seqSize s.params := hlen.trans_le (hi.m_succ_le_seqSize hr)
  have hslen := toNat_slen_loadedSeq hi.paramsWf xs
  rw [min_eq_left hfits, hlen] at hslen
  have hsymbols := seqSymbols_loadedSeq hi hfits
  rw [hlen] at hsymbols
  exact ⟨hr, decide_eq_false (not_lt.mpr hfits), hslen, hsymbols.symm ▸ h⟩

end

/-- Settles O42: a record of CAND spells digits that fold to zero, and loaded it is a checked sequence. -/
theorem candidatesVerifyWhenLoaded : Obligations.CandidatesVerifyWhenLoaded := by
  intro s c hi hc hlt
  obtain ⟨hr, -⟩ := hi.candidateCount hc
  obtain ⟨ds, hspell, hfold⟩ := spells_of_verifies hi hr (hi.candidatesVerify hc c hlt)
  have hchecked := holdsChecked_loadedSeq hi hr (by simp [candRecord]) hspell
  have hil := inv_loadedSeq hi (xs := candRecord s c)
  obtain ⟨u, hvrfy, hans, hvalid, -⟩ := exec_vrfy_true hil hchecked hfold
  exact ⟨_, u, runOk_loadSeqCommands hi.paramsWf _, hvrfy, hans, hvalid,
    exec_corr_of_fold_eq_zero hr (digits_of_holdsChecked hil hchecked) hfold⟩

/-- The payload that a GEN draws, as the loads of 44_generate.md R170 write it. -/
theorem map_read_rand_eq {s : State} (hi : s.Inv) (hr : s.ready = true) :
    ((s.rand.take s.m.toNat).map fun r => s.alpha.read (r.toNat % 2 ^ s.k.toNat)) = recordOf s (drawnDigits s) := by
  rw [recordOf, drawnDigits, List.map_map]
  exact List.map_congr_left fun r _ => congrArg s.alpha.read (drawnDigit_toNat (hi.k_le_thirtyTwo hr) r).symm

section

variable {s : State} (hi : s.Inv) (hr : s.ready = true) {xs : List Sym} (hlen : xs.length = s.m.toNat)

include hi hr hlen

theorem slen_loadedSeq_payload : (loadedSeq s xs).slen.toNat = s.m.toNat := by
  rw [toNat_slen_loadedSeq hi.paramsWf, hlen, min_eq_left (Nat.le_of_succ_le (hi.m_succ_le_seqSize hr))]

theorem sovf_loadedSeq_payload : (loadedSeq s xs).sovf = false :=
  decide_eq_false (hlen.trans_lt (hi.m_succ_le_seqSize hr)).not_gt

theorem spells_loadedSeq_payload {ds : List Digit} (h : Spells s ds xs) :
    Spells (loadedSeq s xs) ds (seqSymbols (loadedSeq s xs) s.m.toNat) := by
  have hsymbols := seqSymbols_loadedSeq hi (hlen.trans_le (Nat.le_of_succ_le (hi.m_succ_le_seqSize hr)))
  rw [hlen] at hsymbols
  exact hsymbols.symm ▸ h

/-- A payload and one more symbol stand in SEQ as one list. -/
theorem seq_write_loadedSeq_payload (x : Sym) :
    (loadedSeq s xs).seq.write (loadedSeq s xs).slen.toNat x = s.seq.writeList 0 (xs ++ [x]) := by
  rw [slen_loadedSeq_payload hi hr hlen, Memory.writeList_concat, Nat.zero_add, hlen, loadedSeq,
    List.take_of_length_le (hlen.trans_le (Nat.le_of_succ_le (hi.m_succ_le_seqSize hr)))]

end

/-- Settles O37: GEN writes the payload that the loads write and the check symbol that CSUM answers. -/
theorem genEqualsLoadChecksumAppend : Obligations.GenEqualsLoadChecksumAppend := by
  intro s hi hr hw
  rw [map_read_rand_eq hi hr]
  generalize hxs : recordOf s (drawnDigits s) = xs
  have hlen : xs.length = s.m.toNat := by rw [← hxs, recordOf, List.length_map, length_drawnDigits hw]
  have hspell := spells_loadedSeq_payload hi hr hlen ⟨areDigits_drawnDigits hi hr, hxs⟩
  have hil := inv_loadedSeq hi (xs := xs)
  have hsovf := sovf_loadedSeq_payload hi hr hlen
  have hslen := slen_loadedSeq_payload hi hr hlen
  have hcsum := exec_csum_of_payload hil hr hsovf hslen hspell
  have hia := inv_afterCsum hil hr hsovf hslen hspell
  have hrun : runOk (loadSeqCommands xs ++ [.csum false]) s = some (afterCsum (loadedSeq s xs) (drawnDigits s)) := by
    rw [runOk_append, runOk_loadSeqCommands hi.paramsWf]
    exact runOk_singleton hcsum
  have hseq : s.seq.writeList 0 (xs ++ [symbolOfAcc s (engineFold s (drawnDigits s))]) = s.seq.writeList 0 (generated s) :=
    hxs ▸ rfl
  have hresponse : (afterCsum (loadedSeq s xs) (drawnDigits s)).responses.getLast? = (afterGen s).responses.getLast? := by
    rw [afterCsum, afterGen, respond_responses, respond_responses, List.getLast?_concat, List.getLast?_concat]
    rfl
  exact ⟨afterGen s, _, _, exec_gen_eq_afterGen hi hr hw, hrun, hresponse, exec_lds_of_payload hia hr hslen _,
    (seq_write_loadedSeq_payload hi hr hlen _).trans hseq, slen_succ_of_payload hia hr hslen, hsovf, rfl, rfl,
    getLast?_responses_afterLds hia hr hslen _⟩

end Sys2Proof.Machine
end

section
/-! The pseudo-instructions: each ends as its expansion says (30_encoding.md R98). -/

namespace Sys2Proof.Machine

/-! ### Loading a memory, command by command -/

/-- A load ends with an answer of status OK. -/
theorem lastStatus_of_loadResponses {s : State} {ws : List Word64} {n size : Nat}
    (h : s.responses = ws ++ loadResponses n size) : lastStatus s = 0#8 := by
  cases n with
  | zero => exact (lastStatus_append h).trans (extract_responseWord _ _)
  | succ n =>
    rw [loadResponses_succ, ← List.append_assoc] at h
    exact (lastStatus_append h).trans (extract_responseWord _ _)

/-- The entries of a list written as far as it fits. -/
theorem read_writeList_take {mem : Memory} (h : mem.wf = true) (xs : List Sym) {n i : Nat} (hi : i < min xs.length n) :
    (mem.writeList 0 (xs.take n)).read i = xs.getD i 0#32 := by
  obtain ⟨hlen, hn⟩ := lt_min_iff.mp hi
  rw [Memory.read_writeList h, List.length_take, if_pos (by omega), Nat.sub_zero, List.getD_eq_getElem?_getD,
    List.getElem?_take_of_lt hn, List.getD_eq_getElem?_getD]

theorem lastStatus_loadedSeq (s : State) (xs : List Sym) : lastStatus (loadedSeq s xs) = 0#8 :=
  lastStatus_of_loadResponses rfl

/-- LOADSEQ from every state in which no GEN waits. -/
theorem runCommands_loadSeqCommands {s : State} (hp : s.params.wf = true) (hb : s.busy = false) (xs : List Sym) :
    runCommands (loadSeqCommands xs) s = .next (loadedSeq s xs) := by
  induction xs using List.reverseRecOn with
  | nil => exact (runCommands_singleton _ _).trans (exec_clrs_eq_loadedSeq s)
  | append_singleton xs x ih =>
    rw [loadSeqCommands_concat, runCommands_append _ _ ih hb (lastStatus_loadedSeq s xs), runCommands_singleton,
      exec_lds_loadedSeq hp]

/-- The state after LOADALPHA of `xs` without an engine: what fits is in ALPHA, and AOVF says whether any symbol was
dropped. -/
def loadedAlpha (s : State) (xs : List Sym) : State :=
  { s with
    alpha := s.alpha.writeList 0 (xs.take (alphaSize s.params))
    alen := BitVec.ofNat 33 (min xs.length (alphaSize s.params))
    aovf := decide (alphaSize s.params < xs.length)
    responses := s.responses ++ loadResponses xs.length (alphaSize s.params) }

theorem lastStatus_loadedAlpha (s : State) (xs : List Sym) : lastStatus (loadedAlpha s xs) = 0#8 :=
  lastStatus_of_loadResponses rfl

theorem loadAlphaCommands_concat (xs : List Sym) (x : Sym) :
    loadAlphaCommands (xs ++ [x]) = loadAlphaCommands xs ++ [.lda x] := by
  rw [loadAlphaCommands, loadAlphaCommands, List.map_append, List.map_singleton, List.cons_append]

theorem exec_clra_eq_loadedAlpha {s : State} (hr : s.ready = false) : exec .clra s = .next (loadedAlpha s []) := by
  rw [exec_clra_of_not_ready hr, loadedAlpha, List.take_nil, List.length_nil, Nat.zero_min]
  rfl

section

variable {s : State} (hp : s.params.wf = true)

include hp

theorem toNat_alen_loadedAlpha (xs : List Sym) : (loadedAlpha s xs).alen.toNat = min xs.length (alphaSize s.params) := by
  have := alphaSize_le hp
  exact Nat.mod_eq_of_lt (by omega)

theorem loadedAlpha_concat_of_full {xs : List Sym} (x : Sym) (hfull : alphaSize s.params ≤ xs.length) :
    loadedAlpha s (xs ++ [x]) = respond ((loadedAlpha s xs).alen.setWidth 48) { loadedAlpha s xs with aovf := true } := by
  have halen := toNat_alen_loadedAlpha hp xs
  rw [min_eq_right hfull] at halen
  have hmin : min (xs.length + 1) (alphaSize s.params) = alphaSize s.params := min_eq_right (by omega)
  rw [← BitVec.ofNat_toNat, halen]
  simp only [loadedAlpha, respond, List.length_append, List.length_singleton, loadResponses_succ, hmin,
    min_eq_right hfull, List.take_append_of_le_length hfull, decide_eq_true (Nat.lt_succ_of_le hfull), List.append_assoc]

theorem loadedAlpha_concat_of_room {xs : List Sym} (x : Sym) (hroom : xs.length < alphaSize s.params) :
    loadedAlpha s (xs ++ [x]) =
      respond (((loadedAlpha s xs).alen + 1#33).setWidth 48)
        { loadedAlpha s xs with
          alpha := (loadedAlpha s xs).alpha.write (loadedAlpha s xs).alen.toNat x
          alen := (loadedAlpha s xs).alen + 1#33 } := by
  have halen := toNat_alen_loadedAlpha hp xs
  rw [min_eq_left hroom.le] at halen
  have hsucc := toNat_alen_succ (s := loadedAlpha s xs) hp (halen.trans_lt hroom)
  have hmin : min (xs.length + 1) (alphaSize s.params) = xs.length + 1 := min_eq_left hroom
  have halen' : (loadedAlpha s xs).alen + 1#33 = BitVec.ofNat 33 (xs.length + 1) := by
    rw [← halen, ← hsucc, BitVec.ofNat_toNat, BitVec.setWidth_eq]
  rw [← BitVec.ofNat_toNat, hsucc, halen, halen']
  simp only [loadedAlpha, respond, List.length_append, List.length_singleton, loadResponses_succ, hmin,
    List.take_of_length_le hroom.le, List.take_of_length_le (l := xs ++ [x]) (List.length_append.trans_le hroom),
    Memory.writeList_concat, Nat.zero_add, decide_eq_false hroom.not_gt, decide_eq_false (Nat.not_lt_of_le hroom),
    List.append_assoc]

/-- Each LDA goes on with the list (41_construct.md R121). -/
theorem exec_lda_loadedAlpha (hr : s.ready = false) (xs : List Sym) (x : Sym) :
    exec (.lda x) (loadedAlpha s xs) = .next (loadedAlpha s (xs ++ [x])) := by
  have halen := toNat_alen_loadedAlpha hp xs
  rcases Nat.lt_or_ge xs.length (alphaSize s.params) with hroom | hfull
  · rw [exec_lda_of_room (s := loadedAlpha s xs) hr (halen.trans_lt (min_lt_of_left_lt hroom)),
      loadedAlpha_concat_of_room hp x hroom]
  · rw [exec_lda_of_full (s := loadedAlpha s xs) hr (halen.trans (min_eq_right hfull)),
      loadedAlpha_concat_of_full hp x hfull]

/-- LOADALPHA without an engine. -/
theorem runCommands_loadAlphaCommands (hb : s.busy = false) (hr : s.ready = false) (xs : List Sym) :
    runCommands (loadAlphaCommands xs) s = .next (loadedAlpha s xs) := by
  induction xs using List.reverseRecOn with
  | nil => exact (runCommands_singleton _ _).trans (exec_clra_eq_loadedAlpha hr)
  | append_singleton xs x ih =>
    rw [loadAlphaCommands_concat, runCommands_append _ _ ih hb (lastStatus_loadedAlpha s xs), runCommands_singleton,
      exec_lda_loadedAlpha hp hr]

end

/-- A list of 2^k symbols is the alphabet of the right size for k (41_construct.md R122). -/
theorem wrongAlphabetSize_loadedAlpha {s : State} (hp : s.params.wf = true) {xs : List Sym} {k : Nat}
    (hlen : xs.length = 2 ^ k) (hfits : 2 ^ k ≤ alphaSize s.params) : wrongAlphabetSize (loadedAlpha s xs) k = false :=
  wrongAlphabetSize_eq_false.mpr ⟨decide_eq_false (hlen.trans_le hfits).not_gt,
    (toNat_alen_loadedAlpha hp xs).trans (by rw [hlen, min_eq_left hfits])⟩

theorem firstDuplicate_loadedAlpha {s : State} (h : s.alpha.wf = true) {xs : List Sym} {k : Nat}
    (hlen : xs.length = 2 ^ k) (hfits : 2 ^ k ≤ alphaSize s.params) (hdistinct : xs.Nodup) :
    firstDuplicate (loadedAlpha s xs).alpha (2 ^ k) = none := by
  have hread (i : Nat) (hi : i < 2 ^ k) : (loadedAlpha s xs).alpha.read i = xs[i] :=
    (read_writeList_take h xs (lt_min (hlen.symm ▸ hi) (hi.trans_le hfits))).trans (List.getD_eq_getElem _ _ (hlen.symm ▸ hi))
  refine firstDuplicate_eq_none.mpr fun a ha j hja heq => hja.ne ?_
  rw [hread j (hja.trans ha), hread a ha] at heq
  exact hdistinct.getElem_inj_iff.mp heq

/-! ### Runs of pseudo-instructions -/

theorem runCommands_cons_of_stop {s t : State} {i : Instr} (h : exec i s = .next t)
    (hstop : t.busy = true ∨ lastStatus t ≠ 0#8) (is : List Instr) : runCommands (i :: is) s = .next t := by
  rw [runCommands, h]
  exact if_pos (by simpa using hstop)

theorem runPseudo_of_stop {p : Pseudo} {s t : State} (h : runCommands (expand p) s = .next t)
    (hstop : t.busy = true ∨ lastStatus t ≠ 0#8) : runPseudo p s = .next t := by
  rw [runPseudo, h]
  exact if_pos (by simpa using hstop)

/-- An expansion that did not stop goes on with its trailing reads. -/
theorem runPseudo_of_ok {p : Pseudo} {s t : State} (h : runCommands (expand p) s = .next t) (hb : t.busy = false)
    (hs : lastStatus t = 0#8) : runPseudo p s = runCommands (readBack p t) t := by
  rw [runPseudo, h]
  exact if_neg (by simp [hb, hs])

/-- Without trailing reads a pseudo-instruction is its expansion. -/
theorem runPseudo_of_readBack_nil {p : Pseudo} {s : State} (h : ∀ t, readBack p t = []) :
    runPseudo p s = runCommands (expand p) s := by
  rw [runPseudo]
  cases runCommands (expand p) s with
  | next t => simp only [h, runCommands, ite_self]
  | fault _ | refused _ => rfl

/-- Two nested loops as one loop over the pairs. -/
theorem flatMap_map_eq_map_product {α β γ : Type} (f : α → β → γ) (as : List α) (bs : List β) :
    (as.flatMap fun a => bs.map (f a)) = (as ×ˢ bs).map fun ab => f ab.1 ab.2 := by
  simp only [SProd.sprod, List.product, List.map_flatMap, List.map_map, Function.comp_def]

/-- A list of reads answers one symbol each and changes nothing else (46_access.md R202 to R204). -/
theorem runCommands_reads {α : Type} {s : State} {l : List α} {read : α → Instr} {val : α → Sym} (hb : s.busy = false)
    (h : ∀ a ∈ l, ∀ ws, exec (read a) { s with responses := ws } =
      .next (respond ((val a).setWidth 48) { s with responses := ws })) :
    runCommands (l.map read) s = .next { s with responses := s.responses ++ symbolResponses (l.map val) } := by
  induction l generalizing s with
  | nil => rw [List.map_nil, List.map_nil, symbolResponses, List.map_nil, List.append_nil, runCommands]
  | cons a l ih =>
    have hfirst := h a List.mem_cons_self s.responses
    have hrest := ih (s := respond ((val a).setWidth 48) s) hb fun b hmem => h b (List.mem_cons_of_mem a hmem)
    rw [List.map_cons, runCommands_cons hfirst hb (lastStatus_respond _ _), hrest]
    simp only [respond, symbolResponses, List.map_cons, List.append_assoc, List.singleton_append]

section

variable {s : State} (hi : s.Inv) (hb : s.busy = false)

include hi hb

/-- The trailing reads of GENERATE answer the checked sequence (30_encoding.md R98). -/
theorem runCommands_readSeqCommands (hslen : s.slen.toNat = s.m.toNat + 1) :
    runCommands (readSeqCommands s) s =
      .next { s with responses := s.responses ++ symbolResponses (seqSymbols s (s.m.toNat + 1)) } := by
  refine runCommands_reads (val := fun p => s.seq.read (0 + p)) hb fun p hp ws => ?_
  have hlt := List.mem_range.mp hp
  have hidx : (BitVec.ofNat 32 p).toNat = p := Nat.mod_eq_of_lt (by have := s.m.isLt; omega)
  have hread := exec_rds_of_lt (p := BitVec.ofNat 32 p) (hi.withPorts s.host s.rand ws) (by rw [hidx]; exact hslen.symm ▸ hlt)
  rw [hidx] at hread
  rw [Nat.zero_add]
  exact hread

/-- The trailing reads of CORRECT answer the records in order (30_encoding.md R98). -/
theorem runCommands_readCandCommands (hc : s.cvalid = true) :
    runCommands (readCandCommands s) s =
      .next { s with responses := s.responses ++ symbolResponses ((List.range s.ncand.toNat).flatMap (candRecord s)) } := by
  obtain ⟨-, -, hcount⟩ := hi.candidateCount hc
  have hm := s.m.isLt
  have hvals : (List.range s.ncand.toNat).flatMap (candRecord s) =
      (List.range s.ncand.toNat ×ˢ List.range (s.m.toNat + 1)).map fun cp => candEntry s cp.1 cp.2 :=
    flatMap_map_eq_map_product (candEntry s) _ _
  rw [readCandCommands, flatMap_map_eq_map_product, hvals]
  refine runCommands_reads hb fun cp hmem ws => ?_
  obtain ⟨c, p⟩ := cp
  obtain ⟨hcr, hpr⟩ := List.pair_mem_product.mp hmem
  have hlt := List.mem_range.mp hcr
  have hple := List.mem_range.mp hpr
  have hidx2 : (BitVec.ofNat 24 c).toNat = c := Nat.mod_eq_of_lt (by omega)
  have hidx1 : (BitVec.ofNat 32 p).toNat = p := Nat.mod_eq_of_lt (by omega)
  have hread := exec_rdc_of_readable (c := BitVec.ofNat 24 c) (p := BitVec.ofNat 32 p) (hi.withPorts s.host s.rand ws) hc
    (by rwa [hidx2]) (by rw [hidx1]; exact Nat.lt_succ_iff.mp hple)
  rwa [hidx2, hidx1] at hread

end

/-! ### The eight pseudo-instructions (30_encoding.md R98) -/

section

variable {s : State} (hi : s.Inv) (hb : s.busy = false)

theorem runPseudo_loadAlpha_of_ready (hr : s.ready = true) (xs : List Sym) :
    runPseudo (.loadAlpha xs) s = .next (raise .locked 0#48 s) := by
  have hstop := (lastStatus_raise .locked 0#48 s).trans_ne (errorCode_ne_zero .locked)
  refine runPseudo_of_stop ?_ (.inr hstop)
  exact runCommands_cons_of_stop (exec_clra_of_ready hr) (.inr hstop) _

include hi hb

theorem runPseudo_loadAlpha_of_not_ready (hr : s.ready = false) (xs : List Sym) :
    runPseudo (.loadAlpha xs) s = .next (loadedAlpha s xs) :=
  (runPseudo_of_readBack_nil fun _ => rfl).trans (runCommands_loadAlphaCommands hi.paramsWf hb hr xs)

theorem runPseudo_loadSeq (xs : List Sym) : runPseudo (.loadSeq xs) s = .next (loadedSeq s xs) :=
  (runPseudo_of_readBack_nil fun _ => rfl).trans (runCommands_loadSeqCommands hi.paramsWf hb xs)

/-- LOADSEQ and one operation end as the operation on what is loaded. -/
theorem runCommands_loadSeqCommands_concat (xs : List Sym) (i : Instr) :
    runCommands (loadSeqCommands xs ++ [i]) s = exec i (loadedSeq s xs) := by
  rw [runCommands_append _ _ (runCommands_loadSeqCommands hi.paramsWf hb xs) hb (lastStatus_loadedSeq s xs),
    runCommands_singleton]

theorem runPseudo_checksum (xs : List Sym) (ic : Bool) :
    runPseudo (.checksum xs ic) s = exec (.csum ic) (loadedSeq s xs) :=
  (runPseudo_of_readBack_nil fun _ => rfl).trans (runCommands_loadSeqCommands_concat hi hb xs _)

theorem runPseudo_verify (xs : List Sym) : runPseudo (.verify xs) s = exec .vrfy (loadedSeq s xs) :=
  (runPseudo_of_readBack_nil fun _ => rfl).trans (runCommands_loadSeqCommands_concat hi hb xs _)

/-- CORRECT reads every record after a success, and stops at an error. -/
theorem runPseudo_correct (xs : List Sym) {u : State} (h : exec .corr (loadedSeq s xs) = .next u) :
    runPseudo (.correct xs) s =
      .next (if lastStatus u = 0#8 then
        { u with responses := u.responses ++ symbolResponses ((List.range u.ncand.toNat).flatMap (candRecord u)) }
      else u) := by
  have hrun : runCommands (expand (.correct xs)) s = .next u := (runCommands_loadSeqCommands_concat hi hb xs _).trans h
  have hu : u.Inv := (inv_loadedSeq hi).exec (i := .corr) nofun h
  obtain ⟨e, info, rfl⟩ | ⟨v, w, heffect, rfl⟩ | ⟨hgen, -⟩ := ends_of_exec h
  · have hstop := (lastStatus_raise e info (loadedSeq s xs)).trans_ne (errorCode_ne_zero e)
    rw [runPseudo_of_stop hrun (.inr hstop), if_neg hstop]
  · obtain ⟨hbusy, hc⟩ : w.busy = false ∧ w.cvalid = true := by
      cases heffect
      exact ⟨hb, rfl⟩
    have hok := lastStatus_respond v w
    rw [runPseudo_of_ok hrun hbusy hok, if_pos hok]
    exact runCommands_readCandCommands hu hbusy hc
  · cases hgen

omit hb in
/-- GENERATE reads the sequence after a success, and stops at an error or at a GEN that waits. -/
theorem runPseudo_generate {u : State} (h : exec .gen s = .next u) :
    runPseudo .generate s =
      .next (if u.busy = true ∨ lastStatus u ≠ 0#8 then u
        else { u with responses := u.responses ++ symbolResponses (seqSymbols u (u.m.toNat + 1)) }) := by
  have hrun : runCommands (expand .generate) s = .next u := (runCommands_singleton _ _).trans h
  have hu : u.Inv := hi.exec (i := .gen) nofun h
  obtain ⟨e, info, rfl⟩ | ⟨v, w, heffect, rfl⟩ | ⟨-, -, -, rfl⟩ := ends_of_exec h
  · have hstop := (lastStatus_raise e info s).trans_ne (errorCode_ne_zero e)
    rw [runPseudo_of_stop hrun (.inr hstop), if_pos (.inr hstop)]
  · obtain ⟨hbusy, hslen⟩ : w.busy = false ∧ w.slen.toNat = w.m.toNat + 1 := by
      cases heffect
      exact ⟨rfl, Nat.mod_eq_of_lt (by have := s.m.isLt; omega)⟩
    have hok := lastStatus_respond v w
    rw [runPseudo_of_ok hrun hbusy hok, if_neg (by simp [hbusy, hok])]
    exact runCommands_readSeqCommands hu hbusy hslen
  · rw [runPseudo_of_stop hrun (.inl rfl), if_pos (.inl rfl)]

/-- CONSTRUCT ends with INIT on the list as the alphabet. -/
theorem runPseudo_construct {k : BitVec 8} {m : BitVec 16} {xs : List Sym} {mask : Acc}
    (hk : buildMask s.params k.toNat = some mask) (hm : 1 ≤ m.toNat ∧ m.toNat ≤ s.params.mmax)
    (hlen : xs.length = 2 ^ k.toNat) (hdistinct : xs.Nodup) :
    runPseudo (.construct k m xs) s =
      .next (respond (mask.setWidth 48) (startEngine k m mask (loadedAlpha (respond 0#48 (endEngine s)) xs))) := by
  have hfree := (hi.endEngine hb).respond 0#48
  obtain ⟨hkmax, -⟩ := buildMask_eq_some.mp hk
  have hfits : 2 ^ k.toNat ≤ alphaSize s.params := Nat.pow_le_pow_right (by decide) hkmax
  have hm' : ¬ (m.toNat < 1 ∨ s.params.mmax < m.toNat) := by omega
  have hload := runCommands_loadAlphaCommands hfree.paramsWf hb rfl xs
  have hinit := exec_init_of_distinct (s := loadedAlpha (respond 0#48 (endEngine s)) xs) rfl hk (m := m) hm'
    (wrongAlphabetSize_loadedAlpha hfree.paramsWf hlen hfits)
    (firstDuplicate_loadedAlpha hfree.alphaForm.1 hlen hfits hdistinct)
  rw [runPseudo_of_readBack_nil fun _ => rfl, expand, runCommands_cons (exec_free s) hb (lastStatus_respond _ _),
    runCommands_append _ _ hload hb (lastStatus_loadedAlpha _ _), runCommands_singleton, hinit]

end

/-- Settles O60: each pseudo-instruction is its expansion, and CONSTRUCT loads what INIT then finds distinct. -/
theorem constructBuildsTheEngine : Obligations.ConstructBuildsTheEngine := by
  intro s hi hb
  refine ⟨fun k m xs mask hk hone hmax hlen hdistinct => ?construct, fun xs hr => runPseudo_loadAlpha_of_ready hr xs,
    fun xs hr => ?loadAlpha, fun xs => ?loadSeq, fun u => runPseudo_generate hi,
    fun k => (runPseudo_of_readBack_nil fun _ => rfl).trans (runCommands_singleton _ _)⟩
  case construct =>
    have hsupported : supported s.params k.toNat = true := (isSome_buildMask _ _).symm.trans (Option.isSome_of_eq_some hk)
    obtain ⟨hkmax, -⟩ := buildMask_eq_some.mp hk
    have hfits : 2 ^ k.toNat ≤ alphaSize s.params := Nat.pow_le_pow_right (by decide) hkmax
    exact ⟨_, runPseudo_construct hi hb hk ⟨hone, hmax⟩ hlen hdistinct, rfl,
      toNat_setWidth_of_supported hi.paramsWf hsupported, rfl, rfl,
      fun i h => read_writeList_take hi.alphaForm.1 xs (lt_min (hlen.symm ▸ h) (h.trans_le hfits)), rfl, rfl,
      List.getLast?_concat⟩
  case loadAlpha =>
    exact ⟨_, runPseudo_loadAlpha_of_not_ready hi hb hr xs, toNat_alen_loadedAlpha hi.paramsWf xs, rfl,
      fun i h => read_writeList_take hi.alphaForm.1 xs h, rfl⟩
  case loadSeq =>
    exact ⟨_, runPseudo_loadSeq hi hb xs, toNat_slen_loadedSeq hi.paramsWf xs, rfl,
      fun p h => read_writeList_take hi.seqForm.1 xs h, rfl, runPseudo_checksum hi hb xs, runPseudo_verify hi hb xs,
      fun u => runPseudo_correct hi hb xs⟩

end Sys2Proof.Machine
end
